-- ==== Sys2Proof/Word.lean ====
section
/-! DEFINITION. The word types of the block (spec/00_scope.md R8, R9): bytes on the wire and in DBUF, 16-bit fields,
32-bit registers. All values are unsigned; there is no sign extension anywhere. -/

namespace Sys2Proof

/-- A byte: an unsigned integer 0..255 (R9). -/
abbrev Byte := BitVec 8

/-- A 16-bit register field or checksum value. -/
abbrev Half := BitVec 16

/-- A register of the block; every register is 32 bits wide (R8). -/
abbrev Word := BitVec 32

/-- A 4-bit command opcode (30_encoding.md R100). -/
abbrev Opc := BitVec 4

end Sys2Proof
end

