-- ==== Sys2Proof/Syntax.lean ====
section
/-! DEFINITION. The instruction set: the command opcodes of spec/30_encoding.md R101, one constructor per row of
spec/opcode_table.json. A command carries no operand in its word (R103). -/

namespace Sys2Proof

/-- One command. The three ILLEGAL rows of the table are three constructors; the two rows with free opcode bits carry
the whole opcode, which is what the block records of it in `LAST_OPC` (40_command_control.md R143). -/
inductive Instr where
  /-- NOP, OPC 0x0. -/
  | nop
  /-- ESCAPE, OPC 0x1. -/
  | escape
  /-- UNESCAPE, OPC 0x2. -/
  | unescape
  /-- CKSUM, OPC 0x3. -/
  | cksum
  /-- CKVERIFY, OPC 0x4. -/
  | ckverify
  /-- BUILD, OPC 0x5. -/
  | build
  /-- PARSE, OPC 0x6. -/
  | parse
  /-- SEND, OPC 0x7. -/
  | send
  /-- CLEAR, OPC 0x8. -/
  | clear
  /-- ILLEGAL, the row of OPC 0x9. -/
  | illegal9
  /-- ILLEGAL, the row of OPC 0xA and 0xB. -/
  | illegalAB (opc : Opc)
  /-- ILLEGAL, the row of OPC 0xC to 0xF. -/
  | illegalCF (opc : Opc)
deriving DecidableEq, Repr

/-- The opcode of a command (30_encoding.md R101). -/
def Instr.opcode : Instr → Opc
  | .nop => 0x0
  | .escape => 0x1
  | .unescape => 0x2
  | .cksum => 0x3
  | .ckverify => 0x4
  | .build => 0x5
  | .parse => 0x6
  | .send => 0x7
  | .clear => 0x8
  | .illegal9 => 0x9
  | .illegalAB opc => opc
  | .illegalCF opc => opc

end Sys2Proof
end

