-- ==== Sys2Proof/WellFormed.lean ====
section
/-! DEFINITION. When a command term stands for a word of its own row of spec/opcode_table.json: the opcode an ILLEGAL
row carries lies in that row (match and mask of the table). Every other constructor has no operand to check. -/

namespace Sys2Proof

/-- The opcodes of the row with match 0xA and mask 0xE. -/
def Opc.inRowAB (opc : Opc) : Bool := opc &&& 0xE == 0xA

/-- The opcodes of the row with match 0xC and mask 0xC. -/
def Opc.inRowCF (opc : Opc) : Bool := opc &&& 0xC == 0xC

/-- A well-formed command. -/
def Instr.wellFormed : Instr → Bool
  | .nop => true
  | .escape => true
  | .unescape => true
  | .cksum => true
  | .ckverify => true
  | .build => true
  | .parse => true
  | .send => true
  | .clear => true
  | .illegal9 => true
  | .illegalAB opc => Opc.inRowAB opc
  | .illegalCF opc => Opc.inRowCF opc

end Sys2Proof
end

