-- ==== Sys2Proof/Decode.lean ====
section
/-! DEFINITION. The command word (spec/30_encoding.md R100-R102): the decoder, total on every 32-bit word, and the
encoder. The block refuses no word: R102 gives each of the sixteen opcodes a row, so nothing is rejected here (an
illegal opcode is a command, which fails when it runs). The opcode of the word is `Instr.opcode`, R101. -/

namespace Sys2Proof

/-- `OPC = word[3:0]`; bits [31:4] are ignored (R100). -/
def opcField (w : Word) : Opc := w.extractLsb' 0 4

/-- The row of R101 that an opcode selects. -/
def decodeOpc (opc : Opc) : Instr :=
  match opc.toNat with
  | 0x0 => .nop
  | 0x1 => .escape
  | 0x2 => .unescape
  | 0x3 => .cksum
  | 0x4 => .ckverify
  | 0x5 => .build
  | 0x6 => .parse
  | 0x7 => .send
  | 0x8 => .clear
  | 0x9 => .illegal9
  | 0xA => .illegalAB opc
  | 0xB => .illegalAB opc
  | _ => .illegalCF opc

/-- Decoding a word written to CMD (R102). -/
def decode (w : Word) : Instr := decodeOpc (opcField w)

/-- The word software writes for a command: the opcode in bits [3:0] and 0 in the ignored bits (R100, "write 0"). -/
def encode (i : Instr) : Word := i.opcode.setWidth 32

/-- The instruction the decoder reads from `w`, an instruction of `nbits` bits. A command is one 32-bit word
(R100), so a longer one is no command; bits above `nbits` are 0. -/
def decodeTableWord (nbits w : Nat) : Option Instr :=
  if nbits ≤ 32 then some (decode (BitVec.ofNat 32 (w % 2 ^ nbits))) else none

end Sys2Proof
end

