-- ==== Sys2Proof/Config.lean ====
section
/-! DEFINITION. What an implementation fixes (the parameters of spec/00_scope.md R8) and the free values (the spec's
"draws", R17): values the spec leaves open, given no body, so that no proof can see what they are. -/

namespace Sys2Proof

/-- The parameters of one block that a step reads (R8). They are held in State, so that every statement about all
states is a statement about all parameters; no step changes them. `TICK_PERIOD` is real time and has no place here
(log 14). -/
structure Params where
  /-- `BLOCK_BASE`, OPEN (20_memory.md R70). -/
  base : Nat
  /-- `DBUF_SIZE`, in bytes (20_memory.md R77). -/
  dbufSize : Nat
deriving DecidableEq, Repr

/-- The values R8 admits: the window is 8 KiB aligned, DBUF is a multiple of 4 between 256 and 4096 bytes. -/
abbrev Params.legal (p : Params) : Prop :=
  p.base % 8192 = 0 ∧ p.dbufSize % 4 = 0 ∧ 256 ≤ p.dbufSize ∧ p.dbufSize ≤ 4096

/-- The default `DBUF_SIZE` of R8. `BLOCK_BASE` has no default: 0 is a DESIGN CHOICE (unsafe, log 7). -/
def Params.default : Params := { base := 0, dbufSize := 2048 }

/-- The draw DBUF offset `a` holds from the `epoch`-th reset on, until something writes it (20_memory.md R78). -/
opaque Config.dbufByte (epoch a : Nat) : Byte

/-- The `n`-th draw that a host read made while Busy sees (10_state.md R62). -/
opaque Config.busyDraw (n : Nat) : Word

/-- `ck(d)` under the reserved `CK_ALG = 3`, which no rule states and no command reaches (42_checksum.md R181,
40_command_control.md R136; log 11). -/
opaque Config.reservedChecksum (d : List Byte) : Half

/-- The length-or-control byte under the reserved `HDR_MODE = 3`, which no rule states and no command reaches
(43_frame_codec.md R201, 40_command_control.md R136; log 11). -/
opaque Config.reservedHdrByte (c : Byte) (p : List Byte) : Byte

end Sys2Proof
end

