-- ==== Sys2Proof/Machine/State.lean ====
section
/-! DEFINITION. The state of the block: everything spec/10_state.md (R20) and spec/20_memory.md (R77) give it, the
parameters of R8, and the model's own fields (the schedule of events and what the outside sees). Plain data. -/

namespace Sys2Proof.Machine

/-! ## The named values of the state's fields -/

/-- `STATE`, the sequencer state (10_state.md R24). The value 7, never produced, has no constructor. -/
inductive SeqState where
  | idle
  | exec
  | sending
  | await
  | retryWait
  | success
  | failed
deriving DecidableEq, Repr

/-- `ERR_CODE` and `LAST_CAUSE` (10_state.md R26, 60_exceptions.md R300). The values 12-15, never produced, have no
constructor. -/
inductive ErrCode where
  | none
  | timeout
  | ckMismatch
  | addrMismatch
  | malformed
  | nack
  | exhausted
  | busyRsp
  | tooLarge
  | config
  | bounds
  | illegalCmd
deriving DecidableEq, Repr

/-- `MAL_SUB` (10_state.md R26, 60_exceptions.md R304). -/
inductive MalSub where
  | none
  | truncEsc
  | noEnd
  | overflow
  | shortHdr
  | lenField
  | expLen
  | badStatus
deriving DecidableEq, Repr

/-- `XPH`, the sub-phase of SENDING (10_state.md R60). -/
inductive TxPhase where
  | emit
  | settle
deriving DecidableEq, Repr

/-- `RXPH`, the receive parser's phase (10_state.md R60). -/
inductive RxPhase where
  | hunt
  | hdr
  | body
  | escp
  | ck
deriving DecidableEq, Repr

/-- The agents of 00_scope.md R6. -/
inductive Agent where
  | host
  | txLine
  | rxLine
  | timebase
  | exec
  | reset
deriving DecidableEq, Repr

/-- The width of a host access (00_scope.md R8: 8, 16 or 32 bits). -/
inductive Width where
  | w8
  | w16
  | w32
deriving DecidableEq, Repr

/-- The events of 00_scope.md R6. A host access is at a host address; the data of a narrow write stand in the low
bits. -/
inductive Event where
  | hostRead (addr : Nat) (width : Width)
  | hostWrite (addr : Nat) (width : Width) (data : Word)
  | txTake
  | rxByte (b : Byte)
  | tick
  | exec
  | reset
deriving DecidableEq, Repr

/-- The block's answer to a host access: none (an address outside the window, or no access yet), the data of a read
(a narrow read's data in the low bits), a write taken (stored or ignored), or the bus error of 60_exceptions.md
R312. -/
inductive BusAnswer where
  | none
  | readData (d : Word)
  | written
  | busError
deriving DecidableEq, Repr

/-! ## The groups of registers -/

/-- The registers the host writes (10_state.md R29-R53). A register is held whole; its bits that read 0 are 0. -/
structure Regs where
  /-- `CTRL.IRQ_EN` (R29). -/
  irqEn : Bool
  /-- `CTRL.LOCK` (R29). -/
  lock : Bool
  /-- PROFILE (R30). -/
  profile : Word
  /-- MARKS (R40). -/
  marks : Word
  /-- CODES (R41). -/
  codes : Word
  /-- CK_SEED (R42). -/
  ckSeed : Word
  /-- CRC_CFG (R43). -/
  crcCfg : Word
  /-- CRC_IV (R44). -/
  crcIv : Word
  /-- RSV0-RSV7, the bitmap of 256 one-bit registers (R45, R65): bit v is `RSV[v]`. -/
  rsv : BitVec 256
  /-- TX_HDR (R46). -/
  txHdr : Word
  /-- RX_EXP (R47). -/
  rxExp : Word
  /-- LIMITS (R48). -/
  limits : Word
  /-- TMO (R49). -/
  tmo : Word
  /-- SETTLE (R50). -/
  settle : Word
  /-- SRC (R51). -/
  src : Word
  /-- DST (R52). -/
  dst : Word
  /-- CK_REF (R53). -/
  ckRef : Word
deriving DecidableEq, Repr

/-- The fields of STATUS that are stored (10_state.md R24-R28). BUSY, DONE and IRQ are functions of these and of
`IRQ_EN` (Machine/Flags.lean). -/
structure Status where
  st : SeqState
  vok : Bool
  rts : Bool
  dtr : Bool
  errCode : ErrCode
  lastCause : ErrCode
  malSub : MalSub
  cmdRej : Bool
  wrIgn : Bool
  lastOpc : Opc
deriving DecidableEq, Repr

/-- The result registers (10_state.md R54-R57). -/
structure Results where
  outLen : Half
  consumed : Half
  ckRes : Half
  rxAddr : Half
  rxCtrl : Byte
  retryCnt : BitVec 8
  dropCnt : Half
deriving DecidableEq, Repr

/-- The transmitter: `XPH`, `TXF`, `TX_IDX` (10_state.md R60). -/
structure Tx where
  ph : TxPhase
  frame : List Byte
  idx : Nat
deriving DecidableEq, Repr

/-- The receive parser: `RXPH`, `RXH`, `RXB`, `RXC` (10_state.md R60, 43_frame_codec.md R204). -/
structure Rx where
  ph : RxPhase
  hdr : List Byte
  body : List Byte
  ck : List Byte
deriving DecidableEq, Repr

/-- DBUF: the bytes written since reset, as (offset, byte), offsets strictly rising. An offset that is not listed
holds a draw (20_memory.md R78), which is no byte of its own: no listed byte can equal "an unknown byte", so a written
byte is always listed and equal contents are equal data (log 5). -/
abbrev Memory := List Host.Cell

/-- The whole state. -/
structure State where
  /-- The registers the host writes. -/
  regs : Regs
  /-- STATUS. -/
  status : Status
  /-- RESULT, CK_RES, RX_HDR, COUNTS. -/
  results : Results
  /-- DBUF. -/
  dbuf : Memory
  /-- `PEND_OPC` (R60). -/
  pendOpc : Opc
  /-- `XPH`, `TXF`, `TX_IDX` (R60). -/
  tx : Tx
  /-- `WCNT` (R60). -/
  wcnt : Half
  /-- `RXPH`, `RXH`, `RXB`, `RXC` (R60). -/
  rx : Rx
  /-- `BLOCK_BASE` and `DBUF_SIZE` (00_scope.md R8); no step changes them. -/
  params : Params
  /-- The model's own: the agent whose event this step is (00_scope.md R6; log 3). -/
  agent : Agent
  /-- The model's own: the events to come, first one first (00_scope.md R6; log 1). -/
  events : List Event
  /-- The model's own: the answer to the last host access (log 9). -/
  bus : BusAnswer
  /-- The model's own: the bytes the TxLine has taken so far, `emit` of 00_scope.md R13 (log 9). -/
  wire : List Byte
  /-- The model's own: the number of draws that reads while Busy have made (10_state.md R62; log 6). -/
  draws : Nat
  /-- The model's own: the number of Reset events so far, which selects what DBUF's draws are (20_memory.md R78;
  log 5). -/
  epoch : Nat
deriving DecidableEq, Repr

/-! ## Why a step can stop -/

/-- The faults of the model. The block's own errors are no faults: they are recorded in STATUS (60_exceptions.md R300)
or answered on the bus (R312), and the machine goes on. -/
inductive Fault where
  /-- Raised by the one operation that writes a command's output (MemWrite, 00_scope.md R12) when the output would
  leave DBUF. R12 says it is never called so. Safe: no state that satisfies `State.Inv` (Sys2Proof/Safety.lean)
  raises it, and none is reached from reset (log 13). -/
  | dbufOutside
deriving DecidableEq, Repr

/-- Why an instruction is refused. -/
inductive Refusal where
  /-- Raised by an arm of exec whose instruction has no meaning yet. No arm raises it: every command is modelled.
  Safe. -/
  | notModelled (mnemonic : String)
deriving DecidableEq, Repr

/-! ## Reset -/

/-- The registers' reset values (10_state.md R21, 70_reset_and_hazards.md R332). -/
def Regs.reset : Regs where
  irqEn := false
  lock := false
  profile := 0x000C2130
  marks := 0x00100302
  codes := 0x00001506
  ckSeed := 0x00000000
  crcCfg := 0x00038005
  crcIv := 0x00000000
  rsv := 0
  txHdr := 0x00000000
  rxExp := 0x00000000
  limits := 0x00FF0000
  tmo := 0x00000064
  settle := 0x00000000
  src := 0x00000000
  dst := 0x00000000
  ckRef := 0x00000000

/-- STATUS after reset (70_reset_and_hazards.md R332). -/
def Status.reset : Status where
  st := .idle
  vok := false
  rts := false
  dtr := false
  errCode := .none
  lastCause := .none
  malSub := .none
  cmdRej := false
  wrIgn := false
  lastOpc := 0

/-- The result registers after reset (70_reset_and_hazards.md R332). -/
def Results.reset : Results where
  outLen := 0
  consumed := 0
  ckRes := 0
  rxAddr := 0
  rxCtrl := 0
  retryCnt := 0
  dropCnt := 0

/-- The transmitter after reset (10_state.md R60). -/
def Tx.reset : Tx where
  ph := .emit
  frame := []
  idx := 0

/-- The receive parser after reset (10_state.md R60); also `rx_reset()` of 43_frame_codec.md R205. -/
def Rx.reset : Rx where
  ph := .hunt
  hdr := []
  body := []
  ck := []

/-- The machine right after reset (70_reset_and_hazards.md R330-R332): no event is scheduled. -/
def State.reset : State where
  regs := Regs.reset
  status := Status.reset
  results := Results.reset
  dbuf := []
  pendOpc := 0
  tx := Tx.reset
  wcnt := 0
  rx := Rx.reset
  params := Params.default
  agent := .reset
  events := []
  bus := .none
  wire := []
  draws := 0
  epoch := 0

end Sys2Proof.Machine
end

