-- ==== Sys2Proof/Machine/Memory.lean ====
section
/-! DEFINITION. DBUF as a list of (offset, byte) in canonical form, and the memory primitives of spec/00_scope.md R12.
What an unlisted offset reads as stands in one place, `State.dbufByte`. -/

namespace Sys2Proof.Machine

/-- The byte listed at offset `k`, if any. -/
def Memory.find : Memory → Nat → Option Byte
  | [], _ => none
  | (a, b) :: m, k => if k = a then some b else Memory.find m k

/-- `DB[k] <- v`, keeping the offsets rising. -/
def Memory.put : Memory → Nat → Byte → Memory
  | [], k, v => [(k, v)]
  | (a, b) :: m, k, v =>
    if k < a then (k, v) :: (a, b) :: m
    else if k = a then (k, v) :: m
    else (a, b) :: Memory.put m k v

/-- `DB[a+i] <- s[i]` for every i (R12). -/
def Memory.putAll : Memory → Nat → List Byte → Memory
  | m, _, [] => m
  | m, a, b :: s => Memory.putAll (Memory.put m a b) (a + 1) s

/-- The canonical form: offsets strictly rising. -/
def Memory.wf : Memory → Bool
  | [] => true
  | [_] => true
  | (a, _) :: (b, c) :: m => a < b && Memory.wf ((b, c) :: m)

/-- `DB[a]`: the byte written last, or the draw the offset holds since the last reset (20_memory.md R78). -/
def State.dbufByte (s : State) (a : Nat) : Byte :=
  match s.dbuf.find a with
  | some b => b
  | none => Config.dbufByte s.epoch a

/-- `MemRead(a, n)` (R12): the bytes `DB[a] .. DB[a+n-1]`. Called only after the bounds check of
40_command_control.md R137, so inside DBUF. -/
def State.memRead (s : State) (a : Nat) : Nat → List Byte
  | 0 => []
  | n + 1 => s.dbufByte a :: State.memRead s (a + 1) n

end Sys2Proof.Machine
end

