-- ==== Sys2Proof/Machine/Operands.lean ====
section
/-! DEFINITION. The operands of commands: the fields of the registers (spec/10_state.md R30-R53), the quantities
derived from them (spec/00_scope.md R14) and the DBUF regions. Every operand is an unsigned field taken whole
(spec/30_encoding.md R104); lengths, offsets and counts are natural numbers, so sums of them never wrap. -/

namespace Sys2Proof.Machine

/-! ## PROFILE (R30) -/

/-- `CK_ALG`: 0 XOR, 1 ADD, 2 CRC16, 3 reserved. -/
def Regs.ckAlg (r : Regs) : BitVec 2 := r.profile.extractLsb' 0 2
/-- `CK_ORDER`: wire order of the CRC bytes, 1 = big-endian. -/
def Regs.ckOrder (r : Regs) : Bool := r.profile.getLsbD 2
/-- `INC_START`. -/
def Regs.incStart (r : Regs) : Bool := r.profile.getLsbD 3
/-- `INC_ADDR`. -/
def Regs.incAddr (r : Regs) : Bool := r.profile.getLsbD 4
/-- `INC_CTRL`. -/
def Regs.incCtrl (r : Regs) : Bool := r.profile.getLsbD 5
/-- `INC_END`. -/
def Regs.incEnd (r : Regs) : Bool := r.profile.getLsbD 6
/-- `ADDR_LEN`: 1 = two address bytes. -/
def Regs.addrLen (r : Regs) : Bool := r.profile.getLsbD 7
/-- `HDR_MODE`: 0 NONE, 1 CTRL, 2 LEN, 3 reserved. -/
def Regs.hdrMode (r : Regs) : BitVec 2 := r.profile.extractLsb' 8 2
/-- `ESC_HDR`. -/
def Regs.escHdr (r : Regs) : Bool := r.profile.getLsbD 10
/-- `RSP_MODE`: 1 = a reply frame is awaited. -/
def Regs.rspMode (r : Regs) : Bool := r.profile.getLsbD 11
/-- `ADDR_CHK`. -/
def Regs.addrChk (r : Regs) : Bool := r.profile.getLsbD 12
/-- `RTY_TMO`. -/
def Regs.rtyTmo (r : Regs) : Bool := r.profile.getLsbD 13
/-- `RTY_MAL`. -/
def Regs.rtyMal (r : Regs) : Bool := r.profile.getLsbD 14
/-- `TMO_MODE`: 1 = inter-byte deadline. -/
def Regs.tmoMode (r : Regs) : Bool := r.profile.getLsbD 15
/-- `LC_EN`. -/
def Regs.lcEn (r : Regs) : Bool := r.profile.getLsbD 16
/-- `LC_SEL`: 0 RTS, 1 DTR. -/
def Regs.lcSel (r : Regs) : Bool := r.profile.getLsbD 17
/-- `ACK_EN`. -/
def Regs.ackEn (r : Regs) : Bool := r.profile.getLsbD 18
/-- `NACK_EN`. -/
def Regs.nackEn (r : Regs) : Bool := r.profile.getLsbD 19
/-- `BUSY_EN`. -/
def Regs.busyEn (r : Regs) : Bool := r.profile.getLsbD 20

/-! ## MARKS, CODES, CK_SEED, CRC_CFG, CRC_IV, RSV (R40-R45) -/

/-- `START_MK`. -/
def Regs.startMk (r : Regs) : Byte := r.marks.extractLsb' 0 8
/-- `END_MK`. -/
def Regs.endMk (r : Regs) : Byte := r.marks.extractLsb' 8 8
/-- `ESC_MK`. -/
def Regs.escMk (r : Regs) : Byte := r.marks.extractLsb' 16 8
/-- `ACK_CODE`. -/
def Regs.ackCode (r : Regs) : Byte := r.codes.extractLsb' 0 8
/-- `NACK_CODE`. -/
def Regs.nackCode (r : Regs) : Byte := r.codes.extractLsb' 8 8
/-- `BUSY_CODE`. -/
def Regs.busyCode (r : Regs) : Byte := r.codes.extractLsb' 16 8
/-- `SEED`. -/
def Regs.seed (r : Regs) : Byte := r.ckSeed.extractLsb' 0 8
/-- `CRC_POLY`. -/
def Regs.crcPoly (r : Regs) : Half := r.crcCfg.extractLsb' 0 16
/-- `REFIN`. -/
def Regs.refIn (r : Regs) : Bool := r.crcCfg.getLsbD 16
/-- `REFOUT`. -/
def Regs.refOut (r : Regs) : Bool := r.crcCfg.getLsbD 17
/-- `CRC_INIT`. -/
def Regs.crcInit (r : Regs) : Half := r.crcIv.extractLsb' 0 16
/-- `CRC_XOROUT`. -/
def Regs.crcXorOut (r : Regs) : Half := r.crcIv.extractLsb' 16 16

/-- Membership in the effective reserved set `E` (R45, 41_escape_codec.md R160): a byte whose `RSV` bit is 1, or one of
the three markers. -/
def Regs.reserved (r : Regs) (v : Byte) : Bool :=
  r.rsv.getLsbD v.toNat || v == r.startMk || v == r.endMk || v == r.escMk

/-! ## The per-command operand registers (R46-R53) -/

/-- `TX_ADDR`. -/
def Regs.txAddr (r : Regs) : Half := r.txHdr.extractLsb' 0 16
/-- `TX_CTRL`. -/
def Regs.txCtrl (r : Regs) : Byte := r.txHdr.extractLsb' 16 8
/-- `EXP_ADDR`. -/
def Regs.expAddr (r : Regs) : Half := r.rxExp.extractLsb' 0 16
/-- `EXP_LEN`. -/
def Regs.expLen (r : Regs) : Nat := (r.rxExp.extractLsb' 16 16).toNat
/-- `MAX_RETRY`. -/
def Regs.maxRetry (r : Regs) : BitVec 8 := r.limits.extractLsb' 0 8
/-- `MAX_PL`. -/
def Regs.maxPl (r : Regs) : Nat := (r.limits.extractLsb' 16 16).toNat
/-- `RX_TMO`. -/
def Regs.rxTmo (r : Regs) : Half := r.tmo.extractLsb' 0 16
/-- `BACKOFF`. -/
def Regs.backoff (r : Regs) : Half := r.tmo.extractLsb' 16 16
/-- `SETTLE_T`. -/
def Regs.settleT (r : Regs) : Half := r.settle.extractLsb' 0 16
/-- `SRC_PTR`. -/
def Regs.srcPtr (r : Regs) : Nat := (r.src.extractLsb' 0 16).toNat
/-- `SRC_LEN`. -/
def Regs.srcLen (r : Regs) : Nat := (r.src.extractLsb' 16 16).toNat
/-- `DST_PTR`. -/
def Regs.dstPtr (r : Regs) : Nat := (r.dst.extractLsb' 0 16).toNat
/-- `DST_CAP`. -/
def Regs.dstCap (r : Regs) : Nat := (r.dst.extractLsb' 16 16).toNat
/-- The value CKVERIFY compares against, `CK_REF` (R53). -/
def Regs.ckRefVal (r : Regs) : Half := r.ckRef.extractLsb' 0 16

/-! ## Derived quantities (00_scope.md R14, 43_frame_codec.md R206) -/

/-- `alen = ADDR_LEN + 1`. -/
def Regs.alen (r : Regs) : Nat := if r.addrLen then 2 else 1
/-- `cflen`: 0 when `HDR_MODE` is NONE, else 1. -/
def Regs.cflen (r : Regs) : Nat := if r.hdrMode = 0 then 0 else 1
/-- `hlen = alen + cflen`. -/
def Regs.hlen (r : Regs) : Nat := r.alen + r.cflen
/-- `ckw`: 1 for XOR and ADD, else 2. -/
def Regs.ckw (r : Regs) : Nat := if r.ckAlg = 0 ∨ r.ckAlg = 1 then 1 else 2
/-- The receive capacity `cap` (R206). -/
def Regs.cap (r : Regs) : Nat := r.dstCap + if r.escHdr then r.hlen else 0
/-- Whether an offset lies in the DST region `DST_PTR .. DST_PTR + DST_CAP - 1` (10_state.md R62). -/
def Regs.inDst (r : Regs) (a : Nat) : Bool := r.dstPtr ≤ a && a < r.dstPtr + r.dstCap
/-- The low `8*alen` bits of an address (30_encoding.md R104). -/
def Regs.addrLow (r : Regs) (a : Half) : Half := if r.addrLen then a else a &&& 0x00FF

/-- A command's input: `MemRead(SRC_PTR, SRC_LEN)` (20_memory.md R79). -/
def State.srcBytes (s : State) : List Byte := s.memRead s.regs.srcPtr s.regs.srcLen

end Sys2Proof.Machine
end

