-- ==== Sys2Proof/Machine/Flags.lean ====
section
/-! DEFINITION. The status flags and the words the registers read as (spec/10_state.md R22-R28, R54-R57, R63): BUSY,
DONE and IRQ as functions of the state, the codes of STATE, ERR_CODE and MAL_SUB, and each read-only register's word. -/

namespace Sys2Proof.Machine

/-- `BUSY`: STATE is EXEC, SENDING, AWAIT or RETRY_WAIT (R24). -/
def SeqState.busy : SeqState → Bool
  | .idle => false
  | .exec => true
  | .sending => true
  | .await => true
  | .retryWait => true
  | .success => false
  | .failed => false

/-- `DONE`: STATE is SUCCESS or FAILED (R24). -/
def SeqState.done : SeqState → Bool
  | .idle => false
  | .exec => false
  | .sending => false
  | .await => false
  | .retryWait => false
  | .success => true
  | .failed => true

/-- The 3-bit value of STATE (R24). -/
def SeqState.code : SeqState → BitVec 3
  | .idle => 0
  | .exec => 1
  | .sending => 2
  | .await => 3
  | .retryWait => 4
  | .success => 5
  | .failed => 6

/-- The 4-bit value of ERR_CODE and LAST_CAUSE (R26). -/
def ErrCode.code : ErrCode → BitVec 4
  | .none => 0
  | .timeout => 1
  | .ckMismatch => 2
  | .addrMismatch => 3
  | .malformed => 4
  | .nack => 5
  | .exhausted => 6
  | .busyRsp => 7
  | .tooLarge => 8
  | .config => 9
  | .bounds => 10
  | .illegalCmd => 11

/-- The 3-bit value of MAL_SUB (R26). -/
def MalSub.code : MalSub → BitVec 3
  | .none => 0
  | .truncEsc => 1
  | .noEnd => 2
  | .overflow => 3
  | .shortHdr => 4
  | .lenField => 5
  | .expLen => 6
  | .badStatus => 7

/-- `BUSY` of the block. -/
def State.busy (s : State) : Bool := s.status.st.busy

/-- `DONE` of the block. -/
def State.done (s : State) : Bool := s.status.st.done

/-- The interrupt output, `IRQ = IRQ_EN & DONE` at all times (R28, 60_exceptions.md R313). -/
def State.irq (s : State) : Bool := s.regs.irqEn && s.done

/-- ID (R22): "HF", revision 1. A constant. -/
def idWord : Word := 0x48460001

/-- The STATUS word (R24-R28), bit 31 first. -/
def State.statusWord (s : State) : Word :=
  (0 : BitVec 3) ++ BitVec.ofBool s.irq ++ s.status.lastOpc ++
    (0 : BitVec 2) ++ BitVec.ofBool s.status.wrIgn ++ BitVec.ofBool s.status.cmdRej ++
    (0 : BitVec 1) ++ s.status.malSub.code ++ s.status.lastCause.code ++ s.status.errCode.code ++
    BitVec.ofBool s.status.dtr ++ BitVec.ofBool s.status.rts ++ BitVec.ofBool s.status.vok ++
    BitVec.ofBool s.done ++ BitVec.ofBool s.busy ++ s.status.st.code

/-- The CTRL word (R29). -/
def Regs.ctrlWord (r : Regs) : Word :=
  (0 : BitVec 30) ++ BitVec.ofBool r.lock ++ BitVec.ofBool r.irqEn

/-- The RESULT word (R54). -/
def Results.resultWord (x : Results) : Word := x.consumed ++ x.outLen

/-- The CK_RES word (R55). -/
def Results.ckResWord (x : Results) : Word := (0 : BitVec 16) ++ x.ckRes

/-- The RX_HDR word (R56). -/
def Results.rxHdrWord (x : Results) : Word := (0 : BitVec 8) ++ x.rxCtrl ++ x.rxAddr

/-- The COUNTS word (R57). -/
def Results.countsWord (x : Results) : Word := x.dropCnt ++ (0 : BitVec 8) ++ x.retryCnt

/-- The STATUS bits that read as draws while Busy (R62): VOK, ERR_CODE, LAST_CAUSE, MAL_SUB. -/
def statusDrawMask : Word := 0x0007FF20

/-- A host write was ignored (R59): the sticky `WR_IGN` is set and nothing else changes. -/
def State.ignoreWrite (s : State) : State := { s with status.wrIgn := true }

/-- A command was rejected while Busy (40_command_control.md R131): the sticky `CMD_REJ` is set and nothing else
changes. -/
def State.rejectCmd (s : State) : State := { s with status.cmdRej := true }

end Sys2Proof.Machine
end

