-- ==== Sys2Proof/Machine/Ops.lean ====
section
/-! DEFINITION. The operations that commands share: completion, which is the block's trap entry
(spec/60_exceptions.md R316), acceptance and CLEAR, which leave the done states and so are its return (R317), the
common checks of the Exec step (spec/40_command_control.md R134-R138), and the template every command follows
(R130-R134). -/

namespace Sys2Proof.Machine

/-! ## Completion (R139, R140) -/

/-- `complete_ok()` (R139). ERR_CODE, LAST_CAUSE and MAL_SUB keep the 0 of acceptance. -/
def State.completeOk (s : State) : State := { s with status.st := .success }

/-- `raise e(sub)` (R140): the command ends in FAILED with its error recorded, and both line-control pins are released.
No byte of DBUF is written. -/
def State.raise (s : State) (e : ErrCode) (sub : MalSub) : State :=
  { s with
    status.st := .failed
    status.errCode := e
    status.malSub := sub
    status.rts := false
    status.dtr := false }

/-- A command succeeds with output bytes: `MemWrite(DST_PTR, len(out), out); OUT_LEN <- len(out); complete_ok()`.
MemWrite is never called outside DBUF (00_scope.md R12): an output that would leave it is a fault, which no state of
the block can raise (log 13). -/
def State.finishWithOutput (s : State) (out : List Byte) : Host.Outcome State Fault Refusal :=
  if s.regs.dstPtr + out.length ≤ s.params.dbufSize then
    .next ({ s with
      dbuf := s.dbuf.putAll s.regs.dstPtr out
      results.outLen := BitVec.ofNat 16 out.length }).completeOk
  else .fault .dbufOutside

/-! ## Leaving the done states (R132, R142) -/

/-- What acceptance and CLEAR set to 0: ERR_CODE, LAST_CAUSE, MAL_SUB, VOK, OUT_LEN, CONSUMED, CK_RES, RX_ADDR,
RX_CTRL, RETRY_CNT. -/
def State.clearResults (s : State) : State :=
  { s with
    status.errCode := .none
    status.lastCause := .none
    status.malSub := .none
    status.vok := false
    results.outLen := 0
    results.consumed := 0
    results.ckRes := 0
    results.rxAddr := 0
    results.rxCtrl := 0
    results.retryCnt := 0 }

/-- A functional or illegal command is accepted (R132): the results are cleared and the block waits for its Exec
step. -/
def State.accept (s : State) (opc : Opc) : State :=
  { s.clearResults with
    status.st := .exec
    status.lastOpc := opc
    pendOpc := opc }

/-- What CLEAR does when it is not rejected (R142): back to IDLE, the results, the sticky flags and DROP_CNT cleared. -/
def State.clear (s : State) : State :=
  { s.clearResults with
    status.st := .idle
    status.lastOpc := 0x8
    status.cmdRej := false
    status.wrIgn := false
    results.dropCnt := 0 }

/-! ## The Exec step's checks (R134-R138) -/

/-- Whether the bounds check covers the DST region: ESCAPE, UNESCAPE, BUILD, PARSE, SEND (R137). -/
def usesDst (opc : Opc) : Bool := opc == 0x1 || opc == 0x2 || opc == 0x5 || opc == 0x6 || opc == 0x7

/-- Whether the command builds a frame, and so has its payload size checked: BUILD, SEND (R138). -/
def buildsFrame (opc : Opc) : Bool := opc == 0x5 || opc == 0x7

/-- R136: a reserved field value in the profile. -/
abbrev Regs.reservedConfig (r : Regs) : Prop := r.ckAlg = 3 ∨ r.hdrMode = 3

/-- R137, input region. -/
abbrev State.srcOutside (s : State) : Prop := s.regs.srcPtr + s.regs.srcLen > s.params.dbufSize

/-- R137, output region. -/
abbrev State.dstOutside (s : State) : Prop := s.regs.dstPtr + s.regs.dstCap > s.params.dbufSize

/-- R138: the payload is larger than one frame carries. -/
abbrev Regs.tooLarge (r : Regs) : Prop := r.srcLen > r.maxPl ∨ (r.hdrMode = 2 ∧ r.srcLen > 255)

/-- The first of the checks R135, R136, R137, R138 that raises, in that order, for the pending opcode. -/
def State.execCheck (s : State) (opc : Opc) : Option ErrCode :=
  if 9 ≤ opc.toNat then some .illegalCmd
  else if s.regs.reservedConfig then some .config
  else if s.srcOutside then some .bounds
  else if usesDst opc = true ∧ s.dstOutside then some .bounds
  else if buildsFrame opc = true ∧ s.regs.tooLarge then some .tooLarge
  else none

/-- The Exec step of a pending command (R134): the checks, then the pseudocode of its rule. -/
def State.execStep (s : State) (opc : Opc) (pseudocode : State → Host.Outcome State Fault Refusal) :
    Host.Outcome State Fault Refusal :=
  match s.execCheck opc with
  | some e => .next (s.raise e .none)
  | none => pseudocode s

/-- The host's write of a functional or illegal command to CMD (R130): rejected while Busy (R131), else accepted
(R132). -/
def State.cmdWrite (s : State) (opc : Opc) : State :=
  if s.busy then s.rejectCmd else s.accept opc

/-- A functional or illegal command (R130-R134). Its CMD write and its Exec step are two events of two agents; the
agent whose event the current step is says which of the two this is (log 3). -/
def State.command (s : State) (opc : Opc) (pseudocode : State → Host.Outcome State Fault Refusal) :
    Host.Outcome State Fault Refusal :=
  if s.agent = .exec then s.execStep opc pseudocode else .next (s.cmdWrite opc)

/-! ## The line-control pins (44_transaction.md R266) -/

/-- `pin(LC_SEL) <- v`: `pin(0)` is RTS, `pin(1)` is DTR. -/
def State.setPin (s : State) (v : Bool) : State :=
  if s.regs.lcSel then { s with status.dtr := v } else { s with status.rts := v }

end Sys2Proof.Machine
end

