-- ==== Sys2Proof/Machine/Checksum.lean ====
section
/-! DEFINITION. The checksum engine (spec/42_checksum.md): the three variants, the logical bytes of a frame, the wire
bytes of a checksum, and CKSUM and CKVERIFY. -/

namespace Sys2Proof.Machine

/-- `xor8(d)` from a seed (R182). -/
def xor8 (seed : Byte) (d : List Byte) : Byte := d.foldl (· ^^^ ·) seed

/-- `add8(d)` from a seed (R183): the sum modulo 256, then bit 7 forced to 1. -/
def add8 (seed : Byte) (d : List Byte) : Byte := d.foldl (· + ·) seed ||| 0x80

/-- One shift of the CRC register (R184): the bit shifted out selects whether the polynomial is subtracted. -/
def crcShift (poly c : Half) : Half := if c.msb then (c <<< 1) ^^^ poly else c <<< 1

/-- The CRC register after one byte (R184): the byte, reflected when `REFIN` = 1 (R185), enters at the top and the
register is shifted eight times. -/
def crcByte (poly : Half) (refIn : Bool) (c : Half) (b : Byte) : Half :=
  let b := if refIn then b.reverse else b
  Nat.repeat (crcShift poly) 8 (c ^^^ (b.setWidth 16 <<< 8))

/-- The CRC register after all of `d`. -/
def crcFold (poly : Half) (refIn : Bool) (c : Half) (d : List Byte) : Half := d.foldl (crcByte poly refIn) c

/-- `crc16(d)` with the parameters of CRC_CFG and CRC_IV (R184). -/
def Regs.crc16 (r : Regs) (d : List Byte) : Half :=
  let c := crcFold r.crcPoly r.refIn r.crcInit d
  (if r.refOut then c.reverse else c) ^^^ r.crcXorOut

/-- `ck(d)` (R181), one-byte variants zero-extended to 16 bits. -/
def Regs.ck (r : Regs) (d : List Byte) : Half :=
  match r.ckAlg.toNat with
  | 0 => (xor8 r.seed d).setWidth 16
  | 1 => (add8 r.seed d).setWidth 16
  | 2 => r.crc16 d
  | _ => Config.reservedChecksum d

/-- `L(ab, cb, p)` (R180): the logical bytes a frame's checksum covers, in wire order. -/
def Regs.logical (r : Regs) (ab cb p : List Byte) : List Byte :=
  (if r.incStart then [r.startMk] else []) ++ (if r.incAddr then ab else []) ++
    (if r.incCtrl then cb else []) ++ p ++ (if r.incEnd then [r.endMk] else [])

/-- `ckbytes(v)` (R186): the checksum's bytes in wire order. -/
def Regs.ckBytes (r : Regs) (v : Half) : List Byte :=
  let lo : Byte := v.extractLsb' 0 8
  let hi : Byte := v.extractLsb' 8 8
  if r.ckw = 1 then [lo] else if r.ckOrder then [hi, lo] else [lo, hi]

/-- The pseudocode of CKSUM (R191). -/
def State.runCksum (s : State) : Host.Outcome State Fault Refusal :=
  .next ({ s with
    results.ckRes := s.regs.ck s.srcBytes
    results.outLen := BitVec.ofNat 16 s.regs.ckw }).completeOk

/-- Whether a checksum value matches `CK_REF` (R192): a one-byte checksum is compared with `CK_REF[7:0]` (R104). -/
def Regs.ckMatches (r : Regs) (v : Half) : Bool :=
  if r.ckw = 1 then v.setWidth 8 == r.ckRefVal.setWidth 8 else v == r.ckRefVal

/-- The pseudocode of CKVERIFY (R192): a mismatch is a success with `VOK = 0`. -/
def State.runCkverify (s : State) : Host.Outcome State Fault Refusal :=
  let v := s.regs.ck s.srcBytes
  .next ({ s with
    results.ckRes := v
    status.vok := s.regs.ckMatches v }).completeOk

/-- CKSUM, OPC 0x3 (R191). -/
def execCksum (s : State) : Host.Outcome State Fault Refusal := s.command 0x3 State.runCksum

/-- CKVERIFY, OPC 0x4 (R192). -/
def execCkverify (s : State) : Host.Outcome State Fault Refusal := s.command 0x4 State.runCkverify

end Sys2Proof.Machine
end

