-- ==== Sys2Proof/Machine/Control.lean ====
section
/-! DEFINITION. The control commands NOP and CLEAR and the illegal opcodes (spec/40_command_control.md R141-R143). -/

namespace Sys2Proof.Machine

/-- NOP (R141): no effect, whether or not Busy. -/
def execNop (s : State) : Host.Outcome State Fault Refusal := .next s

/-- CLEAR (R142): rejected while Busy (R131), else done in the host step that writes it; it has no Exec step. -/
def execClear (s : State) : Host.Outcome State Fault Refusal :=
  .next (if s.busy then s.rejectCmd else s.clear)

/-- What an illegal opcode does in its Exec step: `raise ILLEGAL_CMD(0)` (R135, R143). -/
def State.illegal (s : State) : Host.Outcome State Fault Refusal := .next (s.raise .illegalCmd .none)

/-- ILLEGAL, OPC 0x9 (R143). -/
def execIllegal9 (s : State) : Host.Outcome State Fault Refusal := s.command 0x9 State.illegal

/-- ILLEGAL, OPC 0xA and 0xB (R143). -/
def execIllegalAB (opc : Opc) (s : State) : Host.Outcome State Fault Refusal := s.command opc State.illegal

/-- ILLEGAL, OPC 0xC to 0xF (R143). -/
def execIllegalCF (opc : Opc) (s : State) : Host.Outcome State Fault Refusal := s.command opc State.illegal

end Sys2Proof.Machine
end

