-- ==== Sys2Proof/Machine/Escape.lean ====
section
/-! DEFINITION. The escape codec (spec/41_escape_codec.md): the functions of R161 and R162, and ESCAPE and UNESCAPE. -/

namespace Sys2Proof.Machine

/-- `escape(s)` (R161): `ESC_MK` before every byte of `E`, the byte itself unchanged. -/
def Regs.escape (r : Regs) : List Byte → List Byte
  | [] => []
  | b :: s => if r.reserved b then r.escMk :: b :: Regs.escape r s else b :: Regs.escape r s

/-- `unescape(s)` (R162): `ESC_MK` is dropped and the byte after it copied, whatever it is. `none` is
`ERROR(TRUNC_ESC)`, an input whose last byte is an unpaired `ESC_MK`. -/
def Regs.unescape (r : Regs) : List Byte → Option (List Byte)
  | [] => some []
  | [b] => if b = r.escMk then none else some [b]
  | b :: c :: s =>
    if b = r.escMk then (Regs.unescape r s).map (c :: ·) else (Regs.unescape r (c :: s)).map (b :: ·)

/-- The pseudocode of ESCAPE (R165). -/
def State.runEscape (s : State) : Host.Outcome State Fault Refusal :=
  let out := s.regs.escape s.srcBytes
  if out.length > s.regs.dstCap then .next (s.raise .bounds .none) else s.finishWithOutput out

/-- The pseudocode of UNESCAPE (R166): the truncation check precedes the capacity check. -/
def State.runUnescape (s : State) : Host.Outcome State Fault Refusal :=
  match s.regs.unescape s.srcBytes with
  | none => .next (s.raise .malformed .truncEsc)
  | some out => if out.length > s.regs.dstCap then .next (s.raise .bounds .none) else s.finishWithOutput out

/-- ESCAPE, OPC 0x1 (R165). -/
def execEscape (s : State) : Host.Outcome State Fault Refusal := s.command 0x1 State.runEscape

/-- UNESCAPE, OPC 0x2 (R166). -/
def execUnescape (s : State) : Host.Outcome State Fault Refusal := s.command 0x2 State.runUnescape

end Sys2Proof.Machine
end

