-- ==== Sys2Proof/Machine/Frame.lean ====
section
/-! DEFINITION. The frame codec (spec/43_frame_codec.md): building a frame, the receive parser that PARSE and SEND
share, and BUILD and PARSE. -/

namespace Sys2Proof.Machine

/-! ## Building (R200-R202) -/

/-- `addrbytes(A)` (R200): two address bytes go most significant first. -/
def Regs.addrBytes (r : Regs) (a : Half) : List Byte :=
  if r.addrLen then [a.extractLsb' 8 8, a.extractLsb' 0 8] else [a.extractLsb' 0 8]

/-- `cbytes(C, p)` (R201): nothing, the control byte, or the count of unescaped payload bytes. -/
def Regs.ctrlBytes (r : Regs) (c : Byte) (p : List Byte) : List Byte :=
  match r.hdrMode.toNat with
  | 0 => []
  | 1 => [c]
  | 2 => [BitVec.ofNat 8 p.length]
  | _ => [Config.reservedHdrByte c p]

/-- The checksum value of the frame that carries address `a`, control byte `c` and payload `p` (R202). -/
def Regs.frameCk (r : Regs) (a : Half) (c : Byte) (p : List Byte) : Half :=
  r.ck (r.logical (r.addrBytes a) (r.ctrlBytes c p) p)

/-- The header as it goes on the wire (R202): escaped when `ESC_HDR` = 1. -/
def Regs.wireHdr (r : Regs) (a : Half) (c : Byte) (p : List Byte) : List Byte :=
  let hdr := r.addrBytes a ++ r.ctrlBytes c p
  if r.escHdr then r.escape hdr else hdr

/-- The frame of `build(A, C, p)` (R202). -/
def Regs.frame (r : Regs) (a : Half) (c : Byte) (p : List Byte) : List Byte :=
  [r.startMk] ++ r.wireHdr a c p ++ r.escape p ++ [r.endMk] ++ r.ckBytes (r.frameCk a c p)

/-! ## The receive parser (R204-R219) -/

/-- How an attempt or a parse can fail: the classes of 44_transaction.md R260, with the sub-code of MALFORMED. -/
inductive Failure where
  | timeout
  | ckMismatch
  | addrMismatch
  | malformed (sub : MalSub)
  | nack
  | busyRsp
deriving DecidableEq, Repr

/-- The error code of a failure (60_exceptions.md R300). -/
def Failure.code : Failure → ErrCode
  | .timeout => .timeout
  | .ckMismatch => .ckMismatch
  | .addrMismatch => .addrMismatch
  | .malformed _ => .malformed
  | .nack => .nack
  | .busyRsp => .busyRsp

/-- The sub-code of a failure: 0 unless it is MALFORMED (60_exceptions.md R304). -/
def Failure.sub : Failure → MalSub
  | .malformed sub => sub
  | .timeout => .none
  | .ckMismatch => .none
  | .addrMismatch => .none
  | .nack => .none
  | .busyRsp => .none

/-- What `rx_step` returns (R207). A failure found by `validate` after it could split the header carries that header,
which the block records in RX_HDR (R215). -/
inductive RxResult where
  | cont
  | frame (addr : Half) (ctrl : Byte) (p : List Byte)
  | bad (header : Option (Half × Byte)) (f : Failure)
deriving DecidableEq, Repr

/-- The header RX_ADDR, RX_CTRL that a result records (R215), if it records one. -/
def RxResult.header : RxResult → Option (Half × Byte)
  | .cont => none
  | .frame addr ctrl _ => some (addr, ctrl)
  | .bad header _ => header

/-- The address value of received address bytes (R215): most significant byte first. -/
def Regs.addrOf (r : Regs) (ab : List Byte) : Half :=
  if r.addrLen then ab.getD 0 0 ++ ab.getD 1 0 else (ab.getD 0 0).setWidth 16

/-- The control value of received length-or-control bytes (R215): 0 when the field is absent. -/
def Regs.ctrlOf (r : Regs) (cb : List Byte) : Byte := if r.cflen = 1 then cb.getD 0 0 else 0

/-- The checks of a split frame, in order (R215-R219). -/
def Regs.checkFrame (r : Regs) (hdr p rc : List Byte) : RxResult :=
  let ab := hdr.take r.alen
  let cb := (hdr.drop r.alen).take r.cflen
  let addr := r.addrOf ab
  let ctrl := r.ctrlOf cb
  if rc ≠ r.ckBytes (r.ck (r.logical ab cb p)) then .bad (some (addr, ctrl)) .ckMismatch
  else if r.hdrMode = 2 ∧ ctrl.toNat ≠ p.length then .bad (some (addr, ctrl)) (.malformed .lenField)
  else if r.addrChk ∧ addr ≠ r.addrLow r.expAddr then .bad (some (addr, ctrl)) .addrMismatch
  else if r.expLen ≠ 0 ∧ p.length ≠ r.expLen then .bad (some (addr, ctrl)) (.malformed .expLen)
  else .frame addr ctrl p

/-- `validate()` (R215): split the header from the body, unless the body is too short to hold it, and check. -/
def Regs.validate (r : Regs) (x : Rx) : RxResult :=
  if r.escHdr then
    if x.body.length < r.hlen then .bad none (.malformed .shortHdr)
    else r.checkFrame (x.body.take r.hlen) (x.body.drop r.hlen) x.ck
  else r.checkFrame x.hdr x.body x.ck

/-- `append(b)` (R207, R214), into the body of a parser that stays in or returns to phase BODY. -/
def Regs.rxAppend (r : Regs) (x : Rx) (b : Byte) : Rx × RxResult :=
  let x := { x with ph := .body, body := x.body ++ [b] }
  (x, if x.body.length > r.cap then .bad none (.malformed .overflow) else .cont)

/-- `rx_step(b)` (R207-R214). -/
def Regs.rxStep (r : Regs) (x : Rx) (b : Byte) : Rx × RxResult :=
  match x.ph with
  | .hunt =>
    (if b = r.startMk then { ph := if r.escHdr then .body else .hdr, hdr := [], body := [], ck := [] } else x, .cont)
  | .hdr =>
    let hdr := x.hdr ++ [b]
    ({ x with hdr := hdr, ph := if hdr.length = r.hlen then .body else .hdr }, .cont)
  | .body =>
    if b = r.escMk then ({ x with ph := .escp }, .cont)
    else if b = r.endMk then ({ x with ph := .ck }, .cont)
    else if b = r.startMk then (x, .bad none (.malformed .noEnd))
    else r.rxAppend x b
  | .escp => r.rxAppend x b
  | .ck =>
    let x := { x with ck := x.ck ++ [b] }
    (x, if x.ck.length = r.ckw then r.validate x else .cont)

/-- The parse loop of PARSE (R223): feed bytes until a result other than CONT. It answers the parser, the number of
bytes read and the result, CONT when the input ended first. -/
def Regs.rxFeed (r : Regs) (x : Rx) : List Byte → Rx × Nat × RxResult
  | [] => (x, 0, .cont)
  | b :: s =>
    match r.rxStep x b with
    | (x', .cont) => let (y, n, res) := Regs.rxFeed r x' s; (y, n + 1, res)
    | (x', res) => (x', 1, res)

/-- `RX_ADDR <- addr; RX_CTRL <- ctrl` where a result records a header (R215). -/
def State.recordHeader (s : State) (res : RxResult) : State :=
  match res.header with
  | some (addr, ctrl) => { s with results.rxAddr := addr, results.rxCtrl := ctrl }
  | none => s

/-! ## Commands -/

/-- The pseudocode of BUILD (R222). -/
def State.runBuild (s : State) : Host.Outcome State Fault Refusal :=
  let p := s.srcBytes
  let f := s.regs.frame s.regs.txAddr s.regs.txCtrl p
  if f.length > s.regs.dstCap then .next (s.raise .bounds .none)
  else ({ s with results.ckRes := s.regs.frameCk s.regs.txAddr s.regs.txCtrl p }).finishWithOutput f

/-- The pseudocode of PARSE (R223); input that ends before a frame completes is TIMEOUT (R224). -/
def State.runParse (s : State) : Host.Outcome State Fault Refusal :=
  match s.regs.rxFeed Rx.reset s.srcBytes with
  | (x, n, res) =>
    let t := ({ s with rx := x, results.consumed := BitVec.ofNat 16 n }).recordHeader res
    match res with
    | .cont => .next (t.raise .timeout .none)
    | .frame _ _ p => t.finishWithOutput p
    | .bad _ f => .next (t.raise f.code f.sub)

/-- BUILD, OPC 0x5 (R222). -/
def execBuild (s : State) : Host.Outcome State Fault Refusal := s.command 0x5 State.runBuild

/-- PARSE, OPC 0x6 (R223). -/
def execParse (s : State) : Host.Outcome State Fault Refusal := s.command 0x6 State.runParse

end Sys2Proof.Machine
end

