-- ==== Sys2Proof/Machine/Transaction.lean ====
section
/-! DEFINITION. The transaction engine (spec/44_transaction.md): SEND, and the TxTake, Tick and RxByte events that
drive a transaction after its Exec step. -/

namespace Sys2Proof.Machine

/-! ## An attempt (R246-R249, R260-R264) -/

/-- `start_attempt()` (R246). -/
def State.startAttempt (s : State) : State :=
  let t := { s with status.st := .sending, tx.ph := .emit, tx.idx := 0 }
  if t.regs.lcEn then t.setPin true else t

/-- Which failures the retry policy makes retryable (R260). -/
def Regs.retryable (r : Regs) : Failure → Bool
  | .busyRsp => true
  | .timeout => r.rtyTmo
  | .malformed _ => r.rtyMal
  | .nack => false
  | .ckMismatch => false
  | .addrMismatch => false

/-- `exhausted(cls, sub)` (R264). -/
def State.exhausted (s : State) (f : Failure) : State :=
  { s with
    status.st := .failed
    status.errCode := .exhausted
    status.lastCause := f.code
    status.malSub := f.sub }

/-- The retry branch of `outcome` (R262): count the retry, wait the backoff, and restart at once when it is 0. -/
def State.retry (s : State) : State :=
  let t := { s with
    results.retryCnt := s.results.retryCnt + 1
    status.st := .retryWait
    wcnt := s.regs.backoff }
  if t.wcnt = 0 then t.startAttempt else t

/-- `outcome(cls, sub)` for a class other than OK (R262). -/
def State.attemptFailed (s : State) (f : Failure) : State :=
  if s.regs.retryable f then
    if s.results.retryCnt < s.regs.maxRetry then s.retry else s.exhausted f
  else s.raise f.code f.sub

/-- `success(p)` in frame mode (R263): the reply is written and the command completes. -/
def State.succeedFrame (s : State) (p : List Byte) : Host.Outcome State Fault Refusal := s.finishWithOutput p

/-- `success()` in status mode (R263): an ACK writes nothing and leaves `OUT_LEN` 0. -/
def State.succeedAck (s : State) : State := s.completeOk

/-- `enter_await()` (R249). -/
def State.enterAwait (s : State) : State :=
  let t := { s with status.st := .await, rx := Rx.reset, wcnt := s.regs.rxTmo }
  if t.wcnt = 0 then t.attemptFailed .timeout else t

/-- The end of the settle time (R247, R248): the pin is released and the reply awaited. -/
def State.endSettle (s : State) : State := (s.setPin false).enterAwait

/-- `end_emit()` (R247). -/
def State.endEmit (s : State) : State :=
  if s.regs.lcEn then
    let t := { s with tx.ph := .settle, wcnt := s.regs.settleT }
    if t.wcnt = 0 then t.endSettle else t
  else s.enterAwait

/-! ## SEND -/

/-- The pseudocode of SEND's Exec step (R245): the frame is built once (R242) and the first attempt starts. -/
def State.runSend (s : State) : Host.Outcome State Fault Refusal :=
  .next ({ s with
    tx.frame := s.regs.frame s.regs.txAddr s.regs.txCtrl s.srcBytes
    results.retryCnt := 0 }).startAttempt

/-- SEND, OPC 0x7 (R245). -/
def execSend (s : State) : Host.Outcome State Fault Refusal := s.command 0x7 State.runSend

/-! ## The events of a transaction -/

/-- The byte the block offers to the TxLine (R250): `TXF[TX_IDX]` exactly while `STATE = SENDING` and `XPH = EMIT`. -/
def State.offered (s : State) : Option Byte :=
  if s.status.st = .sending ∧ s.tx.ph = .emit then s.tx.frame[s.tx.idx]? else none

/-- TxTake (R250). When the block offers no byte the TxLine takes nothing. -/
def State.txTake (s : State) : State :=
  match s.offered with
  | none => s
  | some b =>
    let t := { s with wire := s.wire ++ [b], tx.idx := s.tx.idx + 1 }
    if t.tx.idx = t.tx.frame.length then t.endEmit else t

/-- Tick (R251): at most one counter changes, by the state. -/
def State.tick (s : State) : State :=
  let t := { s with wcnt := s.wcnt - 1 }
  match s.status.st with
  | .sending =>
    match s.tx.ph with
    | .emit => s
    | .settle => if t.wcnt = 0 then t.endSettle else t
  | .await => if t.wcnt = 0 then t.attemptFailed .timeout else t
  | .retryWait => if t.wcnt = 0 then t.startAttempt else t
  | .idle => s
  | .exec => s
  | .success => s
  | .failed => s

/-- A byte received when no response is awaited is dropped and counted (R255); the count saturates at 0xFFFF. -/
def State.dropByte (s : State) : State :=
  { s with results.dropCnt := if s.results.dropCnt = 0xFFFF then 0xFFFF else s.results.dropCnt + 1 }

/-- A byte received in AWAIT in status mode (R256): classified ACK, NACK, BUSY, else BAD_STATUS. -/
def State.rxStatus (s : State) (b : Byte) : State :=
  if s.regs.ackEn ∧ b = s.regs.ackCode then s.succeedAck
  else if s.regs.nackEn ∧ b = s.regs.nackCode then s.attemptFailed .nack
  else if s.regs.busyEn ∧ b = s.regs.busyCode then s.attemptFailed .busyRsp
  else s.attemptFailed (.malformed .badStatus)

/-- Whether a byte received in frame mode reloads the deadline (R259): every byte but leading noise, when
`TMO_MODE` = 1. -/
def State.reloads (s : State) (b : Byte) : Bool :=
  s.regs.tmoMode && !(s.rx.ph == .hunt && b != s.regs.startMk)

/-- A byte received in AWAIT in frame mode (R257): the parser takes it, the deadline is reloaded (R259), then the
parser's result ends the attempt or not. -/
def State.rxFrame (s : State) (b : Byte) : Host.Outcome State Fault Refusal :=
  match s.regs.rxStep s.rx b with
  | (x, res) =>
    let t := ({ s with
      rx := x
      wcnt := if s.reloads b then s.regs.rxTmo else s.wcnt }).recordHeader res
    match res with
    | .cont => .next t
    | .frame _ _ p => t.succeedFrame p
    | .bad _ f => .next (t.attemptFailed f)

/-- RxByte(b) (R255). -/
def State.rxByte (s : State) (b : Byte) : Host.Outcome State Fault Refusal :=
  if s.status.st = .await then
    if s.regs.rspMode then s.rxFrame b else .next (s.rxStatus b)
  else .next s.dropByte

end Sys2Proof.Machine
end

