-- ==== Sys2Proof/Machine/Dispatch.lean ====
section
/-! DEFINITION. The meaning of every command, one arm per constructor. -/

namespace Sys2Proof.Machine

/-- The meaning of a command in the event that the current step is (State.agent): its write to CMD, or its Exec step
(40_command_control.md R130-R134). -/
def exec (i : Instr) (s : State) : Host.Outcome State Fault Refusal :=
  match i with
  | .nop => Sys2Proof.Machine.execNop s
  | .escape => Sys2Proof.Machine.execEscape s
  | .unescape => Sys2Proof.Machine.execUnescape s
  | .cksum => Sys2Proof.Machine.execCksum s
  | .ckverify => Sys2Proof.Machine.execCkverify s
  | .build => Sys2Proof.Machine.execBuild s
  | .parse => Sys2Proof.Machine.execParse s
  | .send => Sys2Proof.Machine.execSend s
  | .clear => Sys2Proof.Machine.execClear s
  | .illegal9 => Sys2Proof.Machine.execIllegal9 s
  | .illegalAB opc => Sys2Proof.Machine.execIllegalAB opc s
  | .illegalCF opc => Sys2Proof.Machine.execIllegalCF opc s

end Sys2Proof.Machine
end

