-- ==== Sys2Proof/Machine/Bus.lean ====
section
/-! DEFINITION. Host accesses (spec/20_memory.md R70-R76, spec/10_state.md R21, R58, R59, R62): the register map, the
DBUF window, and the bus error. A write to CMD is where a command is decoded. -/

namespace Sys2Proof.Machine

/-! ## The register map (10_state.md R21) -/

/-- The registers a host write stores into, RW and RWL but for CTRL. -/
inductive OpReg where
  | profile
  | marks
  | codes
  | ckSeed
  | crcCfg
  | crcIv
  | txHdr
  | rxExp
  | limits
  | tmo
  | settle
  | src
  | dst
  | ckRef
  | rsv (k : Fin 8)
deriving DecidableEq, Repr

/-- The register at a window offset (R21). -/
def OpReg.ofOffset (off : Nat) : Option OpReg :=
  match off with
  | 0x010 => some .profile
  | 0x014 => some .marks
  | 0x018 => some .codes
  | 0x01C => some .ckSeed
  | 0x020 => some .crcCfg
  | 0x024 => some .crcIv
  | 0x028 => some .txHdr
  | 0x02C => some .rxExp
  | 0x030 => some .limits
  | 0x034 => some .tmo
  | 0x038 => some .settle
  | 0x03C => some .src
  | 0x040 => some .dst
  | 0x044 => some .ckRef
  | 0x060 => some (.rsv 0)
  | 0x064 => some (.rsv 1)
  | 0x068 => some (.rsv 2)
  | 0x06C => some (.rsv 3)
  | 0x070 => some (.rsv 4)
  | 0x074 => some (.rsv 5)
  | 0x078 => some (.rsv 6)
  | 0x07C => some (.rsv 7)
  | _ => none

/-- Access code RWL: read-only while `CTRL.LOCK` = 1 (R21, R59). -/
def OpReg.lockable : OpReg → Bool
  | .profile => true
  | .marks => true
  | .codes => true
  | .ckSeed => true
  | .crcCfg => true
  | .crcIv => true
  | .rsv _ => true
  | .txHdr => false
  | .rxExp => false
  | .limits => false
  | .tmo => false
  | .settle => false
  | .src => false
  | .dst => false
  | .ckRef => false

/-- The bits of a register that are stored; the others read 0 and are ignored on write (R30-R53, R58). -/
def OpReg.mask : OpReg → Word
  | .profile => 0x001FFFFF
  | .marks => 0x00FFFFFF
  | .codes => 0x00FFFFFF
  | .ckSeed => 0x000000FF
  | .crcCfg => 0x0003FFFF
  | .crcIv => 0xFFFFFFFF
  | .rsv _ => 0xFFFFFFFF
  | .txHdr => 0x00FFFFFF
  | .rxExp => 0xFFFFFFFF
  | .limits => 0xFFFF00FF
  | .tmo => 0xFFFFFFFF
  | .settle => 0x0000FFFF
  | .src => 0xFFFFFFFF
  | .dst => 0xFFFFFFFF
  | .ckRef => 0x0000FFFF

/-- RSVk: bit j is `RSV[32k + j]` (R45). -/
def rsvWord (rsv : BitVec 256) (k : Nat) : Word := rsv.extractLsb' (32 * k) 32

/-- The bitmap after RSVk is set to `w` (R45). -/
def rsvPut (rsv : BitVec 256) (k : Nat) (w : Word) : BitVec 256 :=
  (rsv &&& ~~~((0xFFFFFFFF : BitVec 256) <<< (32 * k))) ||| (w.setWidth 256 <<< (32 * k))

/-- The word a register reads as. -/
def Regs.get (r : Regs) : OpReg → Word
  | .profile => r.profile
  | .marks => r.marks
  | .codes => r.codes
  | .ckSeed => r.ckSeed
  | .crcCfg => r.crcCfg
  | .crcIv => r.crcIv
  | .txHdr => r.txHdr
  | .rxExp => r.rxExp
  | .limits => r.limits
  | .tmo => r.tmo
  | .settle => r.settle
  | .src => r.src
  | .dst => r.dst
  | .ckRef => r.ckRef
  | .rsv k => rsvWord r.rsv k.val

/-- The registers after a stored write of `w`, whose bits that read 0 are dropped (R58). -/
def Regs.put (r : Regs) (reg : OpReg) (w : Word) : Regs :=
  let v := w &&& reg.mask
  match reg with
  | .profile => { r with profile := v }
  | .marks => { r with marks := v }
  | .codes => { r with codes := v }
  | .ckSeed => { r with ckSeed := v }
  | .crcCfg => { r with crcCfg := v }
  | .crcIv => { r with crcIv := v }
  | .txHdr => { r with txHdr := v }
  | .rxExp => { r with rxExp := v }
  | .limits => { r with limits := v }
  | .tmo => { r with tmo := v }
  | .settle => { r with settle := v }
  | .src => { r with src := v }
  | .dst => { r with dst := v }
  | .ckRef => { r with ckRef := v }
  | .rsv k => { r with rsv := rsvPut r.rsv k.val v }

/-- What a register holds at a window offset below 0x1000; CMD and unmapped offsets read 0 (R21, R23, R58). -/
def State.regWord (s : State) (off : Nat) : Word :=
  match off with
  | 0x000 => idWord
  | 0x008 => s.statusWord
  | 0x00C => s.regs.ctrlWord
  | 0x048 => s.results.resultWord
  | 0x04C => s.results.ckResWord
  | 0x050 => s.results.rxHdrWord
  | 0x054 => s.results.countsWord
  | _ =>
    match OpReg.ofOffset off with
    | some reg => s.regs.get reg
    | none => 0

/-- The bits of a register that read as draws while Busy (R62). -/
def drawMask (off : Nat) : Word :=
  match off with
  | 0x008 => statusDrawMask
  | 0x048 => 0xFFFFFFFF
  | 0x04C => 0x0000FFFF
  | 0x050 => 0x00FFFFFF
  | _ => 0

/-- What a host read of a register returns: the register, with a draw in the bits of R62 while Busy (log 6). -/
def State.regRead (s : State) (off : Nat) : Word :=
  if s.busy then (s.regWord off &&& ~~~(drawMask off)) ||| (Config.busyDraw s.draws &&& drawMask off)
  else s.regWord off

/-- A host write to CTRL (R29): accepted even while Busy; LOCK is set-only. -/
def State.ctrlWrite (s : State) (w : Word) : State :=
  { s with regs.irqEn := w.getLsbD 0, regs.lock := s.regs.lock || w.getLsbD 1 }

/-- A host write to an RW or RWL register other than CTRL (R59): ignored while Busy, or on an RWL register while
locked, with WR_IGN set. -/
def State.opRegWrite (s : State) (reg : OpReg) (w : Word) : State :=
  if s.busy || (reg.lockable && s.regs.lock) then s.ignoreWrite else { s with regs := s.regs.put reg w }

/-- A 32-bit aligned host write to the register space (R21, R23, R29, R58, R59). -/
def State.regWrite (s : State) (off : Nat) (w : Word) : Host.Outcome State Fault Refusal :=
  match off with
  | 0x004 => exec (decode w) s
  | 0x00C => .next (s.ctrlWrite w)
  | _ =>
    match OpReg.ofOffset off with
    | some reg => .next (s.opRegWrite reg w)
    | none => .next s

/-! ## The DBUF window (20_memory.md R72-R74) -/

/-- The number of bytes of an access. -/
def Width.bytes : Width → Nat
  | .w8 => 1
  | .w16 => 2
  | .w32 => 4

/-- The low `n` bytes of a word, bits [7:0] first (R73). -/
def wordBytes (w : Word) : Nat → List Byte
  | 0 => []
  | n + 1 => w.setWidth 8 :: wordBytes (w >>> 8) n

/-- The word with the given bytes from bits [7:0] up (R73). -/
def bytesWord : List Byte → Word
  | [] => 0
  | b :: s => b.setWidth 32 ||| (bytesWord s <<< 8)

/-- What byte lane `lane` of a host read of DBUF offset `a` returns: 0 at or above `DBUF_SIZE` (R74), a draw in the DST
region while Busy (10_state.md R62), else the byte. -/
def State.dbufRead (s : State) (a lane : Nat) : Byte :=
  if s.params.dbufSize ≤ a then 0
  else if s.busy && s.regs.inDst a then (Config.busyDraw s.draws >>> (8 * lane)).setWidth 8
  else s.dbufByte a

/-- A naturally aligned host read of DBUF (R73). -/
def State.dbufReadWord (s : State) (a : Nat) (width : Width) : Word :=
  bytesWord ((List.range width.bytes).map fun lane => s.dbufRead (a + lane) lane)

/-- A naturally aligned host write to DBUF (R73): ignored above `DBUF_SIZE` (R74), ignored with WR_IGN while Busy
(R59). -/
def State.dbufWrite (s : State) (a : Nat) (width : Width) (w : Word) : State :=
  if s.params.dbufSize ≤ a then s
  else if s.busy then s.ignoreWrite
  else { s with dbuf := s.dbuf.putAll a (wordBytes w width.bytes) }

/-! ## Accesses -/

/-- The window offset of a host address, if the address is in the window (R70). -/
def State.windowOffset (s : State) (addr : Nat) : Option Nat :=
  if s.params.base ≤ addr ∧ addr < s.params.base + 0x2000 then some (addr - s.params.base) else none

/-- Whether the block answers an access with the bus error (R71, R72): a register access that is not 32 bits wide and
aligned, a DBUF access that is not naturally aligned. -/
def misplaced (off : Nat) (width : Width) : Bool :=
  if off < 0x1000 then width != .w32 || off % 4 != 0 else off % width.bytes != 0

/-- A host read: it changes nothing but the answer and, while Busy, the count of draws (R58, R62, R75). -/
def State.hostRead (s : State) (addr : Nat) (width : Width) : State :=
  match s.windowOffset addr with
  | none => { s with bus := .none }
  | some off =>
    if misplaced off width then { s with bus := .busError }
    else
      let d := if off < 0x1000 then s.regRead off else s.dbufReadWord (off - 0x1000) width
      { s with bus := .readData d, draws := if s.busy then s.draws + 1 else s.draws }

/-- A host write (R71-R74, R58, R59, R130). -/
def State.hostWrite (s : State) (addr : Nat) (width : Width) (w : Word) : Host.Outcome State Fault Refusal :=
  match s.windowOffset addr with
  | none => .next { s with bus := .none }
  | some off =>
    if misplaced off width then .next { s with bus := .busError }
    else
      let t := { s with bus := .written }
      if off < 0x1000 then t.regWrite off w else .next (t.dbufWrite (off - 0x1000) width w)

end Sys2Proof.Machine
end

