-- ==== Sys2Proof/Machine/Events.lean ====
section
/-! DEFINITION. The events of spec/00_scope.md R6: what each does, and which comes next. -/

namespace Sys2Proof.Machine

/-- Whose event it is (R6). -/
def Event.agent : Event → Agent
  | .hostRead _ _ => .host
  | .hostWrite _ _ _ => .host
  | .txTake => .txLine
  | .rxByte _ => .rxLine
  | .tick => .timebase
  | .exec => .exec
  | .reset => .reset

/-- Exec (40_command_control.md R134): enabled exactly when `STATE = EXEC`; the pending command's Exec step. -/
def State.execEvent (s : State) : Host.Outcome State Fault Refusal :=
  if s.status.st = .exec then exec (decodeOpc s.pendOpc) s else .next s

/-- Reset (70_reset_and_hazards.md R330): every piece of the block's state takes its reset value, DBUF new draws. What
is not the block's stays: its parameters, the events to come, the bytes already on the wire, the count of draws. -/
def State.resetEvent (s : State) : State :=
  { State.reset with
    params := s.params
    events := s.events
    wire := s.wire
    draws := s.draws
    epoch := s.epoch + 1 }

/-- One event (R6), applied to the state whose `agent` is already the event's. -/
def State.applyEvent (s : State) (e : Event) : Host.Outcome State Fault Refusal :=
  match e with
  | .hostRead addr width => .next (s.hostRead addr width)
  | .hostWrite addr width data => s.hostWrite addr width data
  | .txTake => .next s.txTake
  | .rxByte b => s.rxByte b
  | .tick => .next s.tick
  | .exec => s.execEvent
  | .reset => .next s.resetEvent

/-- The state in which an event is applied: its agent recorded, the events after it still to come. -/
def State.begin (s : State) (e : Event) (rest : List Event) : State :=
  { s with agent := e.agent, events := rest }

/-- The next event and the state it is applied in: the first scheduled one. With nothing scheduled, a block in EXEC
takes its own Exec step (weak fairness, 40_command_control.md R134) and any other block waits (log 1). -/
def State.nextEvent (s : State) : Option (Event × State) :=
  match s.events with
  | e :: rest => some (e, s.begin e rest)
  | [] => if s.status.st = .exec then some (.exec, s.begin .exec []) else none

/-- The event of a host's 32-bit write to CMD (30_encoding.md R100). -/
def State.cmdEvent (s : State) (w : Word) : Event := .hostWrite (s.params.base + 4) .w32 w

end Sys2Proof.Machine
end

