-- ==== Sys2Proof/Machine/Step.lean ====
section
/-! DEFINITION. One step of the block: one event (spec/00_scope.md R6). -/

namespace Sys2Proof.Machine

/-- One step: the next event, or, when no agent has one, a block that waits unchanged. -/
def step (s : State) : Host.Outcome State Fault Refusal :=
  match s.nextEvent with
  | none => .next s
  | some (e, t) => t.applyEvent e

/-- The state whose next event is the host's write of the command word `w`, `nbits` wide, to CMD: a command is taken
from the CMD write itself (20_memory.md R88; log 2). -/
def State.withFetchWord (s : State) (nbits w : Nat) : State :=
  { s with events := s.cmdEvent (BitVec.ofNat 32 (w % 2 ^ nbits)) :: s.events }

end Sys2Proof.Machine
end

