-- ==== Sys2Proof/Safety.lean ====
section
/-! DEFINITION. What the block can be in: the invariant of the model, in the terms of spec/. Each field is a promise the
spec makes of every state; `State.Inv` holds at reset and every step keeps it (both are statements for the provers). -/

namespace Sys2Proof.Machine

/-- A transaction is running: its Exec step has been taken and it has not completed (44_transaction.md R240). -/
def SeqState.inTransaction : SeqState → Bool
  | .idle => false
  | .exec => false
  | .sending => true
  | .await => true
  | .retryWait => true
  | .success => false
  | .failed => false

/-- The classes that LAST_CAUSE can hold beside 0 (10_state.md R26, 44_transaction.md R264). -/
def ErrCode.retryCause (e : ErrCode) : Bool := e == .timeout || e == .malformed || e == .busyRsp

/-- The invariant of the block. -/
structure State.Inv (s : State) : Prop where
  /-- The parameters are values 00_scope.md R8 admits. -/
  params : s.params.legal
  /-- DBUF is in canonical form and lists no offset outside itself (20_memory.md R77, 00_scope.md R12). -/
  dbufWf : s.dbuf.wf = true
  dbufInside : ∀ c ∈ s.dbuf, c.1 < s.params.dbufSize
  /-- The bits that read 0 hold 0 (10_state.md R30-R53, R58). -/
  reserved : ∀ reg : OpReg, s.regs.get reg &&& ~~~reg.mask = 0
  /-- EXEC holds a functional or illegal opcode (40_command_control.md R132). -/
  pending : s.status.st = .exec → s.pendOpc ≠ 0x0 ∧ s.pendOpc ≠ 0x8
  /-- LAST_OPC names the running command (10_state.md R28). -/
  lastOpc : s.busy = true → s.status.lastOpc = s.pendOpc
  /-- Only SEND runs a transaction (44_transaction.md R240). -/
  sending : s.status.st.inTransaction = true → s.pendOpc = 0x7
  /-- A running transaction has passed the checks of R136-R138, and its operands cannot change (10_state.md R59). -/
  checked : s.status.st.inTransaction = true → s.execCheck 0x7 = none
  /-- TXF is the frame of the operands, the same for every attempt (44_transaction.md R242). -/
  frame : s.status.st.inTransaction = true →
    s.tx.frame = s.regs.frame s.regs.txAddr s.regs.txCtrl s.srcBytes
  /-- While the block transmits, a byte is left to offer (44_transaction.md R250). -/
  offers : s.status.st = .sending → s.tx.ph = .emit → s.tx.idx < s.tx.frame.length
  /-- The settle phase exists only with line control (44_transaction.md R247). -/
  settles : s.status.st = .sending → s.tx.ph = .settle → s.regs.lcEn = true ∧ s.wcnt ≠ 0
  /-- A waiting state waits for at least one tick (00_scope.md R7, 60_exceptions.md R318). -/
  awaits : s.status.st = .await → s.wcnt ≠ 0 ∧ s.regs.rxTmo ≠ 0
  backsOff : s.status.st = .retryWait → s.wcnt ≠ 0
  /-- A transaction makes at most MAX_RETRY retries (44_transaction.md R265). -/
  retries : s.status.st.inTransaction = true → s.results.retryCnt ≤ s.regs.maxRetry
  /-- A pin is asserted exactly while the block transmits or settles under line control (44_transaction.md R266). -/
  rts : s.status.rts = (s.status.st == .sending && s.regs.lcEn && !s.regs.lcSel)
  dtr : s.status.dtr = (s.status.st == .sending && s.regs.lcEn && s.regs.lcSel)
  /-- ERR_CODE is nonzero exactly in FAILED and is never BUSY_RSP (60_exceptions.md R300, R307). -/
  errFailed : s.status.errCode ≠ .none ↔ s.status.st = .failed
  errNotBusy : s.status.errCode ≠ .busyRsp
  /-- LAST_CAUSE is nonzero exactly when ERR_CODE is EXHAUSTED, and then names a retryable class (10_state.md R26). -/
  cause : if s.status.errCode = .exhausted then s.status.lastCause.retryCause = true else s.status.lastCause = .none
  /-- MAL_SUB is nonzero exactly for MALFORMED, terminal or as the last cause (10_state.md R26). -/
  sub : s.status.malSub ≠ .none ↔
    s.status.errCode = .malformed ∨ (s.status.errCode = .exhausted ∧ s.status.lastCause = .malformed)
  /-- VOK is 1 only after a CKVERIFY that succeeded (10_state.md R25). -/
  vok : s.status.vok = true → s.status.st = .success ∧ s.status.lastOpc = 0x4
  /-- The receive parser awaiting a frame: the header is raw and positional, the body within the capacity, the
  checksum field unfinished (43_frame_codec.md R207, R211, R213, R214). -/
  rxBody : s.status.st = .await → s.rx.body.length ≤ s.regs.cap
  rxHunt : s.status.st = .await → s.rx.ph = .hunt → s.rx = Rx.reset
  rxHdr : s.status.st = .await → s.rx.ph = .hdr → s.regs.escHdr = false ∧ s.rx.hdr.length < s.regs.hlen
  rxInFrame : s.status.st = .await → s.rx.ph ≠ .hunt → s.rx.ph ≠ .hdr →
    s.rx.hdr.length = (if s.regs.escHdr then 0 else s.regs.hlen)
  rxCk : s.status.st = .await → s.rx.ck.length < s.regs.ckw ∧ (s.rx.ph ≠ .ck → s.rx.ck = [])

end Sys2Proof.Machine

/-! ## The words the statements use

Each says one phrase of the spec over the state, so that a statement reads as the rule does. -/

namespace Sys2Proof.Claims

open Sys2Proof Sys2Proof.Machine

/-- No reserved value in the profile (40_command_control.md R136). -/
abbrev LegalConfig (r : Regs) : Prop := r.ckAlg ≠ 3 ∧ r.hdrMode ≠ 3

/-- The input region lies in DBUF (40_command_control.md R137). -/
abbrev SrcInside (s : State) : Prop := s.regs.srcPtr + s.regs.srcLen ≤ s.params.dbufSize

/-- The output region lies in DBUF (40_command_control.md R137). -/
abbrev DstInside (s : State) : Prop := s.regs.dstPtr + s.regs.dstCap ≤ s.params.dbufSize

/-- The payload fits one frame (40_command_control.md R138). -/
abbrev PayloadFits (r : Regs) : Prop := r.srcLen ≤ r.maxPl ∧ (r.hdrMode = 2 → r.srcLen ≤ 255)

/-- The event the next step applies is not Reset. -/
abbrev NoReset (s : State) : Prop := s.events.head? ≠ some .reset

/-- Every byte of DBUF reads as `out` says inside the `out.length` bytes from offset `a` on, and as before elsewhere. -/
def Stored (s t : State) (a : Nat) (out : List Byte) : Prop :=
  ∀ k, t.dbufByte k = if a ≤ k ∧ k < a + out.length then out.getD (k - a) 0 else s.dbufByte k

/-- A command or transaction has ended in FAILED with this error (40_command_control.md R140), and nothing else has
changed. -/
def failed (s : State) (e : ErrCode) (sub : MalSub) : State :=
  { s with
    status := { s.status with st := .failed, errCode := e, malSub := sub, rts := false, dtr := false } }

/-- The block goes on after an event of agent `a` with the events `rest` still to come. -/
def after (s : State) (a : Agent) (rest : List Event) : State := { s with agent := a, events := rest }

/-- The header bytes, before any escaping, of the frame that carries address `a`, control byte `c` and payload `p`
(30_encoding.md R111). -/
def hdrBytes (r : Regs) (a : Half) (c : Byte) (p : List Byte) : List Byte := r.addrBytes a ++ r.ctrlBytes c p

/-- The control value of a received frame (43_frame_codec.md R221): the control byte for CTRL, the payload length for
LEN, 0 for NONE. -/
def ctrlValue (r : Regs) (c : Byte) (p : List Byte) : Byte :=
  if r.hdrMode = 0 then 0 else if r.hdrMode = 1 then c else BitVec.ofNat 8 p.length

/-- A wire sequence that escapes exactly the bytes of E: every pair holds a byte of E, and no byte of E stands outside
a pair (41_escape_codec.md R163, R164). -/
def regular (r : Regs) : List Byte → Bool
  | [] => true
  | [b] => !r.reserved b
  | b :: c :: s =>
    if b = r.escMk then r.reserved c && regular r s else !r.reserved b && regular r (c :: s)

/-- The number of escape pairs of a wire sequence (41_escape_codec.md R164). -/
def pairs (r : Regs) : List Byte → Nat
  | [] => 0
  | [_] => 0
  | b :: c :: s => if b = r.escMk then pairs r s + 1 else pairs r (c :: s)

/-- `d` with bit `k` of byte `i` flipped (42_checksum.md R188). -/
def flipBit (d : List Byte) (i k : Nat) : List Byte := d.set i (d.getD i 0 ^^^ ((1 : Byte) <<< k))

/-- The match and mask words of a command's row of spec/opcode_table.json. -/
def tableRow : Instr → Word × Word
  | .nop => (0x0, 0xF)
  | .escape => (0x1, 0xF)
  | .unescape => (0x2, 0xF)
  | .cksum => (0x3, 0xF)
  | .ckverify => (0x4, 0xF)
  | .build => (0x5, 0xF)
  | .parse => (0x6, 0xF)
  | .send => (0x7, 0xF)
  | .clear => (0x8, 0xF)
  | .illegal9 => (0x9, 0xF)
  | .illegalAB _ => (0xA, 0xE)
  | .illegalCF _ => (0xC, 0xC)

/-- The commands 0x1-0x7, which check the profile (40_command_control.md R136). -/
def functional : List Instr := [.escape, .unescape, .cksum, .ckverify, .build, .parse, .send]

/-- The commands whose DST region is checked (40_command_control.md R137). -/
def writesDst : List Instr := [.escape, .unescape, .build, .parse, .send]

/-- RTS at the start of an attempt (44_transaction.md R246): asserted when line control selects it. -/
def rtsAtStart (s : State) : Bool := if s.regs.lcEn && !s.regs.lcSel then true else s.status.rts

/-- DTR at the start of an attempt (44_transaction.md R246): asserted when line control selects it. -/
def dtrAtStart (s : State) : Bool := if s.regs.lcEn && s.regs.lcSel then true else s.status.dtr

/-- An attempt has just started (44_transaction.md R246). -/
def started (s : State) : State :=
  { s with
    status := { s.status with st := .sending, rts := rtsAtStart s, dtr := dtrAtStart s }
    tx := { s.tx with ph := .emit, idx := 0 } }

/-- The block has just begun to await the response (44_transaction.md R249). -/
def awaiting (s : State) : State :=
  { s with status := { s.status with st := .await }, rx := Rx.reset, wcnt := s.regs.rxTmo }

/-- The pin that line control selects is released (44_transaction.md R247, R266). -/
def released (s : State) : State :=
  { s with
    status := { s.status with
      rts := if s.regs.lcSel then s.status.rts else false
      dtr := if s.regs.lcSel then false else s.status.dtr } }

/-- `n` copies of a frame, one after the other. -/
def copies (f : List Byte) (n : Nat) : List Byte := (List.replicate n f).flatten

/-- The wire law of a transaction (44_transaction.md R268): since the wire carried `w`, the TxLine has taken one whole
copy of `TXF` per attempt, and of the attempt that is still transmitting the first `TX_IDX` bytes. -/
def WireLaw (w : List Byte) (s : State) : Prop :=
  match s.status.st with
  | .idle => True
  | .exec => True
  | .sending =>
    match s.tx.ph with
    | .emit => s.wire = w ++ copies s.tx.frame s.results.retryCnt.toNat ++ s.tx.frame.take s.tx.idx
    | .settle => s.wire = w ++ copies s.tx.frame (s.results.retryCnt.toNat + 1)
  | .await => s.wire = w ++ copies s.tx.frame (s.results.retryCnt.toNat + 1)
  | .retryWait => s.wire = w ++ copies s.tx.frame s.results.retryCnt.toNat
  | .success => s.wire = w ++ copies s.tx.frame (s.results.retryCnt.toNat + 1)
  | .failed => s.wire = w ++ copies s.tx.frame (s.results.retryCnt.toNat + 1)

/-- The frame that SEND sends from a state (44_transaction.md R245). -/
def sendFrame (s : State) : List Byte := s.regs.frame s.regs.txAddr s.regs.txCtrl s.srcBytes

/-- The ticks of one settle time: `SETTLE_T` with line control, else none (44_transaction.md R247). -/
def settleTicks (s : State) : Nat := if s.regs.lcEn then s.regs.settleT.toNat else 0

/-- The events of one attempt up to its response: every byte of the frame is taken, the settle time passes. -/
def attemptEvents (s : State) : List Event :=
  List.replicate (sendFrame s).length .txTake ++ List.replicate (settleTicks s) .tick

/-- The events of a whole SEND whose every attempt ends after `attempt` with the events `ending`, a backoff before each
retry (44_transaction.md R262). -/
def schedule (s : State) (ending : List Event) : List Event :=
  (List.replicate s.regs.maxRetry.toNat
    (attemptEvents s ++ ending ++ List.replicate s.regs.backoff.toNat .tick)).flatten ++
  (attemptEvents s ++ ending)

/-- SEND is accepted and its Exec step will pass every check (40_command_control.md R134-R138). -/
abbrev SendReady (s : State) : Prop :=
  s.status.st = .exec ∧ s.pendOpc = 0x7 ∧ LegalConfig s.regs ∧ SrcInside s ∧ DstInside s ∧ PayloadFits s.regs

end Sys2Proof.Claims
end

