-- ==== Sys2Proof/Certificates/Slice0/Obligations.lean ====
section
/-! DEFINITION. The statements for the provers: what the spec's numbered rules say of the model. A statement about a
command is about one of its two events: its write to CMD (`s.agent ≠ .exec`) or its Exec step (`s.agent = .exec`);
a statement about another event is about one step of a state whose next event it is. -/

open Sys2Proof Sys2Proof.Machine Sys2Proof.Claims

/-! ## The command word -/

/-- 30_encoding.md R100, R101: decoding undoes encoding on every well-formed command; every word decodes to a
well-formed command whose encoding is the word's low four bits. -/
def Obligations.CommandDecodingAndEncodingAgree : Prop :=
  (∀ i : Instr, i.wellFormed = true → decode (encode i) = i) ∧
  (∀ w : Word, (decode w).wellFormed = true ∧ encode (decode w) = w &&& 0xF)

/-- 30_encoding.md R101, R102: every word matches the row of spec/opcode_table.json of the command it decodes to, no
other row, and the command's opcode is the word's low four bits. -/
def Obligations.EveryWordMatchesExactlyItsTableRow : Prop :=
  ∀ w : Word,
    w &&& (tableRow (decode w)).2 = (tableRow (decode w)).1 ∧
    (decode w).opcode = w.extractLsb' 0 4 ∧
    ∀ i : Instr, i.wellFormed = true → w &&& (tableRow i).2 = (tableRow i).1 → tableRow i = tableRow (decode w)

/-- 30_encoding.md R101: words written out from the table, ignored bits set in the last two. -/
def Obligations.WrittenOutWordsDecode : Prop :=
  decode 0x00000000 = .nop ∧ decode 0x00000001 = .escape ∧ decode 0x00000003 = .cksum ∧
  decode 0x00000005 = .build ∧ decode 0x00000007 = .send ∧ decode 0x00000008 = .clear ∧
  decode 0x0000000C = .illegalCF 0xC ∧ decode 0xFFFFFFF3 = .cksum ∧ decode 0x1234567B = .illegalAB 0xB

/-! ## One step -/

/-- 40_command_control.md R130, R134: a host write to CMD runs the command the word decodes to, in the host's step; an
Exec event in EXEC runs the pending command, and in any other state is not enabled and changes nothing (log 4). With no event
scheduled, a block in EXEC takes its Exec step and any other block waits (the model's choice, log 1). -/
def Obligations.StepRunsTheDecodedInstruction : Prop :=
  (∀ (s : State) (w : Word) (rest : List Event), s.events = .hostWrite (s.params.base + 4) .w32 w :: rest →
    step s = exec (decode w) { after s .host rest with bus := .written }) ∧
  (∀ (s : State) (rest : List Event), s.events = .exec :: rest → s.status.st = .exec →
    step s = exec (decodeOpc s.pendOpc) (after s .exec rest)) ∧
  (∀ (s : State) (rest : List Event), s.events = .exec :: rest → s.status.st ≠ .exec →
    step s = .next (after s .exec rest)) ∧
  (∀ s : State, s.events = [] → s.status.st = .exec →
    step s = exec (decodeOpc s.pendOpc) (after s .exec [])) ∧
  (∀ s : State, s.events = [] → s.status.st ≠ .exec → step s = .next s)

/-! ## Acceptance, control commands, the common checks -/

/-- 40_command_control.md R131. -/
def Obligations.BusyBlockRejectsEveryCommandButNop : Prop :=
  ∀ (i : Instr) (s : State), i.wellFormed = true → s.agent ≠ .exec → s.busy = true →
    exec i s = .next (if i.opcode = 0x0 then s else { s with status := { s.status with cmdRej := true } })

/-- 40_command_control.md R132: NOP and CLEAR act at once, every other command is accepted. -/
def Obligations.AcceptanceClearsResultsAndEntersExec : Prop :=
  ∀ (i : Instr) (s : State), i.wellFormed = true → s.agent ≠ .exec → s.busy = false →
    (i.opcode = 0x0 → exec i s = .next s) ∧
    (i.opcode = 0x8 → exec i s = .next { s with
      status := { s.status with
        st := .idle, lastOpc := 0x8, errCode := .none, lastCause := .none, malSub := .none, vok := false
        cmdRej := false, wrIgn := false }
      results := { outLen := 0, consumed := 0, ckRes := 0, rxAddr := 0, rxCtrl := 0, retryCnt := 0, dropCnt := 0 } }) ∧
    (i.opcode ≠ 0x0 → i.opcode ≠ 0x8 → exec i s = .next { s with
      status := { s.status with
        st := .exec, lastOpc := i.opcode, errCode := .none, lastCause := .none, malSub := .none, vok := false }
      results := { s.results with
        outLen := 0, consumed := 0, ckRes := 0, rxAddr := 0, rxCtrl := 0, retryCnt := 0 }
      pendOpc := i.opcode })

/-- 40_command_control.md R141. -/
def Obligations.NopChangesNothing : Prop :=
  ∀ s : State, exec .nop s = .next s

/-- 40_command_control.md R142: CLEAR completes in the host step that writes it, or is rejected while Busy. -/
def Obligations.ClearReturnsToIdle : Prop :=
  ∀ s : State,
    (s.busy = false → exec .clear s = .next { s with
      status := { s.status with
        st := .idle, lastOpc := 0x8, errCode := .none, lastCause := .none, malSub := .none, vok := false
        cmdRej := false, wrIgn := false }
      results := { outLen := 0, consumed := 0, ckRes := 0, rxAddr := 0, rxCtrl := 0, retryCnt := 0, dropCnt := 0 } }) ∧
    (s.busy = true → exec .clear s = .next { s with status := { s.status with cmdRej := true } })

/-- 40_command_control.md R135, R143: the Exec step of an illegal opcode fails with ILLEGAL_CMD, whatever the
profile. -/
def Obligations.IllegalOpcodesFailInTheirExecStep : Prop :=
  ∀ s : State, s.agent = .exec →
    exec .illegal9 s = .next (failed s .illegalCmd .none) ∧
    (∀ opc : Opc, (Instr.illegalAB opc).wellFormed = true →
      exec (.illegalAB opc) s = .next (failed s .illegalCmd .none)) ∧
    (∀ opc : Opc, (Instr.illegalCF opc).wellFormed = true →
      exec (.illegalCF opc) s = .next (failed s .illegalCmd .none))

/-- 40_command_control.md R136. -/
def Obligations.ReservedProfileFailsEveryFunctionalCommand : Prop :=
  ∀ (i : Instr) (s : State), i ∈ functional → s.agent = .exec → (s.regs.ckAlg = 3 ∨ s.regs.hdrMode = 3) →
    exec i s = .next (failed s .config .none)

/-- 40_command_control.md R137: the input region is checked for every functional command, then the output region for
the five that write one; an empty region passes at any pointer up to DBUF_SIZE (shown of CKSUM, whose only region is
its input). -/
def Obligations.RegionsOutsideDbufFailWithBounds : Prop :=
  ∀ s : State, s.agent = .exec → LegalConfig s.regs →
    (∀ i ∈ functional, s.regs.srcPtr + s.regs.srcLen > s.params.dbufSize →
      exec i s = .next (failed s .bounds .none)) ∧
    (∀ i ∈ writesDst, s.regs.srcPtr + s.regs.srcLen ≤ s.params.dbufSize →
      s.regs.dstPtr + s.regs.dstCap > s.params.dbufSize → exec i s = .next (failed s .bounds .none)) ∧
    (s.regs.srcLen = 0 → s.regs.srcPtr ≤ s.params.dbufSize →
      ∃ t, exec .cksum s = .next t ∧ t.status.st = .success)

/-- 40_command_control.md R138. -/
def Obligations.OversizedPayloadFailsWithTooLarge : Prop :=
  ∀ (i : Instr) (s : State), i = .build ∨ i = .send → s.agent = .exec → LegalConfig s.regs → SrcInside s →
    DstInside s → (s.regs.srcLen > s.regs.maxPl ∨ (s.regs.hdrMode = 2 ∧ s.regs.srcLen > 255)) →
    exec i s = .next (failed s .tooLarge .none)

/-! ## The escape codec -/

/-- 41_escape_codec.md R163: unescaping undoes escaping, for every byte sequence and every profile; escaping undoes
unescaping exactly on the sequences that escape the bytes of E and no others. -/
def Obligations.UnescapeInvertsEscape : Prop :=
  (∀ (r : Regs) (p : List Byte), r.unescape (r.escape p) = some p) ∧
  (∀ (r : Regs) (t p : List Byte), r.unescape t = some p → (r.escape p = t ↔ regular r t = true))

/-- 41_escape_codec.md R164: the length of an escaped sequence, no byte of E outside an escape pair, and the length of
an unescaped sequence. -/
def Obligations.EscapeOutputLaws : Prop :=
  ∀ r : Regs,
    (∀ p : List Byte, (r.escape p).length = p.length + p.countP r.reserved) ∧
    (∀ p : List Byte, regular r (r.escape p) = true) ∧
    (∀ t p : List Byte, r.unescape t = some p → p.length = t.length - pairs r t ∧ pairs r t ≤ t.length)

/-- 41_escape_codec.md R165: ESCAPE stores the escaped input at DST, or fails with BOUNDS when it does not fit. -/
def Obligations.EscapeCompletes : Prop :=
  ∀ s : State, s.agent = .exec → LegalConfig s.regs → SrcInside s → DstInside s →
    ((s.regs.escape s.srcBytes).length ≤ s.regs.dstCap →
      ∃ t, exec .escape s = .next t ∧
        t = { s with
          dbuf := t.dbuf
          status := { s.status with st := .success }
          results := { s.results with outLen := t.results.outLen } } ∧
        t.results.outLen.toNat = (s.regs.escape s.srcBytes).length ∧
        Stored s t s.regs.dstPtr (s.regs.escape s.srcBytes)) ∧
    ((s.regs.escape s.srcBytes).length > s.regs.dstCap → exec .escape s = .next (failed s .bounds .none))

/-- 41_escape_codec.md R166: UNESCAPE stores the unescaped input at DST; a truncated escape fails with
MALFORMED(TRUNC_ESC), before an output that does not fit fails with BOUNDS. -/
def Obligations.UnescapeCompletes : Prop :=
  ∀ s : State, s.agent = .exec → LegalConfig s.regs → SrcInside s → DstInside s →
    (s.regs.unescape s.srcBytes = none → exec .unescape s = .next (failed s .malformed .truncEsc)) ∧
    (∀ out, s.regs.unescape s.srcBytes = some out → out.length > s.regs.dstCap →
      exec .unescape s = .next (failed s .bounds .none)) ∧
    (∀ out, s.regs.unescape s.srcBytes = some out → out.length ≤ s.regs.dstCap →
      ∃ t, exec .unescape s = .next t ∧
        t = { s with
          dbuf := t.dbuf
          status := { s.status with st := .success }
          results := { s.results with outLen := t.results.outLen } } ∧
        t.results.outLen.toNat = out.length ∧
        Stored s t s.regs.dstPtr out)

/-! ## The checksum engine -/

/-- 42_checksum.md R188(a): flipping one bit of the data flips the same bit of the XOR checksum. -/
def Obligations.XorDetectsEverySingleBitError : Prop :=
  ∀ (seed : Byte) (d : List Byte) (i k : Nat), i < d.length → k < 8 →
    xor8 seed (flipBit d i k) = xor8 seed d ^^^ ((1 : Byte) <<< k)

/-- 42_checksum.md R188(b): flipping one of bits 0-6 of a byte changes the ADD checksum, flipping bit 7 does not. -/
def Obligations.AddMissesExactlyBitSeven : Prop :=
  ∀ (seed : Byte) (d : List Byte) (i : Nat), i < d.length →
    (∀ k < 7, add8 seed (flipBit d i k) ≠ add8 seed d) ∧ add8 seed (flipBit d i 7) = add8 seed d

/-- 42_checksum.md R188(c), second half: with CRC_POLY = 0 the CRC depends on the number of bytes alone. -/
def Obligations.CrcWithoutPolynomialIgnoresTheData : Prop :=
  ∀ (r : Regs) (d e : List Byte), r.crcPoly = 0 → d.length = e.length → r.crc16 d = r.crc16 e

/-- 42_checksum.md R188(c), first half: with CRC_POLY ≠ 0 flipping any one bit of the data changes the CRC. -/
def Obligations.CrcDetectsEverySingleBitError : Prop :=
  ∀ (r : Regs) (d : List Byte) (i k : Nat), r.crcPoly ≠ 0 → i < d.length → k < 8 →
    r.crc16 (flipBit d i k) ≠ r.crc16 d

/-- 42_checksum.md R184: with the reset parameters the CRC of "123456789" is 0xBB3D and that of no data is 0. -/
def Obligations.CrcCheckValue : Prop :=
  Regs.reset.crc16 [0x31, 0x32, 0x33, 0x34, 0x35, 0x36, 0x37, 0x38, 0x39] = 0xBB3D ∧ Regs.reset.crc16 [] = 0x0000

/-- 42_checksum.md R189: a frame's checksum is the same for two register files that differ in ESC_HDR and in RSV alone,
and with every INC bit 0 it is the payload's. -/
def Obligations.ChecksumDependsOnLogicalBytesAlone : Prop :=
  (∀ (r q : Regs) (a : Half) (c : Byte) (p : List Byte),
    q = { r with profile := q.profile, rsv := q.rsv } → q.profile &&& ~~~(0x00000400 : Word) = r.profile &&& ~~~(0x00000400 : Word) →
    q.frameCk a c p = r.frameCk a c p) ∧
  (∀ (r : Regs) (a : Half) (c : Byte) (p : List Byte),
    r.incStart = false → r.incAddr = false → r.incCtrl = false → r.incEnd = false → r.frameCk a c p = r.ck p)

/-- 42_checksum.md R191: CKSUM, whatever DST is. -/
def Obligations.CksumCompletes : Prop :=
  ∀ s : State, s.agent = .exec → LegalConfig s.regs → SrcInside s →
    exec .cksum s = .next { s with
      status := { s.status with st := .success }
      results := { s.results with
        ckRes := s.regs.ck s.srcBytes
        outLen := if s.regs.ckAlg = 2 then 2 else 1 } }

/-- 42_checksum.md R192: CKVERIFY, whatever DST is; a one-byte checksum is compared with CK_REF[7:0], and a mismatch is
a success with VOK = 0. -/
def Obligations.CkverifyCompletes : Prop :=
  ∀ s : State, s.agent = .exec → LegalConfig s.regs → SrcInside s →
    exec .ckverify s = .next { s with
      status := { s.status with
        st := .success
        vok := if s.regs.ckAlg = 2 then s.regs.ck s.srcBytes == s.regs.ckRefVal
          else (s.regs.ck s.srcBytes).extractLsb' 0 8 == s.regs.ckRefVal.extractLsb' 0 8 }
      results := { s.results with ckRes := s.regs.ck s.srcBytes } }

/-! ## The frame codec -/

/-- 30_encoding.md R115: the length of a frame, at least 4 bytes, and 4 for one address byte, no control byte, no
payload and a one-byte checksum, the header sent raw. -/
def Obligations.FrameLengthLaw : Prop :=
  ∀ (r : Regs) (a : Half) (c : Byte) (p : List Byte),
    (r.frame a c p).length =
      1 + (if r.escHdr then r.hlen + (hdrBytes r a c p).countP r.reserved else r.hlen) + p.length +
        p.countP r.reserved + 1 + r.ckw ∧
    4 ≤ (r.frame a c p).length ∧
    (r.addrLen = false → r.hdrMode = 0 → r.escHdr = false → (r.ckAlg = 0 ∨ r.ckAlg = 1) →
      (r.frame a c []).length = 4)

/-- 43_frame_codec.md R221: whatever noise without a start marker comes first, the receiver gets back the address,
control value and payload that were built, at the last byte of the frame. (LEN carries at most 255 bytes, R201.) -/
def Obligations.ParsingInvertsBuilding : Prop :=
  ∀ (r : Regs) (a : Half) (c : Byte) (p z : List Byte),
    r.endMk ≠ r.escMk → r.hdrMode ≠ 3 → (r.hdrMode = 2 → p.length ≤ 255) → r.startMk ∉ z →
    p.length ≤ r.dstCap → (r.addrChk = false ∨ r.addrLow r.expAddr = r.addrLow a) →
    (r.expLen = 0 ∨ r.expLen = p.length) →
    ∃ x, r.rxFeed Rx.reset (z ++ r.frame a c p) =
      (x, z.length + (r.frame a c p).length, .frame (r.addrLow a) (ctrlValue r c p) p)

/-- 43_frame_codec.md R222: BUILD stores the frame at DST and its checksum in CK_RES, or fails with BOUNDS when the
frame does not fit. -/
def Obligations.BuildCompletes : Prop :=
  ∀ s : State, s.agent = .exec → LegalConfig s.regs → SrcInside s → DstInside s → PayloadFits s.regs →
    ((sendFrame s).length ≤ s.regs.dstCap →
      ∃ t, exec .build s = .next t ∧
        t = { s with
          dbuf := t.dbuf
          status := { s.status with st := .success }
          results := { s.results with
            outLen := t.results.outLen
            ckRes := s.regs.ck (s.regs.logical (s.regs.addrBytes s.regs.txAddr)
              (s.regs.ctrlBytes s.regs.txCtrl s.srcBytes) s.srcBytes) } } ∧
        t.results.outLen.toNat = (sendFrame s).length ∧
        Stored s t s.regs.dstPtr (sendFrame s)) ∧
    ((sendFrame s).length > s.regs.dstCap → exec .build s = .next (failed s .bounds .none))

/-- 43_frame_codec.md R223, R224: PARSE stores the payload of the first frame of its input at DST; a parser error is
its failure, and an input that ends first is TIMEOUT with every byte consumed. -/
def Obligations.ParseCompletes : Prop :=
  ∀ (s : State) (x : Rx) (n : Nat), s.agent = .exec → LegalConfig s.regs → SrcInside s → DstInside s →
    (∀ a c p, s.regs.rxFeed Rx.reset s.srcBytes = (x, n, .frame a c p) →
      ∃ t, exec .parse s = .next t ∧
        t = { s with
          dbuf := t.dbuf
          rx := x
          status := { s.status with st := .success }
          results := { s.results with
            outLen := t.results.outLen, consumed := BitVec.ofNat 16 n, rxAddr := a, rxCtrl := c } } ∧
        t.results.outLen.toNat = p.length ∧
        Stored s t s.regs.dstPtr p) ∧
    (∀ f, s.regs.rxFeed Rx.reset s.srcBytes = (x, n, .bad none f) →
      exec .parse s = .next (failed { s with
        rx := x
        results := { s.results with consumed := BitVec.ofNat 16 n } } f.code f.sub)) ∧
    (∀ a c f, s.regs.rxFeed Rx.reset s.srcBytes = (x, n, .bad (some (a, c)) f) →
      exec .parse s = .next (failed { s with
        rx := x
        results := { s.results with consumed := BitVec.ofNat 16 n, rxAddr := a, rxCtrl := c } } f.code f.sub)) ∧
    (s.regs.rxFeed Rx.reset s.srcBytes = (x, n, .cont) →
      exec .parse s = .next (failed { s with
        rx := x
        results := { s.results with consumed := BitVec.ofNat 16 s.regs.srcLen } } .timeout .none))

/-- 43_frame_codec.md R208, R209: bytes before the first start marker are skipped without error, and only counted. -/
def Obligations.LeadingNoiseIsSkipped : Prop :=
  ∀ (r : Regs) (z d : List Byte), r.startMk ∉ z →
    r.rxFeed Rx.reset (z ++ d) =
      ((r.rxFeed Rx.reset d).1, z.length + (r.rxFeed Rx.reset d).2.1, (r.rxFeed Rx.reset d).2.2)

/-- 70_reset_and_hazards.md R340(a): with END_MK = ESC_MK a PARSE that runs ends in TIMEOUT, MALFORMED(NO_END) or
MALFORMED(OVERFLOW), and the parser never reaches the checksum phase. -/
def Obligations.EqualEndAndEscapeMarkersNeverReceive : Prop :=
  ∀ s : State, s.agent = .exec → LegalConfig s.regs → SrcInside s → DstInside s → s.regs.endMk = s.regs.escMk →
    ∃ t, exec .parse s = .next t ∧ t.status.st = .failed ∧ t.rx.ph ≠ .ck ∧
      ((t.status.errCode = .timeout ∧ t.status.malSub = .none) ∨
        (t.status.errCode = .malformed ∧ (t.status.malSub = .noEnd ∨ t.status.malSub = .overflow)))

/-- 43_frame_codec.md R216, R220: the parser accepts a frame, and reports an address or length error, only when the
checksum field it received is the checksum of the logical bytes it received. -/
def Obligations.OnlyVerifiedFramesPassTheChecksum : Prop :=
  ∀ (r : Regs) (d : List Byte) (x : Rx) (n : Nat) (res : RxResult),
    r.rxFeed Rx.reset d = (x, n, res) →
    ((∃ a c p, res = .frame a c p) ∨ (∃ h, res = .bad h .addrMismatch) ∨
      (∃ h, res = .bad h (.malformed .lenField)) ∨ (∃ h, res = .bad h (.malformed .expLen))) →
    ∃ hdr p, hdr ++ p = (if r.escHdr then x.body else x.hdr ++ x.body) ∧ hdr.length = r.hlen ∧
      x.ck = r.ckBytes (r.ck (r.logical (hdr.take r.alen) (hdr.drop r.alen) p)) ∧
      (∀ a c q, res = .frame a c q → q = p)

/-! ## The transaction engine -/

/-- 44_transaction.md R245, R246: SEND builds its frame and starts the first attempt. -/
def Obligations.SendStartsItsFirstAttempt : Prop :=
  ∀ s : State, s.agent = .exec → LegalConfig s.regs → SrcInside s → DstInside s → PayloadFits s.regs →
    exec .send s = .next (started { s with
      tx := { s.tx with frame := sendFrame s }
      results := { s.results with retryCnt := 0 } })

/-- 44_transaction.md R250: TxTake takes the offered byte, in order; where no byte is offered it takes nothing
(that the event is consumed there is the model's choice, log 4). -/
def Obligations.TxTakeTakesTheOfferedByte : Prop :=
  ∀ (s : State) (rest : List Event), s.events = .txTake :: rest →
    (¬(s.status.st = .sending ∧ s.tx.ph = .emit) → step s = .next (after s .txLine rest)) ∧
    (∀ b, s.status.st = .sending → s.tx.ph = .emit → s.tx.frame[s.tx.idx]? = some b →
      s.tx.idx + 1 < s.tx.frame.length →
      step s = .next { after s .txLine rest with
        wire := s.wire ++ [b]
        tx := { s.tx with idx := s.tx.idx + 1 } })

/-- 44_transaction.md R247, R249, 70_reset_and_hazards.md R339: taking the last byte starts the settle time, or, where
there is none, the wait for the response, which a deadline of 0 ends at once as a timeout (retried or not as the retry
policy says; without RTY_TMO the transaction fails). -/
def Obligations.LastByteStartsSettleOrAwait : Prop :=
  ∀ (s : State) (rest : List Event) (b : Byte), s.events = .txTake :: rest → s.status.st = .sending →
    s.tx.ph = .emit → s.tx.frame[s.tx.idx]? = some b → s.tx.idx + 1 = s.tx.frame.length →
    let t := { after s .txLine rest with wire := s.wire ++ [b], tx := { s.tx with idx := s.tx.idx + 1 } }
    (s.regs.lcEn = false → s.regs.rxTmo ≠ 0 → step s = .next (awaiting t)) ∧
    (s.regs.lcEn = true → s.regs.settleT ≠ 0 →
      step s = .next { t with tx := { t.tx with ph := .settle }, wcnt := s.regs.settleT }) ∧
    (s.regs.lcEn = true → s.regs.settleT = 0 → s.regs.rxTmo ≠ 0 →
      step s = .next (awaiting (released { t with tx := { t.tx with ph := .settle } }))) ∧
    (s.regs.lcEn = false → s.regs.rxTmo = 0 → step s = .next ((awaiting t).attemptFailed .timeout)) ∧
    (s.regs.lcEn = true → s.regs.settleT = 0 → s.regs.rxTmo = 0 →
      step s = .next ((awaiting (released { t with tx := { t.tx with ph := .settle } })).attemptFailed .timeout)) ∧
    (s.regs.lcEn = false → s.regs.rxTmo = 0 → s.regs.rtyTmo = false →
      step s = .next (failed (awaiting t) .timeout .none))

/-- 44_transaction.md R248, R249, R251-R253, 40_command_control.md R147(g): what a Tick does in each state; a wait
counts down from at least 1. The end of a settle time with a deadline of 0 is a timeout at once
(70_reset_and_hazards.md R339). -/
def Obligations.TickCountsTheWaitDown : Prop :=
  ∀ (s : State) (rest : List Event), s.events = .tick :: rest →
    let t := { after s .timebase rest with wcnt := s.wcnt - 1 }
    (s.status.st.inTransaction = false ∨ (s.status.st = .sending ∧ s.tx.ph = .emit) →
      step s = .next (after s .timebase rest)) ∧
    ((s.status.st = .sending ∧ s.tx.ph = .settle) ∨ s.status.st = .await ∨ s.status.st = .retryWait →
      s.wcnt ≠ 0 → s.wcnt ≠ 1 → step s = .next t) ∧
    (s.status.st = .sending → s.tx.ph = .settle → s.wcnt = 1 → s.regs.rxTmo ≠ 0 →
      step s = .next (awaiting (released t))) ∧
    (s.status.st = .sending → s.tx.ph = .settle → s.wcnt = 1 → s.regs.rxTmo = 0 →
      step s = .next ((awaiting (released t)).attemptFailed .timeout)) ∧
    (s.status.st = .retryWait → s.wcnt = 1 → step s = .next (started t)) ∧
    (s.status.st = .await → s.wcnt = 1 → step s = .next (t.attemptFailed .timeout))

/-- 44_transaction.md R260-R262, R264: the retry policy. -/
def Obligations.RetryPolicy : Prop :=
  ∀ s : State,
    (s.attemptFailed .nack = failed s .nack .none ∧ s.attemptFailed .ckMismatch = failed s .ckMismatch .none ∧
      s.attemptFailed .addrMismatch = failed s .addrMismatch .none) ∧
    (s.regs.rtyTmo = false → s.attemptFailed .timeout = failed s .timeout .none) ∧
    (∀ sub, s.regs.rtyMal = false → s.attemptFailed (.malformed sub) = failed s .malformed sub) ∧
    (∀ f, f = .busyRsp ∨ (f = .timeout ∧ s.regs.rtyTmo = true) ∨
        ((∃ sub, f = .malformed sub) ∧ s.regs.rtyMal = true) →
      (s.results.retryCnt < s.regs.maxRetry →
        s.attemptFailed f =
          (let t := { s with
            results := { s.results with retryCnt := s.results.retryCnt + 1 }
            status := { s.status with st := .retryWait }
            wcnt := s.regs.backoff }
          if s.regs.backoff = 0 then started t else t)) ∧
      (s.regs.maxRetry ≤ s.results.retryCnt →
        s.attemptFailed f = { s with
          status := { s.status with
            st := .failed, errCode := .exhausted, lastCause := f.code, malSub := f.sub } }))

/-- 44_transaction.md R256: the first byte received in AWAIT in status mode ends the attempt, classified ACK, NACK,
BUSY, else BAD_STATUS; a NACK fails whatever MAX_RETRY is. -/
def Obligations.StatusByteEndsTheAttempt : Prop :=
  ∀ (s : State) (b : Byte) (rest : List Event), s.events = .rxByte b :: rest → s.status.st = .await →
    s.regs.rspMode = false →
    let ack := s.regs.ackEn = true ∧ b = s.regs.ackCode
    let nack := s.regs.nackEn = true ∧ b = s.regs.nackCode
    let busy := s.regs.busyEn = true ∧ b = s.regs.busyCode
    (ack → step s = .next { after s .rxLine rest with status := { s.status with st := .success } }) ∧
    (¬ack → nack → step s = .next (failed (after s .rxLine rest) .nack .none)) ∧
    (¬ack → ¬nack → busy → step s = .next ((after s .rxLine rest).attemptFailed .busyRsp)) ∧
    (¬ack → ¬nack → ¬busy → step s = .next ((after s .rxLine rest).attemptFailed (.malformed .badStatus)))

/-- 44_transaction.md R255: outside AWAIT a received byte is dropped and counted, saturating, and nothing else
changes. -/
def Obligations.ByteOutsideAwaitIsDroppedAndCounted : Prop :=
  ∀ (s : State) (b : Byte) (rest : List Event), s.events = .rxByte b :: rest → s.status.st ≠ .await →
    step s = .next { after s .rxLine rest with
      results := { s.results with dropCnt := BitVec.ofNat 16 (min (s.results.dropCnt.toNat + 1) 0xFFFF) } }

/-- 44_transaction.md R257, R259, R263: a byte received in AWAIT in frame mode goes to the parser. While the frame is
incomplete the attempt goes on, its deadline reloaded in inter-byte mode by every byte but leading noise; a good frame
completes the transaction with its payload at DST; a bad one ends the attempt. -/
def Obligations.ReplyByteGoesToTheParser : Prop :=
  ∀ (s : State) (b : Byte) (rest : List Event) (x : Rx), s.events = .rxByte b :: rest → s.status.st = .await →
    s.regs.rspMode = true →
    let noise := s.rx.ph = .hunt ∧ b ≠ s.regs.startMk
    let w := if s.regs.tmoMode = true ∧ ¬noise then s.regs.rxTmo else s.wcnt
    (s.regs.rxStep s.rx b = (x, .cont) → step s = .next { after s .rxLine rest with rx := x, wcnt := w }) ∧
    (∀ a c p, s.regs.rxStep s.rx b = (x, .frame a c p) → p.length ≤ s.regs.dstCap → DstInside s →
      ∃ t, step s = .next t ∧
        t = { after s .rxLine rest with
          rx := x
          wcnt := w
          dbuf := t.dbuf
          status := { s.status with st := .success }
          results := { s.results with outLen := t.results.outLen, rxAddr := a, rxCtrl := c } } ∧
        t.results.outLen.toNat = p.length ∧
        Stored s t s.regs.dstPtr p) ∧
    (∀ f, s.regs.rxStep s.rx b = (x, .bad none f) →
      step s = .next (({ after s .rxLine rest with rx := x, wcnt := w }).attemptFailed f)) ∧
    (∀ a c f, s.regs.rxStep s.rx b = (x, .bad (some (a, c)) f) →
      step s = .next (({ after s .rxLine rest with
        rx := x
        wcnt := w
        results := { s.results with rxAddr := a, rxCtrl := c } }).attemptFailed f))

/-- 44_transaction.md R265(b): a SEND whose every attempt is answered Busy makes MAX_RETRY + 1 attempts and ends
EXHAUSTED with the cause BUSY_RSP; the wire has carried one frame per attempt. -/
def Obligations.BusyResponderExhaustsTheRetries : Prop :=
  ∀ s : State, SendReady s → s.regs.rspMode = false → s.regs.rxTmo ≠ 0 → s.regs.busyEn = true →
    ¬(s.regs.ackEn = true ∧ s.regs.busyCode = s.regs.ackCode) →
    ¬(s.regs.nackEn = true ∧ s.regs.busyCode = s.regs.nackCode) →
    s.events = .exec :: schedule s [.rxByte s.regs.busyCode] →
    ∃ t : State, Sys2Proof.core.run s.events.length s = .next t ∧
      t.status.st = .failed ∧ t.status.errCode = .exhausted ∧ t.status.lastCause = .busyRsp ∧
      t.status.malSub = .none ∧ t.results.retryCnt = s.regs.maxRetry ∧
      t.wire = s.wire ++ copies (sendFrame s) (s.regs.maxRetry.toNat + 1) ∧ t.dbuf = s.dbuf

/-- 70_reset_and_hazards.md R346: a SEND whose attempts all time out takes exactly the TxTake and Tick events the rule
counts: it is Busy before the last of them and has ended EXHAUSTED with the cause TIMEOUT after it. -/
def Obligations.TimedOutSendTakesExactlyTheseEvents : Prop :=
  ∀ s : State, SendReady s → s.regs.rtyTmo = true → s.regs.tmoMode = false →
    s.events = .exec :: schedule s (List.replicate s.regs.rxTmo.toNat .tick) →
    (schedule s (List.replicate s.regs.rxTmo.toNat .tick)).countP (· == .txTake) =
      (s.regs.maxRetry.toNat + 1) * (sendFrame s).length ∧
    (schedule s (List.replicate s.regs.rxTmo.toNat .tick)).countP (· == .tick) =
      (s.regs.maxRetry.toNat + 1) * (settleTicks s + s.regs.rxTmo.toNat) +
        s.regs.maxRetry.toNat * s.regs.backoff.toNat ∧
    (∀ k < s.events.length, ∃ u : State, Sys2Proof.core.run k s = .next u ∧ u.busy = true) ∧
    ∃ t : State, Sys2Proof.core.run s.events.length s = .next t ∧
      t.status.st = .failed ∧ t.status.errCode = .exhausted ∧ t.status.lastCause = .timeout ∧
      t.results.retryCnt = s.regs.maxRetry

/-- 44_transaction.md R268, R242: the Exec step of SEND establishes the wire law and every later step of the
transaction but Reset keeps it and keeps TXF. -/
def Obligations.WireCarriesOneFramePerAttempt : Prop :=
  (∀ s t : State, s.agent = .exec → SendReady s → exec .send s = .next t → WireLaw s.wire t) ∧
  (∀ (w : List Byte) (s t : State), s.Inv → s.status.st.inTransaction = true → NoReset s → WireLaw w s →
    step s = .next t → WireLaw w t ∧ t.tx.frame = s.tx.frame)

/-! ## Host accesses -/

/-- 10_state.md R21, R58: a stored write is read back, without the bits that read 0, and no other register changes. -/
def Obligations.RegisterReadsBackWhatWasStored : Prop :=
  ∀ (s : State) (off : Nat) (reg : OpReg) (w : Word) (rest : List Event), OpReg.ofOffset off = some reg →
    s.busy = false → (reg.lockable && s.regs.lock) = false →
    s.events = .hostWrite (s.params.base + off) .w32 w :: .hostRead (s.params.base + off) .w32 :: rest →
    ∃ t : State, Sys2Proof.core.run 2 s = .next t ∧ t.bus = .readData (w &&& reg.mask) ∧
      (∀ other ≠ reg, t.regs.get other = s.regs.get other) ∧
      t = { after s .host rest with regs := t.regs, bus := t.bus } ∧
      t.regs.irqEn = s.regs.irqEn ∧ t.regs.lock = s.regs.lock

/-- 10_state.md R59, R29: a write to an operand or profile register while Busy, to a profile register while LOCK = 1, or
to DBUF while Busy is ignored and sets WR_IGN; a write to CTRL is always taken, and never clears LOCK. -/
def Obligations.IgnoredWritesSetWrIgn : Prop :=
  (∀ (s : State) (off : Nat) (reg : OpReg) (w : Word) (rest : List Event), OpReg.ofOffset off = some reg →
    s.busy = true ∨ (reg.lockable = true ∧ s.regs.lock = true) →
    s.events = .hostWrite (s.params.base + off) .w32 w :: rest →
    step s = .next { after s .host rest with
      bus := .written, status := { s.status with wrIgn := true } }) ∧
  (∀ (s : State) (a : Nat) (width : Width) (w : Word) (rest : List Event), s.params.legal → s.busy = true →
    a < s.params.dbufSize → a % width.bytes = 0 →
    s.events = .hostWrite (s.params.base + 0x1000 + a) width w :: rest →
    step s = .next { after s .host rest with
      bus := .written, status := { s.status with wrIgn := true } }) ∧
  (∀ (s : State) (w : Word) (rest : List Event), s.events = .hostWrite (s.params.base + 0x00C) .w32 w :: rest →
    step s = .next { after s .host rest with
      bus := .written
      regs := { s.regs with irqEn := w.getLsbD 0, lock := s.regs.lock || w.getLsbD 1 } })

/-- 10_state.md R29, 60_exceptions.md R319: once LOCK is set, every step but Reset keeps it and every profile register. -/
def Obligations.LockHoldsTheProfileUntilReset : Prop :=
  ∀ s t : State, s.regs.lock = true → NoReset s → step s = .next t →
    t.regs.lock = true ∧ ∀ reg : OpReg, reg.lockable = true → t.regs.get reg = s.regs.get reg

/-- 10_state.md R59: from acceptance to completion every operand stays as it is, in every step but Reset: the
registers, and DBUF as long as the block is Busy. -/
def Obligations.OperandsAreConstantWhileBusy : Prop :=
  ∀ s t : State, s.busy = true → NoReset s → step s = .next t →
    (∀ reg : OpReg, t.regs.get reg = s.regs.get reg) ∧ (t.busy = true → t.dbuf = s.dbuf)

/-- 40_command_control.md R145: a Busy state is left by the command's own completion or by Reset: no other step goes
back to IDLE, and no host access changes STATE. -/
def Obligations.OnlyCompletionOrResetLeavesBusy : Prop :=
  ∀ s t : State, s.busy = true → NoReset s → step s = .next t →
    (t.busy = true ∨ t.done = true) ∧
    (∀ e, s.events.head? = some e → e.agent = .host → t.status.st = s.status.st)

/-- 20_memory.md R79, 60_exceptions.md R316: a step of a Busy block writes DBUF only when it reaches SUCCESS, and then
only inside the DST region. -/
def Obligations.CommandsWriteOnlyTheDstRegionOnSuccess : Prop :=
  ∀ s t : State, s.Inv → s.busy = true → NoReset s → step s = .next t →
    (t.status.st ≠ .success → t.dbuf = s.dbuf) ∧ (∀ k, s.regs.inDst k = false → t.dbufByte k = s.dbufByte k)

/-- 20_memory.md R71, R72: a misplaced access, read or write, is answered with a bus error and changes no state. -/
def Obligations.MisplacedAccessIsABusError : Prop :=
  ∀ (s : State) (off : Nat) (width : Width) (w : Word) (e : Event) (rest : List Event),
    e = .hostRead (s.params.base + off) width ∨ e = .hostWrite (s.params.base + off) width w →
    (off < 0x1000 ∧ (width ≠ .w32 ∨ off % 4 ≠ 0)) ∨ (0x1000 ≤ off ∧ off < 0x2000 ∧ off % width.bytes ≠ 0) →
    s.events = e :: rest →
    step s = .next { after s .host rest with bus := .busError }

/-- 20_memory.md R73: a DBUF access moves its bytes little-endian. -/
def Obligations.DbufAccessIsLittleEndian : Prop :=
  ∀ (s : State) (a : Nat) (width : Width) (w : Word) (rest : List Event), s.params.legal → s.busy = false →
    a < s.params.dbufSize → a % width.bytes = 0 →
    (s.events = .hostWrite (s.params.base + 0x1000 + a) width w :: rest →
      ∃ t, step s = .next t ∧ t = { after s .host rest with bus := .written, dbuf := t.dbuf } ∧
        (∀ k < width.bytes, t.dbufByte (a + k) = w.extractLsb' (8 * k) 8) ∧
        (∀ j, j < a ∨ a + width.bytes ≤ j → t.dbufByte j = s.dbufByte j)) ∧
    (s.events = .hostRead (s.params.base + 0x1000 + a) width :: rest →
      ∃ d, step s = .next { after s .host rest with bus := .readData d } ∧
        (∀ k < width.bytes, d.extractLsb' (8 * k) 8 = s.dbufByte (a + k)) ∧
        (∀ k, width.bytes ≤ k → k < 4 → d.extractLsb' (8 * k) 8 = 0))

/-- 20_memory.md R74: at or above DBUF_SIZE the window reads 0 and ignores writes without WR_IGN. -/
def Obligations.DbufWindowBeyondDbufIsInert : Prop :=
  ∀ (s : State) (a : Nat) (width : Width) (w : Word) (rest : List Event), s.params.legal →
    s.params.dbufSize ≤ a → a < 0x1000 → a % width.bytes = 0 →
    (s.events = .hostWrite (s.params.base + 0x1000 + a) width w :: rest →
      step s = .next { after s .host rest with bus := .written }) ∧
    (s.events = .hostRead (s.params.base + 0x1000 + a) width :: rest →
      ∃ n, step s = .next { after s .host rest with bus := .readData 0, draws := n })

/-- 10_state.md R58, R62, 20_memory.md R73, R75: a host read changes nothing of the block. It is exact, of a register and
of DBUF, but for the result fields and the bytes of the DST region while Busy; those read as the draw that the model
gives this read, and the next read has another (the model's choice, log 6). -/
def Obligations.ReadsAreExactAndWithoutSideEffect : Prop :=
  (∀ (s : State) (addr : Nat) (width : Width) (rest : List Event), s.events = .hostRead addr width :: rest →
    ∃ t, step s = .next t ∧ t = { after s .host rest with bus := t.bus, draws := t.draws }) ∧
  (∀ (s : State) (off : Nat) (rest : List Event), off < 0x1000 → off % 4 = 0 →
    s.events = .hostRead (s.params.base + off) .w32 :: rest →
    ∃ d, step s = .next { after s .host rest with
        bus := .readData d, draws := if s.busy then s.draws + 1 else s.draws } ∧
      (s.busy = false → d = s.regWord off) ∧
      (let open_ : Word := if off = 0x008 then 0x0007FF20 else if off = 0x048 then 0xFFFFFFFF
        else if off = 0x04C then 0x0000FFFF else if off = 0x050 then 0x00FFFFFF else 0
       d &&& ~~~open_ = s.regWord off &&& ~~~open_ ∧
       (s.busy = true → d &&& open_ = Config.busyDraw s.draws &&& open_))) ∧
  (∀ (s : State) (a : Nat) (width : Width) (rest : List Event), s.params.legal → a < s.params.dbufSize →
    a % width.bytes = 0 → s.events = .hostRead (s.params.base + 0x1000 + a) width :: rest →
    ∃ d, step s = .next { after s .host rest with
        bus := .readData d, draws := if s.busy then s.draws + 1 else s.draws } ∧
      (∀ k < width.bytes, s.busy = false ∨ s.regs.inDst (a + k) = false →
        d.extractLsb' (8 * k) 8 = s.dbufByte (a + k)) ∧
      (∀ k < width.bytes, s.busy = true → s.regs.inDst (a + k) = true →
        d.extractLsb' (8 * k) 8 = (Config.busyDraw s.draws).extractLsb' (8 * k) 8) ∧
      (∀ k, width.bytes ≤ k → k < 4 → d.extractLsb' (8 * k) 8 = 0))

/-- 10_state.md R24-R28, 60_exceptions.md R313: the places of the STATUS bits, and the interrupt output. -/
def Obligations.StatusWordLayout : Prop :=
  ∀ s : State,
    s.statusWord.extractLsb' 0 3 = s.status.st.code ∧ s.statusWord.getLsbD 3 = s.status.st.busy ∧
    s.statusWord.getLsbD 4 = s.status.st.done ∧ s.statusWord.getLsbD 5 = s.status.vok ∧
    s.statusWord.getLsbD 6 = s.status.rts ∧ s.statusWord.getLsbD 7 = s.status.dtr ∧
    s.statusWord.extractLsb' 8 4 = s.status.errCode.code ∧ s.statusWord.extractLsb' 12 4 = s.status.lastCause.code ∧
    s.statusWord.extractLsb' 16 3 = s.status.malSub.code ∧ s.statusWord.getLsbD 19 = false ∧
    s.statusWord.getLsbD 20 = s.status.cmdRej ∧ s.statusWord.getLsbD 21 = s.status.wrIgn ∧
    s.statusWord.extractLsb' 22 2 = 0 ∧ s.statusWord.extractLsb' 24 4 = s.status.lastOpc ∧
    s.statusWord.getLsbD 28 = (s.regs.irqEn && (s.status.st == .success || s.status.st == .failed)) ∧
    s.statusWord.extractLsb' 29 3 = 0

/-- 10_state.md R22, R23, R29, R54-R57: the places of the fields in ID, CMD, CTRL, RESULT, CK_RES, RX_HDR and COUNTS,
and what the bits between them read as. -/
def Obligations.ResultWordsLayout : Prop :=
  ∀ s : State,
    ((s.regWord 0x000).extractLsb' 16 16 = 0x4846 ∧ (s.regWord 0x000).extractLsb' 0 16 = 0x0001) ∧
    s.regWord 0x004 = 0 ∧
    ((s.regWord 0x00C).getLsbD 0 = s.regs.irqEn ∧ (s.regWord 0x00C).getLsbD 1 = s.regs.lock ∧
      (s.regWord 0x00C).extractLsb' 2 30 = 0) ∧
    ((s.regWord 0x048).extractLsb' 0 16 = s.results.outLen ∧
      (s.regWord 0x048).extractLsb' 16 16 = s.results.consumed) ∧
    ((s.regWord 0x04C).extractLsb' 0 16 = s.results.ckRes ∧ (s.regWord 0x04C).extractLsb' 16 16 = 0) ∧
    ((s.regWord 0x050).extractLsb' 0 16 = s.results.rxAddr ∧ (s.regWord 0x050).extractLsb' 16 8 = s.results.rxCtrl ∧
      (s.regWord 0x050).extractLsb' 24 8 = 0) ∧
    ((s.regWord 0x054).extractLsb' 0 8 = s.results.retryCnt ∧ (s.regWord 0x054).extractLsb' 8 8 = 0 ∧
      (s.regWord 0x054).extractLsb' 16 16 = s.results.dropCnt)

/-- 10_state.md R58, 20_memory.md R70: a write to a read-only register or an unmapped offset has no effect and sets no
flag, a read of an unmapped offset returns 0, and an address outside the window is not answered. -/
def Obligations.InertAccessesChangeNothing : Prop :=
  (∀ (s : State) (off : Nat) (w : Word) (rest : List Event), off < 0x1000 → off % 4 = 0 → off ≠ 0x004 → off ≠ 0x00C →
    OpReg.ofOffset off = none → s.events = .hostWrite (s.params.base + off) .w32 w :: rest →
    step s = .next { after s .host rest with bus := .written }) ∧
  (∀ (s : State) (off : Nat) (rest : List Event), off % 4 = 0 → (off = 0x058 ∨ off = 0x05C ∨ (0x080 ≤ off ∧ off < 0x1000)) →
    s.events = .hostRead (s.params.base + off) .w32 :: rest → ∃ t, step s = .next t ∧ t.bus = .readData 0) ∧
  (∀ (s : State) (addr : Nat) (width : Width) (w : Word) (e : Event) (rest : List Event),
    addr < s.params.base ∨ s.params.base + 0x2000 ≤ addr →
    e = .hostRead addr width ∨ e = .hostWrite addr width w → s.events = e :: rest →
    step s = .next { after s .host rest with bus := .none })

/-! ## Reset and the invariant -/

/-- 70_reset_and_hazards.md R330: Reset, in any state, gives every piece of the block's state its reset value in one
step. What is not the block's state stays: its parameters, the events to come, the bytes already sent (the model's
fields, log 10). -/
def Obligations.ResetEventRestoresTheResetState : Prop :=
  ∀ (s : State) (rest : List Event), s.events = .reset :: rest →
    step s = .next { State.reset with
      params := s.params, events := rest, wire := s.wire, draws := s.draws, epoch := s.epoch + 1 }

/-- 70_reset_and_hazards.md R332: every field's reset value, through the words the registers read as and the internal
items. -/
def Obligations.ResetValues : Prop :=
  State.reset.regWord 0x000 = 0x48460001 ∧ State.reset.regWord 0x008 = 0x00000000 ∧
  State.reset.regWord 0x00C = 0x00000000 ∧ State.reset.regWord 0x010 = 0x000C2130 ∧
  State.reset.regWord 0x014 = 0x00100302 ∧ State.reset.regWord 0x018 = 0x00001506 ∧
  State.reset.regWord 0x01C = 0x00000000 ∧ State.reset.regWord 0x020 = 0x00038005 ∧
  State.reset.regWord 0x024 = 0x00000000 ∧ State.reset.regWord 0x028 = 0x00000000 ∧
  State.reset.regWord 0x02C = 0x00000000 ∧ State.reset.regWord 0x030 = 0x00FF0000 ∧
  State.reset.regWord 0x034 = 0x00000064 ∧ State.reset.regWord 0x038 = 0x00000000 ∧
  State.reset.regWord 0x03C = 0x00000000 ∧ State.reset.regWord 0x040 = 0x00000000 ∧
  State.reset.regWord 0x044 = 0x00000000 ∧ State.reset.regWord 0x048 = 0x00000000 ∧
  State.reset.regWord 0x04C = 0x00000000 ∧ State.reset.regWord 0x050 = 0x00000000 ∧
  State.reset.regWord 0x054 = 0x00000000 ∧ (∀ k < 8, State.reset.regWord (0x060 + 4 * k) = 0) ∧
  State.reset.tx = { ph := .emit, frame := [], idx := 0 } ∧ State.reset.wcnt = 0 ∧
  State.reset.rx = { ph := .hunt, hdr := [], body := [], ck := [] } ∧ State.reset.pendOpc = 0 ∧
  State.reset.offered = none ∧ State.reset.irq = false

/-- The invariant of the block holds right after reset, with the parameters the model chose (log 7). -/
def Obligations.ResetSatisfiesTheInvariant : Prop := State.reset.Inv

/-- Every step, whatever the event, keeps the invariant of the block. -/
def Obligations.EveryStepKeepsTheInvariant : Prop :=
  ∀ s t : State, s.Inv → step s = .next t → t.Inv

/-- 00_scope.md R12, 60_exceptions.md R323: from a state of the invariant no step faults or is refused: the block takes
every event. -/
def Obligations.NoStepStopsUnderTheInvariant : Prop :=
  ∀ s : State, s.Inv → ∃ t, step s = .next t
end

