-- ==== Sys2Proof/Laws/State.lean ====
section
/-! SUPPORT. One lemma per field and update of the state, so that no proof unfolds an update: what each named update
writes, and what it keeps. -/

namespace Sys2Proof.Machine

/-! ## Completion -/

@[simp] theorem State.completeOk_regs (s : State) : (s.completeOk).regs = s.regs := rfl
@[simp] theorem State.completeOk_status_st (s : State) : (s.completeOk).status.st = .success := rfl
@[simp] theorem State.completeOk_status_vok (s : State) : (s.completeOk).status.vok = s.status.vok := rfl
@[simp] theorem State.completeOk_status_rts (s : State) : (s.completeOk).status.rts = s.status.rts := rfl
@[simp] theorem State.completeOk_status_dtr (s : State) : (s.completeOk).status.dtr = s.status.dtr := rfl
@[simp] theorem State.completeOk_status_errCode (s : State) : (s.completeOk).status.errCode = s.status.errCode := rfl
@[simp] theorem State.completeOk_status_lastCause (s : State) : (s.completeOk).status.lastCause = s.status.lastCause := rfl
@[simp] theorem State.completeOk_status_malSub (s : State) : (s.completeOk).status.malSub = s.status.malSub := rfl
@[simp] theorem State.completeOk_status_cmdRej (s : State) : (s.completeOk).status.cmdRej = s.status.cmdRej := rfl
@[simp] theorem State.completeOk_status_wrIgn (s : State) : (s.completeOk).status.wrIgn = s.status.wrIgn := rfl
@[simp] theorem State.completeOk_status_lastOpc (s : State) : (s.completeOk).status.lastOpc = s.status.lastOpc := rfl
@[simp] theorem State.completeOk_results (s : State) : (s.completeOk).results = s.results := rfl
@[simp] theorem State.completeOk_dbuf (s : State) : (s.completeOk).dbuf = s.dbuf := rfl
@[simp] theorem State.completeOk_pendOpc (s : State) : (s.completeOk).pendOpc = s.pendOpc := rfl
@[simp] theorem State.completeOk_tx (s : State) : (s.completeOk).tx = s.tx := rfl
@[simp] theorem State.completeOk_wcnt (s : State) : (s.completeOk).wcnt = s.wcnt := rfl
@[simp] theorem State.completeOk_rx (s : State) : (s.completeOk).rx = s.rx := rfl
@[simp] theorem State.completeOk_params (s : State) : (s.completeOk).params = s.params := rfl
@[simp] theorem State.completeOk_agent (s : State) : (s.completeOk).agent = s.agent := rfl
@[simp] theorem State.completeOk_events (s : State) : (s.completeOk).events = s.events := rfl
@[simp] theorem State.completeOk_bus (s : State) : (s.completeOk).bus = s.bus := rfl
@[simp] theorem State.completeOk_wire (s : State) : (s.completeOk).wire = s.wire := rfl
@[simp] theorem State.completeOk_draws (s : State) : (s.completeOk).draws = s.draws := rfl
@[simp] theorem State.completeOk_epoch (s : State) : (s.completeOk).epoch = s.epoch := rfl
@[simp] theorem State.raise_regs (s : State) (e : ErrCode) (sub : MalSub) : (s.raise e sub).regs = s.regs := rfl
@[simp] theorem State.raise_status_st (s : State) (e : ErrCode) (sub : MalSub) : (s.raise e sub).status.st = .failed := rfl
@[simp] theorem State.raise_status_vok (s : State) (e : ErrCode) (sub : MalSub) : (s.raise e sub).status.vok = s.status.vok := rfl
@[simp] theorem State.raise_status_rts (s : State) (e : ErrCode) (sub : MalSub) : (s.raise e sub).status.rts = false := rfl
@[simp] theorem State.raise_status_dtr (s : State) (e : ErrCode) (sub : MalSub) : (s.raise e sub).status.dtr = false := rfl
@[simp] theorem State.raise_status_errCode (s : State) (e : ErrCode) (sub : MalSub) : (s.raise e sub).status.errCode = e := rfl
@[simp] theorem State.raise_status_lastCause (s : State) (e : ErrCode) (sub : MalSub) : (s.raise e sub).status.lastCause = s.status.lastCause := rfl
@[simp] theorem State.raise_status_malSub (s : State) (e : ErrCode) (sub : MalSub) : (s.raise e sub).status.malSub = sub := rfl
@[simp] theorem State.raise_status_cmdRej (s : State) (e : ErrCode) (sub : MalSub) : (s.raise e sub).status.cmdRej = s.status.cmdRej := rfl
@[simp] theorem State.raise_status_wrIgn (s : State) (e : ErrCode) (sub : MalSub) : (s.raise e sub).status.wrIgn = s.status.wrIgn := rfl
@[simp] theorem State.raise_status_lastOpc (s : State) (e : ErrCode) (sub : MalSub) : (s.raise e sub).status.lastOpc = s.status.lastOpc := rfl
@[simp] theorem State.raise_results (s : State) (e : ErrCode) (sub : MalSub) : (s.raise e sub).results = s.results := rfl
@[simp] theorem State.raise_dbuf (s : State) (e : ErrCode) (sub : MalSub) : (s.raise e sub).dbuf = s.dbuf := rfl
@[simp] theorem State.raise_pendOpc (s : State) (e : ErrCode) (sub : MalSub) : (s.raise e sub).pendOpc = s.pendOpc := rfl
@[simp] theorem State.raise_tx (s : State) (e : ErrCode) (sub : MalSub) : (s.raise e sub).tx = s.tx := rfl
@[simp] theorem State.raise_wcnt (s : State) (e : ErrCode) (sub : MalSub) : (s.raise e sub).wcnt = s.wcnt := rfl
@[simp] theorem State.raise_rx (s : State) (e : ErrCode) (sub : MalSub) : (s.raise e sub).rx = s.rx := rfl
@[simp] theorem State.raise_params (s : State) (e : ErrCode) (sub : MalSub) : (s.raise e sub).params = s.params := rfl
@[simp] theorem State.raise_agent (s : State) (e : ErrCode) (sub : MalSub) : (s.raise e sub).agent = s.agent := rfl
@[simp] theorem State.raise_events (s : State) (e : ErrCode) (sub : MalSub) : (s.raise e sub).events = s.events := rfl
@[simp] theorem State.raise_bus (s : State) (e : ErrCode) (sub : MalSub) : (s.raise e sub).bus = s.bus := rfl
@[simp] theorem State.raise_wire (s : State) (e : ErrCode) (sub : MalSub) : (s.raise e sub).wire = s.wire := rfl
@[simp] theorem State.raise_draws (s : State) (e : ErrCode) (sub : MalSub) : (s.raise e sub).draws = s.draws := rfl
@[simp] theorem State.raise_epoch (s : State) (e : ErrCode) (sub : MalSub) : (s.raise e sub).epoch = s.epoch := rfl
@[simp] theorem State.exhausted_regs (s : State) (f : Failure) : (s.exhausted f).regs = s.regs := rfl
@[simp] theorem State.exhausted_status_st (s : State) (f : Failure) : (s.exhausted f).status.st = .failed := rfl
@[simp] theorem State.exhausted_status_vok (s : State) (f : Failure) : (s.exhausted f).status.vok = s.status.vok := rfl
@[simp] theorem State.exhausted_status_rts (s : State) (f : Failure) : (s.exhausted f).status.rts = s.status.rts := rfl
@[simp] theorem State.exhausted_status_dtr (s : State) (f : Failure) : (s.exhausted f).status.dtr = s.status.dtr := rfl
@[simp] theorem State.exhausted_status_errCode (s : State) (f : Failure) : (s.exhausted f).status.errCode = .exhausted := rfl
@[simp] theorem State.exhausted_status_lastCause (s : State) (f : Failure) : (s.exhausted f).status.lastCause = f.code := rfl
@[simp] theorem State.exhausted_status_malSub (s : State) (f : Failure) : (s.exhausted f).status.malSub = f.sub := rfl
@[simp] theorem State.exhausted_status_cmdRej (s : State) (f : Failure) : (s.exhausted f).status.cmdRej = s.status.cmdRej := rfl
@[simp] theorem State.exhausted_status_wrIgn (s : State) (f : Failure) : (s.exhausted f).status.wrIgn = s.status.wrIgn := rfl
@[simp] theorem State.exhausted_status_lastOpc (s : State) (f : Failure) : (s.exhausted f).status.lastOpc = s.status.lastOpc := rfl
@[simp] theorem State.exhausted_results (s : State) (f : Failure) : (s.exhausted f).results = s.results := rfl
@[simp] theorem State.exhausted_dbuf (s : State) (f : Failure) : (s.exhausted f).dbuf = s.dbuf := rfl
@[simp] theorem State.exhausted_pendOpc (s : State) (f : Failure) : (s.exhausted f).pendOpc = s.pendOpc := rfl
@[simp] theorem State.exhausted_tx (s : State) (f : Failure) : (s.exhausted f).tx = s.tx := rfl
@[simp] theorem State.exhausted_wcnt (s : State) (f : Failure) : (s.exhausted f).wcnt = s.wcnt := rfl
@[simp] theorem State.exhausted_rx (s : State) (f : Failure) : (s.exhausted f).rx = s.rx := rfl
@[simp] theorem State.exhausted_params (s : State) (f : Failure) : (s.exhausted f).params = s.params := rfl
@[simp] theorem State.exhausted_agent (s : State) (f : Failure) : (s.exhausted f).agent = s.agent := rfl
@[simp] theorem State.exhausted_events (s : State) (f : Failure) : (s.exhausted f).events = s.events := rfl
@[simp] theorem State.exhausted_bus (s : State) (f : Failure) : (s.exhausted f).bus = s.bus := rfl
@[simp] theorem State.exhausted_wire (s : State) (f : Failure) : (s.exhausted f).wire = s.wire := rfl
@[simp] theorem State.exhausted_draws (s : State) (f : Failure) : (s.exhausted f).draws = s.draws := rfl
@[simp] theorem State.exhausted_epoch (s : State) (f : Failure) : (s.exhausted f).epoch = s.epoch := rfl

/-! ## Acceptance and CLEAR -/

@[simp] theorem State.clearResults_regs (s : State) : (s.clearResults).regs = s.regs := rfl
@[simp] theorem State.clearResults_status_st (s : State) : (s.clearResults).status.st = s.status.st := rfl
@[simp] theorem State.clearResults_status_vok (s : State) : (s.clearResults).status.vok = false := rfl
@[simp] theorem State.clearResults_status_rts (s : State) : (s.clearResults).status.rts = s.status.rts := rfl
@[simp] theorem State.clearResults_status_dtr (s : State) : (s.clearResults).status.dtr = s.status.dtr := rfl
@[simp] theorem State.clearResults_status_errCode (s : State) : (s.clearResults).status.errCode = .none := rfl
@[simp] theorem State.clearResults_status_lastCause (s : State) : (s.clearResults).status.lastCause = .none := rfl
@[simp] theorem State.clearResults_status_malSub (s : State) : (s.clearResults).status.malSub = .none := rfl
@[simp] theorem State.clearResults_status_cmdRej (s : State) : (s.clearResults).status.cmdRej = s.status.cmdRej := rfl
@[simp] theorem State.clearResults_status_wrIgn (s : State) : (s.clearResults).status.wrIgn = s.status.wrIgn := rfl
@[simp] theorem State.clearResults_status_lastOpc (s : State) : (s.clearResults).status.lastOpc = s.status.lastOpc := rfl
@[simp] theorem State.clearResults_results_outLen (s : State) : (s.clearResults).results.outLen = 0 := rfl
@[simp] theorem State.clearResults_results_consumed (s : State) : (s.clearResults).results.consumed = 0 := rfl
@[simp] theorem State.clearResults_results_ckRes (s : State) : (s.clearResults).results.ckRes = 0 := rfl
@[simp] theorem State.clearResults_results_rxAddr (s : State) : (s.clearResults).results.rxAddr = 0 := rfl
@[simp] theorem State.clearResults_results_rxCtrl (s : State) : (s.clearResults).results.rxCtrl = 0 := rfl
@[simp] theorem State.clearResults_results_retryCnt (s : State) : (s.clearResults).results.retryCnt = 0 := rfl
@[simp] theorem State.clearResults_results_dropCnt (s : State) : (s.clearResults).results.dropCnt = s.results.dropCnt := rfl
@[simp] theorem State.clearResults_dbuf (s : State) : (s.clearResults).dbuf = s.dbuf := rfl
@[simp] theorem State.clearResults_pendOpc (s : State) : (s.clearResults).pendOpc = s.pendOpc := rfl
@[simp] theorem State.clearResults_tx (s : State) : (s.clearResults).tx = s.tx := rfl
@[simp] theorem State.clearResults_wcnt (s : State) : (s.clearResults).wcnt = s.wcnt := rfl
@[simp] theorem State.clearResults_rx (s : State) : (s.clearResults).rx = s.rx := rfl
@[simp] theorem State.clearResults_params (s : State) : (s.clearResults).params = s.params := rfl
@[simp] theorem State.clearResults_agent (s : State) : (s.clearResults).agent = s.agent := rfl
@[simp] theorem State.clearResults_events (s : State) : (s.clearResults).events = s.events := rfl
@[simp] theorem State.clearResults_bus (s : State) : (s.clearResults).bus = s.bus := rfl
@[simp] theorem State.clearResults_wire (s : State) : (s.clearResults).wire = s.wire := rfl
@[simp] theorem State.clearResults_draws (s : State) : (s.clearResults).draws = s.draws := rfl
@[simp] theorem State.clearResults_epoch (s : State) : (s.clearResults).epoch = s.epoch := rfl
@[simp] theorem State.accept_regs (s : State) (opc : Opc) : (s.accept opc).regs = s.regs := rfl
@[simp] theorem State.accept_status_st (s : State) (opc : Opc) : (s.accept opc).status.st = .exec := rfl
@[simp] theorem State.accept_status_vok (s : State) (opc : Opc) : (s.accept opc).status.vok = false := rfl
@[simp] theorem State.accept_status_rts (s : State) (opc : Opc) : (s.accept opc).status.rts = s.status.rts := rfl
@[simp] theorem State.accept_status_dtr (s : State) (opc : Opc) : (s.accept opc).status.dtr = s.status.dtr := rfl
@[simp] theorem State.accept_status_errCode (s : State) (opc : Opc) : (s.accept opc).status.errCode = .none := rfl
@[simp] theorem State.accept_status_lastCause (s : State) (opc : Opc) : (s.accept opc).status.lastCause = .none := rfl
@[simp] theorem State.accept_status_malSub (s : State) (opc : Opc) : (s.accept opc).status.malSub = .none := rfl
@[simp] theorem State.accept_status_cmdRej (s : State) (opc : Opc) : (s.accept opc).status.cmdRej = s.status.cmdRej := rfl
@[simp] theorem State.accept_status_wrIgn (s : State) (opc : Opc) : (s.accept opc).status.wrIgn = s.status.wrIgn := rfl
@[simp] theorem State.accept_status_lastOpc (s : State) (opc : Opc) : (s.accept opc).status.lastOpc = opc := rfl
@[simp] theorem State.accept_results_outLen (s : State) (opc : Opc) : (s.accept opc).results.outLen = 0 := rfl
@[simp] theorem State.accept_results_consumed (s : State) (opc : Opc) : (s.accept opc).results.consumed = 0 := rfl
@[simp] theorem State.accept_results_ckRes (s : State) (opc : Opc) : (s.accept opc).results.ckRes = 0 := rfl
@[simp] theorem State.accept_results_rxAddr (s : State) (opc : Opc) : (s.accept opc).results.rxAddr = 0 := rfl
@[simp] theorem State.accept_results_rxCtrl (s : State) (opc : Opc) : (s.accept opc).results.rxCtrl = 0 := rfl
@[simp] theorem State.accept_results_retryCnt (s : State) (opc : Opc) : (s.accept opc).results.retryCnt = 0 := rfl
@[simp] theorem State.accept_results_dropCnt (s : State) (opc : Opc) : (s.accept opc).results.dropCnt = s.results.dropCnt := rfl
@[simp] theorem State.accept_dbuf (s : State) (opc : Opc) : (s.accept opc).dbuf = s.dbuf := rfl
@[simp] theorem State.accept_pendOpc (s : State) (opc : Opc) : (s.accept opc).pendOpc = opc := rfl
@[simp] theorem State.accept_tx (s : State) (opc : Opc) : (s.accept opc).tx = s.tx := rfl
@[simp] theorem State.accept_wcnt (s : State) (opc : Opc) : (s.accept opc).wcnt = s.wcnt := rfl
@[simp] theorem State.accept_rx (s : State) (opc : Opc) : (s.accept opc).rx = s.rx := rfl
@[simp] theorem State.accept_params (s : State) (opc : Opc) : (s.accept opc).params = s.params := rfl
@[simp] theorem State.accept_agent (s : State) (opc : Opc) : (s.accept opc).agent = s.agent := rfl
@[simp] theorem State.accept_events (s : State) (opc : Opc) : (s.accept opc).events = s.events := rfl
@[simp] theorem State.accept_bus (s : State) (opc : Opc) : (s.accept opc).bus = s.bus := rfl
@[simp] theorem State.accept_wire (s : State) (opc : Opc) : (s.accept opc).wire = s.wire := rfl
@[simp] theorem State.accept_draws (s : State) (opc : Opc) : (s.accept opc).draws = s.draws := rfl
@[simp] theorem State.accept_epoch (s : State) (opc : Opc) : (s.accept opc).epoch = s.epoch := rfl
@[simp] theorem State.clear_regs (s : State) : (s.clear).regs = s.regs := rfl
@[simp] theorem State.clear_status_st (s : State) : (s.clear).status.st = .idle := rfl
@[simp] theorem State.clear_status_vok (s : State) : (s.clear).status.vok = false := rfl
@[simp] theorem State.clear_status_rts (s : State) : (s.clear).status.rts = s.status.rts := rfl
@[simp] theorem State.clear_status_dtr (s : State) : (s.clear).status.dtr = s.status.dtr := rfl
@[simp] theorem State.clear_status_errCode (s : State) : (s.clear).status.errCode = .none := rfl
@[simp] theorem State.clear_status_lastCause (s : State) : (s.clear).status.lastCause = .none := rfl
@[simp] theorem State.clear_status_malSub (s : State) : (s.clear).status.malSub = .none := rfl
@[simp] theorem State.clear_status_cmdRej (s : State) : (s.clear).status.cmdRej = false := rfl
@[simp] theorem State.clear_status_wrIgn (s : State) : (s.clear).status.wrIgn = false := rfl
@[simp] theorem State.clear_status_lastOpc (s : State) : (s.clear).status.lastOpc = 0x8 := rfl
@[simp] theorem State.clear_results_outLen (s : State) : (s.clear).results.outLen = 0 := rfl
@[simp] theorem State.clear_results_consumed (s : State) : (s.clear).results.consumed = 0 := rfl
@[simp] theorem State.clear_results_ckRes (s : State) : (s.clear).results.ckRes = 0 := rfl
@[simp] theorem State.clear_results_rxAddr (s : State) : (s.clear).results.rxAddr = 0 := rfl
@[simp] theorem State.clear_results_rxCtrl (s : State) : (s.clear).results.rxCtrl = 0 := rfl
@[simp] theorem State.clear_results_retryCnt (s : State) : (s.clear).results.retryCnt = 0 := rfl
@[simp] theorem State.clear_results_dropCnt (s : State) : (s.clear).results.dropCnt = 0 := rfl
@[simp] theorem State.clear_dbuf (s : State) : (s.clear).dbuf = s.dbuf := rfl
@[simp] theorem State.clear_pendOpc (s : State) : (s.clear).pendOpc = s.pendOpc := rfl
@[simp] theorem State.clear_tx (s : State) : (s.clear).tx = s.tx := rfl
@[simp] theorem State.clear_wcnt (s : State) : (s.clear).wcnt = s.wcnt := rfl
@[simp] theorem State.clear_rx (s : State) : (s.clear).rx = s.rx := rfl
@[simp] theorem State.clear_params (s : State) : (s.clear).params = s.params := rfl
@[simp] theorem State.clear_agent (s : State) : (s.clear).agent = s.agent := rfl
@[simp] theorem State.clear_events (s : State) : (s.clear).events = s.events := rfl
@[simp] theorem State.clear_bus (s : State) : (s.clear).bus = s.bus := rfl
@[simp] theorem State.clear_wire (s : State) : (s.clear).wire = s.wire := rfl
@[simp] theorem State.clear_draws (s : State) : (s.clear).draws = s.draws := rfl
@[simp] theorem State.clear_epoch (s : State) : (s.clear).epoch = s.epoch := rfl

/-! ## Sticky flags, CTRL, dropped bytes -/

@[simp] theorem State.ignoreWrite_regs (s : State) : (s.ignoreWrite).regs = s.regs := rfl
@[simp] theorem State.ignoreWrite_status_st (s : State) : (s.ignoreWrite).status.st = s.status.st := rfl
@[simp] theorem State.ignoreWrite_status_vok (s : State) : (s.ignoreWrite).status.vok = s.status.vok := rfl
@[simp] theorem State.ignoreWrite_status_rts (s : State) : (s.ignoreWrite).status.rts = s.status.rts := rfl
@[simp] theorem State.ignoreWrite_status_dtr (s : State) : (s.ignoreWrite).status.dtr = s.status.dtr := rfl
@[simp] theorem State.ignoreWrite_status_errCode (s : State) : (s.ignoreWrite).status.errCode = s.status.errCode := rfl
@[simp] theorem State.ignoreWrite_status_lastCause (s : State) : (s.ignoreWrite).status.lastCause = s.status.lastCause := rfl
@[simp] theorem State.ignoreWrite_status_malSub (s : State) : (s.ignoreWrite).status.malSub = s.status.malSub := rfl
@[simp] theorem State.ignoreWrite_status_cmdRej (s : State) : (s.ignoreWrite).status.cmdRej = s.status.cmdRej := rfl
@[simp] theorem State.ignoreWrite_status_wrIgn (s : State) : (s.ignoreWrite).status.wrIgn = true := rfl
@[simp] theorem State.ignoreWrite_status_lastOpc (s : State) : (s.ignoreWrite).status.lastOpc = s.status.lastOpc := rfl
@[simp] theorem State.ignoreWrite_results (s : State) : (s.ignoreWrite).results = s.results := rfl
@[simp] theorem State.ignoreWrite_dbuf (s : State) : (s.ignoreWrite).dbuf = s.dbuf := rfl
@[simp] theorem State.ignoreWrite_pendOpc (s : State) : (s.ignoreWrite).pendOpc = s.pendOpc := rfl
@[simp] theorem State.ignoreWrite_tx (s : State) : (s.ignoreWrite).tx = s.tx := rfl
@[simp] theorem State.ignoreWrite_wcnt (s : State) : (s.ignoreWrite).wcnt = s.wcnt := rfl
@[simp] theorem State.ignoreWrite_rx (s : State) : (s.ignoreWrite).rx = s.rx := rfl
@[simp] theorem State.ignoreWrite_params (s : State) : (s.ignoreWrite).params = s.params := rfl
@[simp] theorem State.ignoreWrite_agent (s : State) : (s.ignoreWrite).agent = s.agent := rfl
@[simp] theorem State.ignoreWrite_events (s : State) : (s.ignoreWrite).events = s.events := rfl
@[simp] theorem State.ignoreWrite_bus (s : State) : (s.ignoreWrite).bus = s.bus := rfl
@[simp] theorem State.ignoreWrite_wire (s : State) : (s.ignoreWrite).wire = s.wire := rfl
@[simp] theorem State.ignoreWrite_draws (s : State) : (s.ignoreWrite).draws = s.draws := rfl
@[simp] theorem State.ignoreWrite_epoch (s : State) : (s.ignoreWrite).epoch = s.epoch := rfl
@[simp] theorem State.rejectCmd_regs (s : State) : (s.rejectCmd).regs = s.regs := rfl
@[simp] theorem State.rejectCmd_status_st (s : State) : (s.rejectCmd).status.st = s.status.st := rfl
@[simp] theorem State.rejectCmd_status_vok (s : State) : (s.rejectCmd).status.vok = s.status.vok := rfl
@[simp] theorem State.rejectCmd_status_rts (s : State) : (s.rejectCmd).status.rts = s.status.rts := rfl
@[simp] theorem State.rejectCmd_status_dtr (s : State) : (s.rejectCmd).status.dtr = s.status.dtr := rfl
@[simp] theorem State.rejectCmd_status_errCode (s : State) : (s.rejectCmd).status.errCode = s.status.errCode := rfl
@[simp] theorem State.rejectCmd_status_lastCause (s : State) : (s.rejectCmd).status.lastCause = s.status.lastCause := rfl
@[simp] theorem State.rejectCmd_status_malSub (s : State) : (s.rejectCmd).status.malSub = s.status.malSub := rfl
@[simp] theorem State.rejectCmd_status_cmdRej (s : State) : (s.rejectCmd).status.cmdRej = true := rfl
@[simp] theorem State.rejectCmd_status_wrIgn (s : State) : (s.rejectCmd).status.wrIgn = s.status.wrIgn := rfl
@[simp] theorem State.rejectCmd_status_lastOpc (s : State) : (s.rejectCmd).status.lastOpc = s.status.lastOpc := rfl
@[simp] theorem State.rejectCmd_results (s : State) : (s.rejectCmd).results = s.results := rfl
@[simp] theorem State.rejectCmd_dbuf (s : State) : (s.rejectCmd).dbuf = s.dbuf := rfl
@[simp] theorem State.rejectCmd_pendOpc (s : State) : (s.rejectCmd).pendOpc = s.pendOpc := rfl
@[simp] theorem State.rejectCmd_tx (s : State) : (s.rejectCmd).tx = s.tx := rfl
@[simp] theorem State.rejectCmd_wcnt (s : State) : (s.rejectCmd).wcnt = s.wcnt := rfl
@[simp] theorem State.rejectCmd_rx (s : State) : (s.rejectCmd).rx = s.rx := rfl
@[simp] theorem State.rejectCmd_params (s : State) : (s.rejectCmd).params = s.params := rfl
@[simp] theorem State.rejectCmd_agent (s : State) : (s.rejectCmd).agent = s.agent := rfl
@[simp] theorem State.rejectCmd_events (s : State) : (s.rejectCmd).events = s.events := rfl
@[simp] theorem State.rejectCmd_bus (s : State) : (s.rejectCmd).bus = s.bus := rfl
@[simp] theorem State.rejectCmd_wire (s : State) : (s.rejectCmd).wire = s.wire := rfl
@[simp] theorem State.rejectCmd_draws (s : State) : (s.rejectCmd).draws = s.draws := rfl
@[simp] theorem State.rejectCmd_epoch (s : State) : (s.rejectCmd).epoch = s.epoch := rfl
@[simp] theorem State.dropByte_regs (s : State) : (s.dropByte).regs = s.regs := rfl
@[simp] theorem State.dropByte_status (s : State) : (s.dropByte).status = s.status := rfl
@[simp] theorem State.dropByte_results_outLen (s : State) : (s.dropByte).results.outLen = s.results.outLen := rfl
@[simp] theorem State.dropByte_results_consumed (s : State) : (s.dropByte).results.consumed = s.results.consumed := rfl
@[simp] theorem State.dropByte_results_ckRes (s : State) : (s.dropByte).results.ckRes = s.results.ckRes := rfl
@[simp] theorem State.dropByte_results_rxAddr (s : State) : (s.dropByte).results.rxAddr = s.results.rxAddr := rfl
@[simp] theorem State.dropByte_results_rxCtrl (s : State) : (s.dropByte).results.rxCtrl = s.results.rxCtrl := rfl
@[simp] theorem State.dropByte_results_retryCnt (s : State) : (s.dropByte).results.retryCnt = s.results.retryCnt := rfl
@[simp] theorem State.dropByte_results_dropCnt (s : State) : (s.dropByte).results.dropCnt = if s.results.dropCnt = 0xFFFF then 0xFFFF else s.results.dropCnt + 1 := rfl
@[simp] theorem State.dropByte_dbuf (s : State) : (s.dropByte).dbuf = s.dbuf := rfl
@[simp] theorem State.dropByte_pendOpc (s : State) : (s.dropByte).pendOpc = s.pendOpc := rfl
@[simp] theorem State.dropByte_tx (s : State) : (s.dropByte).tx = s.tx := rfl
@[simp] theorem State.dropByte_wcnt (s : State) : (s.dropByte).wcnt = s.wcnt := rfl
@[simp] theorem State.dropByte_rx (s : State) : (s.dropByte).rx = s.rx := rfl
@[simp] theorem State.dropByte_params (s : State) : (s.dropByte).params = s.params := rfl
@[simp] theorem State.dropByte_agent (s : State) : (s.dropByte).agent = s.agent := rfl
@[simp] theorem State.dropByte_events (s : State) : (s.dropByte).events = s.events := rfl
@[simp] theorem State.dropByte_bus (s : State) : (s.dropByte).bus = s.bus := rfl
@[simp] theorem State.dropByte_wire (s : State) : (s.dropByte).wire = s.wire := rfl
@[simp] theorem State.dropByte_draws (s : State) : (s.dropByte).draws = s.draws := rfl
@[simp] theorem State.dropByte_epoch (s : State) : (s.dropByte).epoch = s.epoch := rfl

/-! ## Events -/

@[simp] theorem State.begin_regs (s : State) (e : Event) (rest : List Event) : (s.begin e rest).regs = s.regs := rfl
@[simp] theorem State.begin_status (s : State) (e : Event) (rest : List Event) : (s.begin e rest).status = s.status := rfl
@[simp] theorem State.begin_results (s : State) (e : Event) (rest : List Event) : (s.begin e rest).results = s.results := rfl
@[simp] theorem State.begin_dbuf (s : State) (e : Event) (rest : List Event) : (s.begin e rest).dbuf = s.dbuf := rfl
@[simp] theorem State.begin_pendOpc (s : State) (e : Event) (rest : List Event) : (s.begin e rest).pendOpc = s.pendOpc := rfl
@[simp] theorem State.begin_tx (s : State) (e : Event) (rest : List Event) : (s.begin e rest).tx = s.tx := rfl
@[simp] theorem State.begin_wcnt (s : State) (e : Event) (rest : List Event) : (s.begin e rest).wcnt = s.wcnt := rfl
@[simp] theorem State.begin_rx (s : State) (e : Event) (rest : List Event) : (s.begin e rest).rx = s.rx := rfl
@[simp] theorem State.begin_params (s : State) (e : Event) (rest : List Event) : (s.begin e rest).params = s.params := rfl
@[simp] theorem State.begin_agent (s : State) (e : Event) (rest : List Event) : (s.begin e rest).agent = e.agent := rfl
@[simp] theorem State.begin_events (s : State) (e : Event) (rest : List Event) : (s.begin e rest).events = rest := rfl
@[simp] theorem State.begin_bus (s : State) (e : Event) (rest : List Event) : (s.begin e rest).bus = s.bus := rfl
@[simp] theorem State.begin_wire (s : State) (e : Event) (rest : List Event) : (s.begin e rest).wire = s.wire := rfl
@[simp] theorem State.begin_draws (s : State) (e : Event) (rest : List Event) : (s.begin e rest).draws = s.draws := rfl
@[simp] theorem State.begin_epoch (s : State) (e : Event) (rest : List Event) : (s.begin e rest).epoch = s.epoch := rfl
@[simp] theorem State.resetEvent_regs (s : State) : (s.resetEvent).regs = Regs.reset := rfl
@[simp] theorem State.resetEvent_status (s : State) : (s.resetEvent).status = Status.reset := rfl
@[simp] theorem State.resetEvent_results (s : State) : (s.resetEvent).results = Results.reset := rfl
@[simp] theorem State.resetEvent_dbuf (s : State) : (s.resetEvent).dbuf = [] := rfl
@[simp] theorem State.resetEvent_pendOpc (s : State) : (s.resetEvent).pendOpc = 0 := rfl
@[simp] theorem State.resetEvent_tx (s : State) : (s.resetEvent).tx = Tx.reset := rfl
@[simp] theorem State.resetEvent_wcnt (s : State) : (s.resetEvent).wcnt = 0 := rfl
@[simp] theorem State.resetEvent_rx (s : State) : (s.resetEvent).rx = Rx.reset := rfl
@[simp] theorem State.resetEvent_params (s : State) : (s.resetEvent).params = s.params := rfl
@[simp] theorem State.resetEvent_agent (s : State) : (s.resetEvent).agent = .reset := rfl
@[simp] theorem State.resetEvent_events (s : State) : (s.resetEvent).events = s.events := rfl
@[simp] theorem State.resetEvent_bus (s : State) : (s.resetEvent).bus = .none := rfl
@[simp] theorem State.resetEvent_wire (s : State) : (s.resetEvent).wire = s.wire := rfl
@[simp] theorem State.resetEvent_draws (s : State) : (s.resetEvent).draws = s.draws := rfl
@[simp] theorem State.resetEvent_epoch (s : State) : (s.resetEvent).epoch = s.epoch + 1 := rfl

/-! ## What the conditional updates of a transaction keep -/

@[simp] theorem State.setPin_regs (s : State) (v : Bool) : (s.setPin v).regs = s.regs := by
  unfold State.setPin; split <;> rfl
@[simp] theorem State.setPin_dbuf (s : State) (v : Bool) : (s.setPin v).dbuf = s.dbuf := by
  unfold State.setPin; split <;> rfl
@[simp] theorem State.setPin_pendOpc (s : State) (v : Bool) : (s.setPin v).pendOpc = s.pendOpc := by
  unfold State.setPin; split <;> rfl
@[simp] theorem State.setPin_params (s : State) (v : Bool) : (s.setPin v).params = s.params := by
  unfold State.setPin; split <;> rfl
@[simp] theorem State.setPin_agent (s : State) (v : Bool) : (s.setPin v).agent = s.agent := by
  unfold State.setPin; split <;> rfl
@[simp] theorem State.setPin_events (s : State) (v : Bool) : (s.setPin v).events = s.events := by
  unfold State.setPin; split <;> rfl
@[simp] theorem State.setPin_bus (s : State) (v : Bool) : (s.setPin v).bus = s.bus := by
  unfold State.setPin; split <;> rfl
@[simp] theorem State.setPin_draws (s : State) (v : Bool) : (s.setPin v).draws = s.draws := by
  unfold State.setPin; split <;> rfl
@[simp] theorem State.setPin_epoch (s : State) (v : Bool) : (s.setPin v).epoch = s.epoch := by
  unfold State.setPin; split <;> rfl
@[simp] theorem State.setPin_results (s : State) (v : Bool) : (s.setPin v).results = s.results := by
  unfold State.setPin; split <;> rfl
@[simp] theorem State.setPin_tx (s : State) (v : Bool) : (s.setPin v).tx = s.tx := by
  unfold State.setPin; split <;> rfl
@[simp] theorem State.setPin_wcnt (s : State) (v : Bool) : (s.setPin v).wcnt = s.wcnt := by
  unfold State.setPin; split <;> rfl
@[simp] theorem State.setPin_rx (s : State) (v : Bool) : (s.setPin v).rx = s.rx := by
  unfold State.setPin; split <;> rfl
@[simp] theorem State.setPin_wire (s : State) (v : Bool) : (s.setPin v).wire = s.wire := by
  unfold State.setPin; split <;> rfl
@[simp] theorem State.setPin_status_st (s : State) (v : Bool) : (s.setPin v).status.st = s.status.st := by
  unfold State.setPin; split <;> rfl
@[simp] theorem State.setPin_status_errCode (s : State) (v : Bool) : (s.setPin v).status.errCode = s.status.errCode := by
  unfold State.setPin; split <;> rfl
@[simp] theorem State.setPin_status_lastCause (s : State) (v : Bool) : (s.setPin v).status.lastCause = s.status.lastCause := by
  unfold State.setPin; split <;> rfl
@[simp] theorem State.setPin_status_malSub (s : State) (v : Bool) : (s.setPin v).status.malSub = s.status.malSub := by
  unfold State.setPin; split <;> rfl
@[simp] theorem State.setPin_status_vok (s : State) (v : Bool) : (s.setPin v).status.vok = s.status.vok := by
  unfold State.setPin; split <;> rfl
@[simp] theorem State.setPin_status_cmdRej (s : State) (v : Bool) : (s.setPin v).status.cmdRej = s.status.cmdRej := by
  unfold State.setPin; split <;> rfl
@[simp] theorem State.setPin_status_wrIgn (s : State) (v : Bool) : (s.setPin v).status.wrIgn = s.status.wrIgn := by
  unfold State.setPin; split <;> rfl
@[simp] theorem State.setPin_status_lastOpc (s : State) (v : Bool) : (s.setPin v).status.lastOpc = s.status.lastOpc := by
  unfold State.setPin; split <;> rfl
@[simp] theorem State.recordHeader_regs (s : State) (res : RxResult) : (s.recordHeader res).regs = s.regs := by
  unfold State.recordHeader; split <;> rfl
@[simp] theorem State.recordHeader_dbuf (s : State) (res : RxResult) : (s.recordHeader res).dbuf = s.dbuf := by
  unfold State.recordHeader; split <;> rfl
@[simp] theorem State.recordHeader_pendOpc (s : State) (res : RxResult) : (s.recordHeader res).pendOpc = s.pendOpc := by
  unfold State.recordHeader; split <;> rfl
@[simp] theorem State.recordHeader_params (s : State) (res : RxResult) : (s.recordHeader res).params = s.params := by
  unfold State.recordHeader; split <;> rfl
@[simp] theorem State.recordHeader_agent (s : State) (res : RxResult) : (s.recordHeader res).agent = s.agent := by
  unfold State.recordHeader; split <;> rfl
@[simp] theorem State.recordHeader_events (s : State) (res : RxResult) : (s.recordHeader res).events = s.events := by
  unfold State.recordHeader; split <;> rfl
@[simp] theorem State.recordHeader_bus (s : State) (res : RxResult) : (s.recordHeader res).bus = s.bus := by
  unfold State.recordHeader; split <;> rfl
@[simp] theorem State.recordHeader_draws (s : State) (res : RxResult) : (s.recordHeader res).draws = s.draws := by
  unfold State.recordHeader; split <;> rfl
@[simp] theorem State.recordHeader_epoch (s : State) (res : RxResult) : (s.recordHeader res).epoch = s.epoch := by
  unfold State.recordHeader; split <;> rfl
@[simp] theorem State.recordHeader_status (s : State) (res : RxResult) : (s.recordHeader res).status = s.status := by
  unfold State.recordHeader; split <;> rfl
@[simp] theorem State.recordHeader_tx (s : State) (res : RxResult) : (s.recordHeader res).tx = s.tx := by
  unfold State.recordHeader; split <;> rfl
@[simp] theorem State.recordHeader_wcnt (s : State) (res : RxResult) : (s.recordHeader res).wcnt = s.wcnt := by
  unfold State.recordHeader; split <;> rfl
@[simp] theorem State.recordHeader_rx (s : State) (res : RxResult) : (s.recordHeader res).rx = s.rx := by
  unfold State.recordHeader; split <;> rfl
@[simp] theorem State.recordHeader_wire (s : State) (res : RxResult) : (s.recordHeader res).wire = s.wire := by
  unfold State.recordHeader; split <;> rfl
@[simp] theorem State.recordHeader_results_outLen (s : State) (res : RxResult) : (s.recordHeader res).results.outLen = s.results.outLen := by
  unfold State.recordHeader; split <;> rfl
@[simp] theorem State.recordHeader_results_consumed (s : State) (res : RxResult) : (s.recordHeader res).results.consumed = s.results.consumed := by
  unfold State.recordHeader; split <;> rfl
@[simp] theorem State.recordHeader_results_ckRes (s : State) (res : RxResult) : (s.recordHeader res).results.ckRes = s.results.ckRes := by
  unfold State.recordHeader; split <;> rfl
@[simp] theorem State.recordHeader_results_retryCnt (s : State) (res : RxResult) : (s.recordHeader res).results.retryCnt = s.results.retryCnt := by
  unfold State.recordHeader; split <;> rfl
@[simp] theorem State.recordHeader_results_dropCnt (s : State) (res : RxResult) : (s.recordHeader res).results.dropCnt = s.results.dropCnt := by
  unfold State.recordHeader; split <;> rfl
@[simp] theorem State.startAttempt_regs (s : State) : (s.startAttempt).regs = s.regs := by
  unfold State.startAttempt; dsimp only; split <;> simp
@[simp] theorem State.startAttempt_dbuf (s : State) : (s.startAttempt).dbuf = s.dbuf := by
  unfold State.startAttempt; dsimp only; split <;> simp
@[simp] theorem State.startAttempt_pendOpc (s : State) : (s.startAttempt).pendOpc = s.pendOpc := by
  unfold State.startAttempt; dsimp only; split <;> simp
@[simp] theorem State.startAttempt_params (s : State) : (s.startAttempt).params = s.params := by
  unfold State.startAttempt; dsimp only; split <;> simp
@[simp] theorem State.startAttempt_agent (s : State) : (s.startAttempt).agent = s.agent := by
  unfold State.startAttempt; dsimp only; split <;> simp
@[simp] theorem State.startAttempt_events (s : State) : (s.startAttempt).events = s.events := by
  unfold State.startAttempt; dsimp only; split <;> simp
@[simp] theorem State.startAttempt_bus (s : State) : (s.startAttempt).bus = s.bus := by
  unfold State.startAttempt; dsimp only; split <;> simp
@[simp] theorem State.startAttempt_draws (s : State) : (s.startAttempt).draws = s.draws := by
  unfold State.startAttempt; dsimp only; split <;> simp
@[simp] theorem State.startAttempt_epoch (s : State) : (s.startAttempt).epoch = s.epoch := by
  unfold State.startAttempt; dsimp only; split <;> simp
@[simp] theorem State.startAttempt_results (s : State) : (s.startAttempt).results = s.results := by
  unfold State.startAttempt; dsimp only; split <;> simp
@[simp] theorem State.startAttempt_wcnt (s : State) : (s.startAttempt).wcnt = s.wcnt := by
  unfold State.startAttempt; dsimp only; split <;> simp
@[simp] theorem State.startAttempt_rx (s : State) : (s.startAttempt).rx = s.rx := by
  unfold State.startAttempt; dsimp only; split <;> simp
@[simp] theorem State.startAttempt_wire (s : State) : (s.startAttempt).wire = s.wire := by
  unfold State.startAttempt; dsimp only; split <;> simp
@[simp] theorem State.startAttempt_tx_frame (s : State) : (s.startAttempt).tx.frame = s.tx.frame := by
  unfold State.startAttempt; dsimp only; split <;> simp
@[simp] theorem State.startAttempt_status_errCode (s : State) : (s.startAttempt).status.errCode = s.status.errCode := by
  unfold State.startAttempt; dsimp only; split <;> simp
@[simp] theorem State.startAttempt_status_lastCause (s : State) : (s.startAttempt).status.lastCause = s.status.lastCause := by
  unfold State.startAttempt; dsimp only; split <;> simp
@[simp] theorem State.startAttempt_status_malSub (s : State) : (s.startAttempt).status.malSub = s.status.malSub := by
  unfold State.startAttempt; dsimp only; split <;> simp
@[simp] theorem State.startAttempt_status_vok (s : State) : (s.startAttempt).status.vok = s.status.vok := by
  unfold State.startAttempt; dsimp only; split <;> simp
@[simp] theorem State.startAttempt_status_cmdRej (s : State) : (s.startAttempt).status.cmdRej = s.status.cmdRej := by
  unfold State.startAttempt; dsimp only; split <;> simp
@[simp] theorem State.startAttempt_status_wrIgn (s : State) : (s.startAttempt).status.wrIgn = s.status.wrIgn := by
  unfold State.startAttempt; dsimp only; split <;> simp
@[simp] theorem State.startAttempt_status_lastOpc (s : State) : (s.startAttempt).status.lastOpc = s.status.lastOpc := by
  unfold State.startAttempt; dsimp only; split <;> simp
@[simp] theorem State.startAttempt_status_st (s : State) : (s.startAttempt).status.st = .sending := by
  unfold State.startAttempt; dsimp only; split <;> simp
@[simp] theorem State.startAttempt_tx_ph (s : State) : (s.startAttempt).tx.ph = .emit := by
  unfold State.startAttempt; dsimp only; split <;> simp
@[simp] theorem State.startAttempt_tx_idx (s : State) : (s.startAttempt).tx.idx = 0 := by
  unfold State.startAttempt; dsimp only; split <;> simp
@[simp] theorem State.retry_regs (s : State) : (s.retry).regs = s.regs := by
  unfold State.retry; dsimp only; split <;> simp
@[simp] theorem State.retry_dbuf (s : State) : (s.retry).dbuf = s.dbuf := by
  unfold State.retry; dsimp only; split <;> simp
@[simp] theorem State.retry_pendOpc (s : State) : (s.retry).pendOpc = s.pendOpc := by
  unfold State.retry; dsimp only; split <;> simp
@[simp] theorem State.retry_params (s : State) : (s.retry).params = s.params := by
  unfold State.retry; dsimp only; split <;> simp
@[simp] theorem State.retry_agent (s : State) : (s.retry).agent = s.agent := by
  unfold State.retry; dsimp only; split <;> simp
@[simp] theorem State.retry_events (s : State) : (s.retry).events = s.events := by
  unfold State.retry; dsimp only; split <;> simp
@[simp] theorem State.retry_bus (s : State) : (s.retry).bus = s.bus := by
  unfold State.retry; dsimp only; split <;> simp
@[simp] theorem State.retry_draws (s : State) : (s.retry).draws = s.draws := by
  unfold State.retry; dsimp only; split <;> simp
@[simp] theorem State.retry_epoch (s : State) : (s.retry).epoch = s.epoch := by
  unfold State.retry; dsimp only; split <;> simp
@[simp] theorem State.retry_rx (s : State) : (s.retry).rx = s.rx := by
  unfold State.retry; dsimp only; split <;> simp
@[simp] theorem State.retry_wire (s : State) : (s.retry).wire = s.wire := by
  unfold State.retry; dsimp only; split <;> simp
@[simp] theorem State.retry_tx_frame (s : State) : (s.retry).tx.frame = s.tx.frame := by
  unfold State.retry; dsimp only; split <;> simp
@[simp] theorem State.retry_status_errCode (s : State) : (s.retry).status.errCode = s.status.errCode := by
  unfold State.retry; dsimp only; split <;> simp
@[simp] theorem State.retry_status_lastCause (s : State) : (s.retry).status.lastCause = s.status.lastCause := by
  unfold State.retry; dsimp only; split <;> simp
@[simp] theorem State.retry_status_malSub (s : State) : (s.retry).status.malSub = s.status.malSub := by
  unfold State.retry; dsimp only; split <;> simp
@[simp] theorem State.retry_status_vok (s : State) : (s.retry).status.vok = s.status.vok := by
  unfold State.retry; dsimp only; split <;> simp
@[simp] theorem State.retry_status_cmdRej (s : State) : (s.retry).status.cmdRej = s.status.cmdRej := by
  unfold State.retry; dsimp only; split <;> simp
@[simp] theorem State.retry_status_wrIgn (s : State) : (s.retry).status.wrIgn = s.status.wrIgn := by
  unfold State.retry; dsimp only; split <;> simp
@[simp] theorem State.retry_status_lastOpc (s : State) : (s.retry).status.lastOpc = s.status.lastOpc := by
  unfold State.retry; dsimp only; split <;> simp
@[simp] theorem State.retry_results_outLen (s : State) : (s.retry).results.outLen = s.results.outLen := by
  unfold State.retry; dsimp only; split <;> simp
@[simp] theorem State.retry_results_consumed (s : State) : (s.retry).results.consumed = s.results.consumed := by
  unfold State.retry; dsimp only; split <;> simp
@[simp] theorem State.retry_results_ckRes (s : State) : (s.retry).results.ckRes = s.results.ckRes := by
  unfold State.retry; dsimp only; split <;> simp
@[simp] theorem State.retry_results_rxAddr (s : State) : (s.retry).results.rxAddr = s.results.rxAddr := by
  unfold State.retry; dsimp only; split <;> simp
@[simp] theorem State.retry_results_rxCtrl (s : State) : (s.retry).results.rxCtrl = s.results.rxCtrl := by
  unfold State.retry; dsimp only; split <;> simp
@[simp] theorem State.retry_results_dropCnt (s : State) : (s.retry).results.dropCnt = s.results.dropCnt := by
  unfold State.retry; dsimp only; split <;> simp
@[simp] theorem State.retry_results_retryCnt (s : State) : (s.retry).results.retryCnt = s.results.retryCnt + 1 := by
  unfold State.retry; dsimp only; split <;> simp
@[simp] theorem State.attemptFailed_regs (s : State) (f : Failure) : (s.attemptFailed f).regs = s.regs := by
  unfold State.attemptFailed; (repeat' split) <;> simp
@[simp] theorem State.attemptFailed_dbuf (s : State) (f : Failure) : (s.attemptFailed f).dbuf = s.dbuf := by
  unfold State.attemptFailed; (repeat' split) <;> simp
@[simp] theorem State.attemptFailed_pendOpc (s : State) (f : Failure) : (s.attemptFailed f).pendOpc = s.pendOpc := by
  unfold State.attemptFailed; (repeat' split) <;> simp
@[simp] theorem State.attemptFailed_params (s : State) (f : Failure) : (s.attemptFailed f).params = s.params := by
  unfold State.attemptFailed; (repeat' split) <;> simp
@[simp] theorem State.attemptFailed_agent (s : State) (f : Failure) : (s.attemptFailed f).agent = s.agent := by
  unfold State.attemptFailed; (repeat' split) <;> simp
@[simp] theorem State.attemptFailed_events (s : State) (f : Failure) : (s.attemptFailed f).events = s.events := by
  unfold State.attemptFailed; (repeat' split) <;> simp
@[simp] theorem State.attemptFailed_bus (s : State) (f : Failure) : (s.attemptFailed f).bus = s.bus := by
  unfold State.attemptFailed; (repeat' split) <;> simp
@[simp] theorem State.attemptFailed_draws (s : State) (f : Failure) : (s.attemptFailed f).draws = s.draws := by
  unfold State.attemptFailed; (repeat' split) <;> simp
@[simp] theorem State.attemptFailed_epoch (s : State) (f : Failure) : (s.attemptFailed f).epoch = s.epoch := by
  unfold State.attemptFailed; (repeat' split) <;> simp
@[simp] theorem State.attemptFailed_rx (s : State) (f : Failure) : (s.attemptFailed f).rx = s.rx := by
  unfold State.attemptFailed; (repeat' split) <;> simp
@[simp] theorem State.attemptFailed_wire (s : State) (f : Failure) : (s.attemptFailed f).wire = s.wire := by
  unfold State.attemptFailed; (repeat' split) <;> simp
@[simp] theorem State.attemptFailed_tx_frame (s : State) (f : Failure) : (s.attemptFailed f).tx.frame = s.tx.frame := by
  unfold State.attemptFailed; (repeat' split) <;> simp
@[simp] theorem State.attemptFailed_status_vok (s : State) (f : Failure) : (s.attemptFailed f).status.vok = s.status.vok := by
  unfold State.attemptFailed; (repeat' split) <;> simp
@[simp] theorem State.attemptFailed_status_cmdRej (s : State) (f : Failure) : (s.attemptFailed f).status.cmdRej = s.status.cmdRej := by
  unfold State.attemptFailed; (repeat' split) <;> simp
@[simp] theorem State.attemptFailed_status_wrIgn (s : State) (f : Failure) : (s.attemptFailed f).status.wrIgn = s.status.wrIgn := by
  unfold State.attemptFailed; (repeat' split) <;> simp
@[simp] theorem State.attemptFailed_status_lastOpc (s : State) (f : Failure) : (s.attemptFailed f).status.lastOpc = s.status.lastOpc := by
  unfold State.attemptFailed; (repeat' split) <;> simp
@[simp] theorem State.attemptFailed_results_outLen (s : State) (f : Failure) : (s.attemptFailed f).results.outLen = s.results.outLen := by
  unfold State.attemptFailed; (repeat' split) <;> simp
@[simp] theorem State.attemptFailed_results_consumed (s : State) (f : Failure) : (s.attemptFailed f).results.consumed = s.results.consumed := by
  unfold State.attemptFailed; (repeat' split) <;> simp
@[simp] theorem State.attemptFailed_results_ckRes (s : State) (f : Failure) : (s.attemptFailed f).results.ckRes = s.results.ckRes := by
  unfold State.attemptFailed; (repeat' split) <;> simp
@[simp] theorem State.attemptFailed_results_rxAddr (s : State) (f : Failure) : (s.attemptFailed f).results.rxAddr = s.results.rxAddr := by
  unfold State.attemptFailed; (repeat' split) <;> simp
@[simp] theorem State.attemptFailed_results_rxCtrl (s : State) (f : Failure) : (s.attemptFailed f).results.rxCtrl = s.results.rxCtrl := by
  unfold State.attemptFailed; (repeat' split) <;> simp
@[simp] theorem State.attemptFailed_results_dropCnt (s : State) (f : Failure) : (s.attemptFailed f).results.dropCnt = s.results.dropCnt := by
  unfold State.attemptFailed; (repeat' split) <;> simp
@[simp] theorem State.enterAwait_regs (s : State) : (s.enterAwait).regs = s.regs := by
  unfold State.enterAwait; dsimp only; split <;> simp
@[simp] theorem State.enterAwait_dbuf (s : State) : (s.enterAwait).dbuf = s.dbuf := by
  unfold State.enterAwait; dsimp only; split <;> simp
@[simp] theorem State.enterAwait_pendOpc (s : State) : (s.enterAwait).pendOpc = s.pendOpc := by
  unfold State.enterAwait; dsimp only; split <;> simp
@[simp] theorem State.enterAwait_params (s : State) : (s.enterAwait).params = s.params := by
  unfold State.enterAwait; dsimp only; split <;> simp
@[simp] theorem State.enterAwait_agent (s : State) : (s.enterAwait).agent = s.agent := by
  unfold State.enterAwait; dsimp only; split <;> simp
@[simp] theorem State.enterAwait_events (s : State) : (s.enterAwait).events = s.events := by
  unfold State.enterAwait; dsimp only; split <;> simp
@[simp] theorem State.enterAwait_bus (s : State) : (s.enterAwait).bus = s.bus := by
  unfold State.enterAwait; dsimp only; split <;> simp
@[simp] theorem State.enterAwait_draws (s : State) : (s.enterAwait).draws = s.draws := by
  unfold State.enterAwait; dsimp only; split <;> simp
@[simp] theorem State.enterAwait_epoch (s : State) : (s.enterAwait).epoch = s.epoch := by
  unfold State.enterAwait; dsimp only; split <;> simp
@[simp] theorem State.enterAwait_wire (s : State) : (s.enterAwait).wire = s.wire := by
  unfold State.enterAwait; dsimp only; split <;> simp
@[simp] theorem State.enterAwait_tx_frame (s : State) : (s.enterAwait).tx.frame = s.tx.frame := by
  unfold State.enterAwait; dsimp only; split <;> simp
@[simp] theorem State.enterAwait_status_vok (s : State) : (s.enterAwait).status.vok = s.status.vok := by
  unfold State.enterAwait; dsimp only; split <;> simp
@[simp] theorem State.enterAwait_status_cmdRej (s : State) : (s.enterAwait).status.cmdRej = s.status.cmdRej := by
  unfold State.enterAwait; dsimp only; split <;> simp
@[simp] theorem State.enterAwait_status_wrIgn (s : State) : (s.enterAwait).status.wrIgn = s.status.wrIgn := by
  unfold State.enterAwait; dsimp only; split <;> simp
@[simp] theorem State.enterAwait_status_lastOpc (s : State) : (s.enterAwait).status.lastOpc = s.status.lastOpc := by
  unfold State.enterAwait; dsimp only; split <;> simp
@[simp] theorem State.enterAwait_results_outLen (s : State) : (s.enterAwait).results.outLen = s.results.outLen := by
  unfold State.enterAwait; dsimp only; split <;> simp
@[simp] theorem State.enterAwait_results_consumed (s : State) : (s.enterAwait).results.consumed = s.results.consumed := by
  unfold State.enterAwait; dsimp only; split <;> simp
@[simp] theorem State.enterAwait_results_ckRes (s : State) : (s.enterAwait).results.ckRes = s.results.ckRes := by
  unfold State.enterAwait; dsimp only; split <;> simp
@[simp] theorem State.enterAwait_results_rxAddr (s : State) : (s.enterAwait).results.rxAddr = s.results.rxAddr := by
  unfold State.enterAwait; dsimp only; split <;> simp
@[simp] theorem State.enterAwait_results_rxCtrl (s : State) : (s.enterAwait).results.rxCtrl = s.results.rxCtrl := by
  unfold State.enterAwait; dsimp only; split <;> simp
@[simp] theorem State.enterAwait_results_dropCnt (s : State) : (s.enterAwait).results.dropCnt = s.results.dropCnt := by
  unfold State.enterAwait; dsimp only; split <;> simp
@[simp] theorem State.enterAwait_rx (s : State) : (s.enterAwait).rx = Rx.reset := by
  unfold State.enterAwait; dsimp only; split <;> simp
@[simp] theorem State.endSettle_regs (s : State) : (s.endSettle).regs = s.regs := by
  simp [State.endSettle]
@[simp] theorem State.endSettle_dbuf (s : State) : (s.endSettle).dbuf = s.dbuf := by
  simp [State.endSettle]
@[simp] theorem State.endSettle_pendOpc (s : State) : (s.endSettle).pendOpc = s.pendOpc := by
  simp [State.endSettle]
@[simp] theorem State.endSettle_params (s : State) : (s.endSettle).params = s.params := by
  simp [State.endSettle]
@[simp] theorem State.endSettle_agent (s : State) : (s.endSettle).agent = s.agent := by
  simp [State.endSettle]
@[simp] theorem State.endSettle_events (s : State) : (s.endSettle).events = s.events := by
  simp [State.endSettle]
@[simp] theorem State.endSettle_bus (s : State) : (s.endSettle).bus = s.bus := by
  simp [State.endSettle]
@[simp] theorem State.endSettle_draws (s : State) : (s.endSettle).draws = s.draws := by
  simp [State.endSettle]
@[simp] theorem State.endSettle_epoch (s : State) : (s.endSettle).epoch = s.epoch := by
  simp [State.endSettle]
@[simp] theorem State.endSettle_wire (s : State) : (s.endSettle).wire = s.wire := by
  simp [State.endSettle]
@[simp] theorem State.endSettle_tx_frame (s : State) : (s.endSettle).tx.frame = s.tx.frame := by
  simp [State.endSettle]
@[simp] theorem State.endSettle_status_vok (s : State) : (s.endSettle).status.vok = s.status.vok := by
  simp [State.endSettle]
@[simp] theorem State.endSettle_status_cmdRej (s : State) : (s.endSettle).status.cmdRej = s.status.cmdRej := by
  simp [State.endSettle]
@[simp] theorem State.endSettle_status_wrIgn (s : State) : (s.endSettle).status.wrIgn = s.status.wrIgn := by
  simp [State.endSettle]
@[simp] theorem State.endSettle_status_lastOpc (s : State) : (s.endSettle).status.lastOpc = s.status.lastOpc := by
  simp [State.endSettle]
@[simp] theorem State.endSettle_results_outLen (s : State) : (s.endSettle).results.outLen = s.results.outLen := by
  simp [State.endSettle]
@[simp] theorem State.endSettle_results_consumed (s : State) : (s.endSettle).results.consumed = s.results.consumed := by
  simp [State.endSettle]
@[simp] theorem State.endSettle_results_ckRes (s : State) : (s.endSettle).results.ckRes = s.results.ckRes := by
  simp [State.endSettle]
@[simp] theorem State.endSettle_results_rxAddr (s : State) : (s.endSettle).results.rxAddr = s.results.rxAddr := by
  simp [State.endSettle]
@[simp] theorem State.endSettle_results_rxCtrl (s : State) : (s.endSettle).results.rxCtrl = s.results.rxCtrl := by
  simp [State.endSettle]
@[simp] theorem State.endSettle_results_dropCnt (s : State) : (s.endSettle).results.dropCnt = s.results.dropCnt := by
  simp [State.endSettle]
@[simp] theorem State.endEmit_regs (s : State) : (s.endEmit).regs = s.regs := by
  unfold State.endEmit; dsimp only; (repeat' split) <;> simp
@[simp] theorem State.endEmit_dbuf (s : State) : (s.endEmit).dbuf = s.dbuf := by
  unfold State.endEmit; dsimp only; (repeat' split) <;> simp
@[simp] theorem State.endEmit_pendOpc (s : State) : (s.endEmit).pendOpc = s.pendOpc := by
  unfold State.endEmit; dsimp only; (repeat' split) <;> simp
@[simp] theorem State.endEmit_params (s : State) : (s.endEmit).params = s.params := by
  unfold State.endEmit; dsimp only; (repeat' split) <;> simp
@[simp] theorem State.endEmit_agent (s : State) : (s.endEmit).agent = s.agent := by
  unfold State.endEmit; dsimp only; (repeat' split) <;> simp
@[simp] theorem State.endEmit_events (s : State) : (s.endEmit).events = s.events := by
  unfold State.endEmit; dsimp only; (repeat' split) <;> simp
@[simp] theorem State.endEmit_bus (s : State) : (s.endEmit).bus = s.bus := by
  unfold State.endEmit; dsimp only; (repeat' split) <;> simp
@[simp] theorem State.endEmit_draws (s : State) : (s.endEmit).draws = s.draws := by
  unfold State.endEmit; dsimp only; (repeat' split) <;> simp
@[simp] theorem State.endEmit_epoch (s : State) : (s.endEmit).epoch = s.epoch := by
  unfold State.endEmit; dsimp only; (repeat' split) <;> simp
@[simp] theorem State.endEmit_wire (s : State) : (s.endEmit).wire = s.wire := by
  unfold State.endEmit; dsimp only; (repeat' split) <;> simp
@[simp] theorem State.endEmit_tx_frame (s : State) : (s.endEmit).tx.frame = s.tx.frame := by
  unfold State.endEmit; dsimp only; (repeat' split) <;> simp
@[simp] theorem State.endEmit_status_vok (s : State) : (s.endEmit).status.vok = s.status.vok := by
  unfold State.endEmit; dsimp only; (repeat' split) <;> simp
@[simp] theorem State.endEmit_status_cmdRej (s : State) : (s.endEmit).status.cmdRej = s.status.cmdRej := by
  unfold State.endEmit; dsimp only; (repeat' split) <;> simp
@[simp] theorem State.endEmit_status_wrIgn (s : State) : (s.endEmit).status.wrIgn = s.status.wrIgn := by
  unfold State.endEmit; dsimp only; (repeat' split) <;> simp
@[simp] theorem State.endEmit_status_lastOpc (s : State) : (s.endEmit).status.lastOpc = s.status.lastOpc := by
  unfold State.endEmit; dsimp only; (repeat' split) <;> simp
@[simp] theorem State.endEmit_results_outLen (s : State) : (s.endEmit).results.outLen = s.results.outLen := by
  unfold State.endEmit; dsimp only; (repeat' split) <;> simp
@[simp] theorem State.endEmit_results_consumed (s : State) : (s.endEmit).results.consumed = s.results.consumed := by
  unfold State.endEmit; dsimp only; (repeat' split) <;> simp
@[simp] theorem State.endEmit_results_ckRes (s : State) : (s.endEmit).results.ckRes = s.results.ckRes := by
  unfold State.endEmit; dsimp only; (repeat' split) <;> simp
@[simp] theorem State.endEmit_results_rxAddr (s : State) : (s.endEmit).results.rxAddr = s.results.rxAddr := by
  unfold State.endEmit; dsimp only; (repeat' split) <;> simp
@[simp] theorem State.endEmit_results_rxCtrl (s : State) : (s.endEmit).results.rxCtrl = s.results.rxCtrl := by
  unfold State.endEmit; dsimp only; (repeat' split) <;> simp
@[simp] theorem State.endEmit_results_dropCnt (s : State) : (s.endEmit).results.dropCnt = s.results.dropCnt := by
  unfold State.endEmit; dsimp only; (repeat' split) <;> simp
@[simp] theorem State.txTake_regs (s : State) : (s.txTake).regs = s.regs := by
  unfold State.txTake; dsimp only; (repeat' split) <;> simp
@[simp] theorem State.txTake_dbuf (s : State) : (s.txTake).dbuf = s.dbuf := by
  unfold State.txTake; dsimp only; (repeat' split) <;> simp
@[simp] theorem State.txTake_pendOpc (s : State) : (s.txTake).pendOpc = s.pendOpc := by
  unfold State.txTake; dsimp only; (repeat' split) <;> simp
@[simp] theorem State.txTake_params (s : State) : (s.txTake).params = s.params := by
  unfold State.txTake; dsimp only; (repeat' split) <;> simp
@[simp] theorem State.txTake_agent (s : State) : (s.txTake).agent = s.agent := by
  unfold State.txTake; dsimp only; (repeat' split) <;> simp
@[simp] theorem State.txTake_events (s : State) : (s.txTake).events = s.events := by
  unfold State.txTake; dsimp only; (repeat' split) <;> simp
@[simp] theorem State.txTake_bus (s : State) : (s.txTake).bus = s.bus := by
  unfold State.txTake; dsimp only; (repeat' split) <;> simp
@[simp] theorem State.txTake_draws (s : State) : (s.txTake).draws = s.draws := by
  unfold State.txTake; dsimp only; (repeat' split) <;> simp
@[simp] theorem State.txTake_epoch (s : State) : (s.txTake).epoch = s.epoch := by
  unfold State.txTake; dsimp only; (repeat' split) <;> simp
@[simp] theorem State.txTake_tx_frame (s : State) : (s.txTake).tx.frame = s.tx.frame := by
  unfold State.txTake; dsimp only; (repeat' split) <;> simp
@[simp] theorem State.txTake_status_vok (s : State) : (s.txTake).status.vok = s.status.vok := by
  unfold State.txTake; dsimp only; (repeat' split) <;> simp
@[simp] theorem State.txTake_status_cmdRej (s : State) : (s.txTake).status.cmdRej = s.status.cmdRej := by
  unfold State.txTake; dsimp only; (repeat' split) <;> simp
@[simp] theorem State.txTake_status_wrIgn (s : State) : (s.txTake).status.wrIgn = s.status.wrIgn := by
  unfold State.txTake; dsimp only; (repeat' split) <;> simp
@[simp] theorem State.txTake_status_lastOpc (s : State) : (s.txTake).status.lastOpc = s.status.lastOpc := by
  unfold State.txTake; dsimp only; (repeat' split) <;> simp
@[simp] theorem State.txTake_results_outLen (s : State) : (s.txTake).results.outLen = s.results.outLen := by
  unfold State.txTake; dsimp only; (repeat' split) <;> simp
@[simp] theorem State.txTake_results_consumed (s : State) : (s.txTake).results.consumed = s.results.consumed := by
  unfold State.txTake; dsimp only; (repeat' split) <;> simp
@[simp] theorem State.txTake_results_ckRes (s : State) : (s.txTake).results.ckRes = s.results.ckRes := by
  unfold State.txTake; dsimp only; (repeat' split) <;> simp
@[simp] theorem State.txTake_results_rxAddr (s : State) : (s.txTake).results.rxAddr = s.results.rxAddr := by
  unfold State.txTake; dsimp only; (repeat' split) <;> simp
@[simp] theorem State.txTake_results_rxCtrl (s : State) : (s.txTake).results.rxCtrl = s.results.rxCtrl := by
  unfold State.txTake; dsimp only; (repeat' split) <;> simp
@[simp] theorem State.txTake_results_dropCnt (s : State) : (s.txTake).results.dropCnt = s.results.dropCnt := by
  unfold State.txTake; dsimp only; (repeat' split) <;> simp
@[simp] theorem State.tick_regs (s : State) : (s.tick).regs = s.regs := by
  unfold State.tick; dsimp only; (repeat' split) <;> simp
@[simp] theorem State.tick_dbuf (s : State) : (s.tick).dbuf = s.dbuf := by
  unfold State.tick; dsimp only; (repeat' split) <;> simp
@[simp] theorem State.tick_pendOpc (s : State) : (s.tick).pendOpc = s.pendOpc := by
  unfold State.tick; dsimp only; (repeat' split) <;> simp
@[simp] theorem State.tick_params (s : State) : (s.tick).params = s.params := by
  unfold State.tick; dsimp only; (repeat' split) <;> simp
@[simp] theorem State.tick_agent (s : State) : (s.tick).agent = s.agent := by
  unfold State.tick; dsimp only; (repeat' split) <;> simp
@[simp] theorem State.tick_events (s : State) : (s.tick).events = s.events := by
  unfold State.tick; dsimp only; (repeat' split) <;> simp
@[simp] theorem State.tick_bus (s : State) : (s.tick).bus = s.bus := by
  unfold State.tick; dsimp only; (repeat' split) <;> simp
@[simp] theorem State.tick_draws (s : State) : (s.tick).draws = s.draws := by
  unfold State.tick; dsimp only; (repeat' split) <;> simp
@[simp] theorem State.tick_epoch (s : State) : (s.tick).epoch = s.epoch := by
  unfold State.tick; dsimp only; (repeat' split) <;> simp
@[simp] theorem State.tick_wire (s : State) : (s.tick).wire = s.wire := by
  unfold State.tick; dsimp only; (repeat' split) <;> simp
@[simp] theorem State.tick_tx_frame (s : State) : (s.tick).tx.frame = s.tx.frame := by
  unfold State.tick; dsimp only; (repeat' split) <;> simp
@[simp] theorem State.tick_status_vok (s : State) : (s.tick).status.vok = s.status.vok := by
  unfold State.tick; dsimp only; (repeat' split) <;> simp
@[simp] theorem State.tick_status_cmdRej (s : State) : (s.tick).status.cmdRej = s.status.cmdRej := by
  unfold State.tick; dsimp only; (repeat' split) <;> simp
@[simp] theorem State.tick_status_wrIgn (s : State) : (s.tick).status.wrIgn = s.status.wrIgn := by
  unfold State.tick; dsimp only; (repeat' split) <;> simp
@[simp] theorem State.tick_status_lastOpc (s : State) : (s.tick).status.lastOpc = s.status.lastOpc := by
  unfold State.tick; dsimp only; (repeat' split) <;> simp
@[simp] theorem State.tick_results_outLen (s : State) : (s.tick).results.outLen = s.results.outLen := by
  unfold State.tick; dsimp only; (repeat' split) <;> simp
@[simp] theorem State.tick_results_consumed (s : State) : (s.tick).results.consumed = s.results.consumed := by
  unfold State.tick; dsimp only; (repeat' split) <;> simp
@[simp] theorem State.tick_results_ckRes (s : State) : (s.tick).results.ckRes = s.results.ckRes := by
  unfold State.tick; dsimp only; (repeat' split) <;> simp
@[simp] theorem State.tick_results_rxAddr (s : State) : (s.tick).results.rxAddr = s.results.rxAddr := by
  unfold State.tick; dsimp only; (repeat' split) <;> simp
@[simp] theorem State.tick_results_rxCtrl (s : State) : (s.tick).results.rxCtrl = s.results.rxCtrl := by
  unfold State.tick; dsimp only; (repeat' split) <;> simp
@[simp] theorem State.tick_results_dropCnt (s : State) : (s.tick).results.dropCnt = s.results.dropCnt := by
  unfold State.tick; dsimp only; (repeat' split) <;> simp
@[simp] theorem State.succeedAck_regs (s : State) : (s.succeedAck).regs = s.regs := by
  simp [State.succeedAck]
@[simp] theorem State.succeedAck_dbuf (s : State) : (s.succeedAck).dbuf = s.dbuf := by
  simp [State.succeedAck]
@[simp] theorem State.succeedAck_pendOpc (s : State) : (s.succeedAck).pendOpc = s.pendOpc := by
  simp [State.succeedAck]
@[simp] theorem State.succeedAck_params (s : State) : (s.succeedAck).params = s.params := by
  simp [State.succeedAck]
@[simp] theorem State.succeedAck_agent (s : State) : (s.succeedAck).agent = s.agent := by
  simp [State.succeedAck]
@[simp] theorem State.succeedAck_events (s : State) : (s.succeedAck).events = s.events := by
  simp [State.succeedAck]
@[simp] theorem State.succeedAck_bus (s : State) : (s.succeedAck).bus = s.bus := by
  simp [State.succeedAck]
@[simp] theorem State.succeedAck_draws (s : State) : (s.succeedAck).draws = s.draws := by
  simp [State.succeedAck]
@[simp] theorem State.succeedAck_epoch (s : State) : (s.succeedAck).epoch = s.epoch := by
  simp [State.succeedAck]
@[simp] theorem State.succeedAck_results (s : State) : (s.succeedAck).results = s.results := by
  simp [State.succeedAck]
@[simp] theorem State.succeedAck_rx (s : State) : (s.succeedAck).rx = s.rx := by
  simp [State.succeedAck]
@[simp] theorem State.succeedAck_wire (s : State) : (s.succeedAck).wire = s.wire := by
  simp [State.succeedAck]
@[simp] theorem State.succeedAck_tx (s : State) : (s.succeedAck).tx = s.tx := by
  simp [State.succeedAck]
@[simp] theorem State.succeedAck_wcnt (s : State) : (s.succeedAck).wcnt = s.wcnt := by
  simp [State.succeedAck]
@[simp] theorem State.succeedAck_status_rts (s : State) : (s.succeedAck).status.rts = s.status.rts := by
  simp [State.succeedAck]
@[simp] theorem State.succeedAck_status_dtr (s : State) : (s.succeedAck).status.dtr = s.status.dtr := by
  simp [State.succeedAck]
@[simp] theorem State.succeedAck_status_errCode (s : State) : (s.succeedAck).status.errCode = s.status.errCode := by
  simp [State.succeedAck]
@[simp] theorem State.succeedAck_status_lastCause (s : State) : (s.succeedAck).status.lastCause = s.status.lastCause := by
  simp [State.succeedAck]
@[simp] theorem State.succeedAck_status_malSub (s : State) : (s.succeedAck).status.malSub = s.status.malSub := by
  simp [State.succeedAck]
@[simp] theorem State.succeedAck_status_vok (s : State) : (s.succeedAck).status.vok = s.status.vok := by
  simp [State.succeedAck]
@[simp] theorem State.succeedAck_status_cmdRej (s : State) : (s.succeedAck).status.cmdRej = s.status.cmdRej := by
  simp [State.succeedAck]
@[simp] theorem State.succeedAck_status_wrIgn (s : State) : (s.succeedAck).status.wrIgn = s.status.wrIgn := by
  simp [State.succeedAck]
@[simp] theorem State.succeedAck_status_lastOpc (s : State) : (s.succeedAck).status.lastOpc = s.status.lastOpc := by
  simp [State.succeedAck]
@[simp] theorem State.rxStatus_regs (s : State) (b : Byte) : (s.rxStatus b).regs = s.regs := by
  unfold State.rxStatus; (repeat' split) <;> simp
@[simp] theorem State.rxStatus_dbuf (s : State) (b : Byte) : (s.rxStatus b).dbuf = s.dbuf := by
  unfold State.rxStatus; (repeat' split) <;> simp
@[simp] theorem State.rxStatus_pendOpc (s : State) (b : Byte) : (s.rxStatus b).pendOpc = s.pendOpc := by
  unfold State.rxStatus; (repeat' split) <;> simp
@[simp] theorem State.rxStatus_params (s : State) (b : Byte) : (s.rxStatus b).params = s.params := by
  unfold State.rxStatus; (repeat' split) <;> simp
@[simp] theorem State.rxStatus_agent (s : State) (b : Byte) : (s.rxStatus b).agent = s.agent := by
  unfold State.rxStatus; (repeat' split) <;> simp
@[simp] theorem State.rxStatus_events (s : State) (b : Byte) : (s.rxStatus b).events = s.events := by
  unfold State.rxStatus; (repeat' split) <;> simp
@[simp] theorem State.rxStatus_bus (s : State) (b : Byte) : (s.rxStatus b).bus = s.bus := by
  unfold State.rxStatus; (repeat' split) <;> simp
@[simp] theorem State.rxStatus_draws (s : State) (b : Byte) : (s.rxStatus b).draws = s.draws := by
  unfold State.rxStatus; (repeat' split) <;> simp
@[simp] theorem State.rxStatus_epoch (s : State) (b : Byte) : (s.rxStatus b).epoch = s.epoch := by
  unfold State.rxStatus; (repeat' split) <;> simp
@[simp] theorem State.rxStatus_rx (s : State) (b : Byte) : (s.rxStatus b).rx = s.rx := by
  unfold State.rxStatus; (repeat' split) <;> simp
@[simp] theorem State.rxStatus_wire (s : State) (b : Byte) : (s.rxStatus b).wire = s.wire := by
  unfold State.rxStatus; (repeat' split) <;> simp
@[simp] theorem State.rxStatus_tx_frame (s : State) (b : Byte) : (s.rxStatus b).tx.frame = s.tx.frame := by
  unfold State.rxStatus; (repeat' split) <;> simp
@[simp] theorem State.rxStatus_status_vok (s : State) (b : Byte) : (s.rxStatus b).status.vok = s.status.vok := by
  unfold State.rxStatus; (repeat' split) <;> simp
@[simp] theorem State.rxStatus_status_cmdRej (s : State) (b : Byte) : (s.rxStatus b).status.cmdRej = s.status.cmdRej := by
  unfold State.rxStatus; (repeat' split) <;> simp
@[simp] theorem State.rxStatus_status_wrIgn (s : State) (b : Byte) : (s.rxStatus b).status.wrIgn = s.status.wrIgn := by
  unfold State.rxStatus; (repeat' split) <;> simp
@[simp] theorem State.rxStatus_status_lastOpc (s : State) (b : Byte) : (s.rxStatus b).status.lastOpc = s.status.lastOpc := by
  unfold State.rxStatus; (repeat' split) <;> simp
@[simp] theorem State.rxStatus_results_outLen (s : State) (b : Byte) : (s.rxStatus b).results.outLen = s.results.outLen := by
  unfold State.rxStatus; (repeat' split) <;> simp
@[simp] theorem State.rxStatus_results_consumed (s : State) (b : Byte) : (s.rxStatus b).results.consumed = s.results.consumed := by
  unfold State.rxStatus; (repeat' split) <;> simp
@[simp] theorem State.rxStatus_results_ckRes (s : State) (b : Byte) : (s.rxStatus b).results.ckRes = s.results.ckRes := by
  unfold State.rxStatus; (repeat' split) <;> simp
@[simp] theorem State.rxStatus_results_rxAddr (s : State) (b : Byte) : (s.rxStatus b).results.rxAddr = s.results.rxAddr := by
  unfold State.rxStatus; (repeat' split) <;> simp
@[simp] theorem State.rxStatus_results_rxCtrl (s : State) (b : Byte) : (s.rxStatus b).results.rxCtrl = s.results.rxCtrl := by
  unfold State.rxStatus; (repeat' split) <;> simp
@[simp] theorem State.rxStatus_results_dropCnt (s : State) (b : Byte) : (s.rxStatus b).results.dropCnt = s.results.dropCnt := by
  unfold State.rxStatus; (repeat' split) <;> simp

end Sys2Proof.Machine
end

