-- ==== Sys2Proof/Laws/Memory.lean ====
section
/-! SUPPORT. The laws of DBUF's list: a read after a write, every operation keeps the canonical form, and equal
contents in canonical form are equal data. -/

namespace Sys2Proof.Machine

/-! ## Reading what was written -/

@[simp] theorem Memory.find_nil (k : Nat) : Memory.find [] k = none := rfl

@[simp] theorem Memory.find_cons (a : Nat) (b : Byte) (m : Memory) (k : Nat) :
    Memory.find ((a, b) :: m) k = if k = a then some b else Memory.find m k := rfl

/-- After `DB[k] <- v`, offset `k` lists `v` and every other offset is as before. -/
theorem Memory.find_put (m : Memory) (k : Nat) (v : Byte) (j : Nat) :
    (m.put k v).find j = if j = k then some v else m.find j := by
  induction m with
  | nil => rfl
  | cons c m ih =>
    obtain ⟨a, b⟩ := c
    simp only [Memory.put]
    split_ifs with h1 h2 h3 h3 <;> simp only [Memory.find_cons, ih] <;> split_ifs <;> grind

@[simp] theorem Memory.putAll_nil (m : Memory) (a : Nat) : m.putAll a [] = m := rfl

@[simp] theorem Memory.putAll_cons (m : Memory) (a : Nat) (b : Byte) (s : List Byte) :
    m.putAll a (b :: s) = (m.put a b).putAll (a + 1) s := rfl

/-- After `MemWrite(a, n, s)`, the n offsets from `a` list `s` and every other offset is as before. -/
theorem Memory.find_putAll (s : List Byte) (m : Memory) (a j : Nat) :
    (m.putAll a s).find j = if a ≤ j ∧ j < a + s.length then s[j - a]? else m.find j := by
  induction s generalizing m a with
  | nil => rw [if_neg (by simp)]; rfl
  | cons b s ih =>
    rw [Memory.putAll_cons, ih, Memory.find_put]
    simp only [List.length_cons]
    by_cases hj : j = a
    · subst hj; simp
    · by_cases hlt : a + 1 ≤ j ∧ j < a + 1 + s.length
      · have e : j - a = (j - (a + 1)) + 1 := by omega
        rw [if_pos hlt, if_pos (by omega), e, List.getElem?_cons_succ]
      · rw [if_neg hlt, if_neg hj, if_neg (by omega)]

/-! ## The canonical form -/

/-- Every offset the list holds is above `a`. -/
theorem Memory.wf_cons_iff (a : Nat) (b : Byte) (m : Memory) :
    Memory.wf ((a, b) :: m) = true ↔ (∀ c ∈ m, a < c.1) ∧ m.wf = true := by
  induction m generalizing a b with
  | nil => simp [Memory.wf]
  | cons c m ih =>
    obtain ⟨a', b'⟩ := c
    simp only [Memory.wf, Bool.and_eq_true, decide_eq_true_eq, List.mem_cons, forall_eq_or_imp]
    constructor
    · rintro ⟨h, hw⟩
      exact ⟨⟨h, fun c hc => Nat.lt_trans h (((ih a' b').1 hw).1 c hc)⟩, hw⟩
    · rintro ⟨⟨h, -⟩, hw⟩
      exact ⟨h, hw⟩

/-- What `DB[k] <- v` lists. -/
theorem Memory.mem_put {m : Memory} {k : Nat} {v : Byte} {c : Host.Cell} (h : c ∈ m.put k v) :
    c = (k, v) ∨ c ∈ m := by
  induction m with
  | nil => exact .inl (by simpa [Memory.put] using h)
  | cons d m ih =>
    obtain ⟨a, b⟩ := d
    simp only [Memory.put] at h
    split_ifs at h <;> simp only [List.mem_cons] at h ⊢ <;> tauto

/-- A write keeps the canonical form. -/
theorem Memory.put_wf {m : Memory} (h : m.wf = true) (k : Nat) (v : Byte) : (m.put k v).wf = true := by
  induction m with
  | nil => rfl
  | cons d m ih =>
    obtain ⟨a, b⟩ := d
    obtain ⟨habove, hm⟩ := (Memory.wf_cons_iff a b m).1 h
    simp only [Memory.put]
    split_ifs with h1 h2
    · exact (Memory.wf_cons_iff _ _ _).2
        ⟨by simpa [h1] using fun c hc hl => Nat.lt_trans h1 (habove (c, hc) hl), h⟩
    · subst h2; exact (Memory.wf_cons_iff _ _ _).2 ⟨habove, hm⟩
    · refine (Memory.wf_cons_iff _ _ _).2 ⟨fun c hc => ?_, ih hm⟩
      rcases Memory.mem_put hc with rfl | hc
      · simp; omega
      · exact habove c hc

/-- MemWrite keeps the canonical form. -/
theorem Memory.putAll_wf (s : List Byte) {m : Memory} (h : m.wf = true) (a : Nat) : (m.putAll a s).wf = true := by
  induction s generalizing m a with
  | nil => exact h
  | cons b s ih => exact ih (Memory.put_wf h a b) (a + 1)

/-- What MemWrite lists: what was listed, and offsets of the region it writes. -/
theorem Memory.mem_putAll {s : List Byte} {m : Memory} {a : Nat} {c : Host.Cell} (h : c ∈ m.putAll a s) :
    c ∈ m ∨ (a ≤ c.1 ∧ c.1 < a + s.length) := by
  induction s generalizing m a with
  | nil => exact .inl h
  | cons b s ih =>
    rcases ih h with h | ⟨h1, h2⟩
    · rcases Memory.mem_put h with rfl | h
      · exact .inr ⟨Nat.le_refl _, by simp⟩
      · exact .inl h
    · exact .inr ⟨by omega, by simp only [List.length_cons]; omega⟩

/-- In canonical form equal contents are equal data. -/
theorem Memory.ext_of_find {m n : Memory} (hm : m.wf = true) (hn : n.wf = true)
    (h : ∀ k, m.find k = n.find k) : m = n := by
  have below : ∀ {m : Memory} {a k : Nat}, (∀ c ∈ m, a < c.1) → k ≤ a → m.find k = none := by
    intro m
    induction m with
    | nil => intros; rfl
    | cons c m ih =>
      intro a k hall hk
      have h1 := hall c (List.mem_cons_self ..)
      rw [Memory.find_cons, if_neg (by omega)]
      exact ih (fun d hd => hall d (List.mem_cons_of_mem _ hd)) hk
  induction m generalizing n with
  | nil =>
    cases n with
    | nil => rfl
    | cons d n => have := h d.1; simp [Memory.find] at this
  | cons c m ih =>
    obtain ⟨a, b⟩ := c
    cases n with
    | nil => simpa using h a
    | cons d n =>
      obtain ⟨a', b'⟩ := d
      obtain ⟨hm1, hm2⟩ := (Memory.wf_cons_iff _ _ _).1 hm
      obtain ⟨hn1, hn2⟩ := (Memory.wf_cons_iff _ _ _).1 hn
      have e : a = a' := by
        rcases Nat.lt_trichotomy a a' with hlt | heq | hgt
        · have := h a
          simp only [Memory.find_cons, if_true] at this
          rw [if_neg (by omega), below hn1 (by omega)] at this
          cases this
        · exact heq
        · have := h a'
          simp only [Memory.find_cons, if_true] at this
          rw [if_neg (by omega), below hm1 (by omega)] at this
          cases this
      subst e
      have hb : b = b' := by simpa using h a
      subst hb
      congr 1
      refine ih hm2 hn2 fun k => ?_
      by_cases hk : k = a
      · subst hk; rw [below hm1 (Nat.le_refl _), below hn1 (Nat.le_refl _)]
      · simpa [hk] using h k

/-! ## DBUF in the state -/

/-- A byte of DBUF after MemWrite: the byte written inside the region, the byte it held elsewhere. -/
theorem State.dbufByte_putAll (s : State) (a : Nat) (out : List Byte) (t : State)
    (hd : t.dbuf = s.dbuf.putAll a out) (he : t.epoch = s.epoch) (j : Nat) :
    t.dbufByte j = if a ≤ j ∧ j < a + out.length then out.getD (j - a) 0 else s.dbufByte j := by
  unfold State.dbufByte
  rw [hd, he, Memory.find_putAll]
  split_ifs with h
  · rw [List.getElem?_eq_getElem (by omega), List.getD_eq_getElem _ _ (by omega)]
  · rfl

/-- A byte of DBUF depends on the list and the epoch alone. -/
theorem State.dbufByte_congr {s t : State} (hd : t.dbuf = s.dbuf) (he : t.epoch = s.epoch) (j : Nat) :
    t.dbufByte j = s.dbufByte j := by unfold State.dbufByte; rw [hd, he]

@[simp] theorem State.memRead_zero (s : State) (a : Nat) : s.memRead a 0 = [] := rfl

@[simp] theorem State.memRead_succ (s : State) (a n : Nat) :
    s.memRead a (n + 1) = s.dbufByte a :: s.memRead (a + 1) n := rfl

@[simp] theorem State.memRead_length (s : State) (a n : Nat) : (s.memRead a n).length = n := by
  induction n generalizing a with
  | zero => rfl
  | succ n ih => simp [ih]

/-- MemRead depends on the list and the epoch alone. -/
theorem State.memRead_congr {s t : State} (hd : t.dbuf = s.dbuf) (he : t.epoch = s.epoch) (a n : Nat) :
    t.memRead a n = s.memRead a n := by
  induction n generalizing a with
  | zero => rfl
  | succ n ih => simp [ih, State.dbufByte_congr hd he]

@[simp] theorem State.srcBytes_length (s : State) : s.srcBytes.length = s.regs.srcLen := by
  simp [State.srcBytes]

/-- A command's input depends on DBUF and on SRC alone. -/
theorem State.srcBytes_congr {s t : State} (hd : t.dbuf = s.dbuf) (he : t.epoch = s.epoch)
    (hp : t.regs.srcPtr = s.regs.srcPtr) (hl : t.regs.srcLen = s.regs.srcLen) : t.srcBytes = s.srcBytes := by
  rw [State.srcBytes, State.srcBytes, hp, hl, State.memRead_congr hd he]

end Sys2Proof.Machine
end

