-- ==== Sys2Proof/Laws/Ops.lean ====
section
/-! SUPPORT. For each shared operation, one lemma that says once what it can do, so that a later proof cites it and does
not unfold the operation. -/

namespace Sys2Proof.Machine

/-! ## One step -/

/-- With an event scheduled, a step is that event. -/
theorem step_event {s : State} {e : Event} {rest : List Event} (h : s.events = e :: rest) :
    step s = (s.begin e rest).applyEvent e := by
  simp [step, State.nextEvent, h]

/-- With nothing scheduled, a block in EXEC takes its Exec step. -/
theorem step_idle_exec {s : State} (h : s.events = []) (hx : s.status.st = .exec) :
    step s = exec (decodeOpc s.pendOpc) (s.begin .exec []) := by
  simp [step, State.nextEvent, h, hx, State.applyEvent, State.execEvent, State.begin]

/-- With nothing scheduled, a block outside EXEC waits. -/
theorem step_idle_wait {s : State} (h : s.events = []) (hx : s.status.st ≠ .exec) : step s = .next s := by
  simp [step, State.nextEvent, h, hx]

/-- What a step that answers a next state did: it waited, took its own Exec step, or took the first scheduled event. -/
theorem step_cases {s t : State} (h : step s = .next t) :
    (s.events = [] ∧ s.status.st ≠ .exec ∧ t = s) ∨
    (s.events = [] ∧ s.status.st = .exec ∧ exec (decodeOpc s.pendOpc) (s.begin .exec []) = .next t) ∨
    ∃ e rest, s.events = e :: rest ∧ (s.begin e rest).applyEvent e = .next t := by
  cases he : s.events with
  | nil =>
    by_cases hx : s.status.st = .exec
    · exact .inr (.inl ⟨rfl, hx, by rw [← step_idle_exec he hx, h]⟩)
    · exact .inl ⟨rfl, hx, by simpa [step_idle_wait he hx] using h.symm⟩
  | cons e rest => exact .inr (.inr ⟨e, rest, rfl, by rw [← step_event he, h]⟩)

/-- Running no step. -/
@[simp] theorem run_zero (s : State) : Sys2Proof.core.run 0 s = .next s := rfl

/-- Running one more step, from a step that answers a next state. -/
theorem run_succ {s t : State} (h : step s = .next t) (k : Nat) :
    Sys2Proof.core.run (k + 1) s = Sys2Proof.core.run k t := by
  have h' : Sys2Proof.core.step s = .next t := h
  simp [Host.Core.run, h']

/-- Running `j + k` steps, when the first `j` answer a next state. -/
theorem run_add {s t : State} {j : Nat} (h : Sys2Proof.core.run j s = .next t) (k : Nat) :
    Sys2Proof.core.run (j + k) s = Sys2Proof.core.run k t := by
  induction j generalizing s with
  | zero =>
    have h := Host.Outcome.next.inj h
    subst h
    simp
  | succ j ih =>
    cases hs : step s with
    | next u =>
      rw [run_succ hs] at h
      rw [show j + 1 + k = (j + k) + 1 by omega, run_succ hs, ih h]
    | fault r =>
      have h' : Sys2Proof.core.step s = .fault r := hs
      simp [Host.Core.run, h'] at h
    | refused r =>
      have h' : Sys2Proof.core.step s = .refused r := hs
      simp [Host.Core.run, h'] at h

/-! ## The command template -/

/-- A command in its Exec step. -/
theorem State.command_of_exec {s : State} (h : s.agent = .exec) (opc : Opc)
    (p : State → Host.Outcome State Fault Refusal) : s.command opc p = s.execStep opc p := by
  simp [State.command, h]

/-- A command in the event that writes it to CMD. -/
theorem State.command_of_write {s : State} (h : s.agent ≠ .exec) (opc : Opc)
    (p : State → Host.Outcome State Fault Refusal) : s.command opc p = .next (s.cmdWrite opc) := by
  simp [State.command, h]

/-- A Busy block rejects. -/
theorem State.cmdWrite_of_busy {s : State} (h : s.busy = true) (opc : Opc) : s.cmdWrite opc = s.rejectCmd := by
  simp [State.cmdWrite, h]

/-- A block that is not Busy accepts. -/
theorem State.cmdWrite_of_not_busy {s : State} (h : s.busy = false) (opc : Opc) : s.cmdWrite opc = s.accept opc := by
  simp [State.cmdWrite, h]

/-- An Exec step whose checks all pass runs the pseudocode. -/
theorem State.execStep_of_none {s : State} {opc : Opc} (h : s.execCheck opc = none)
    (p : State → Host.Outcome State Fault Refusal) : s.execStep opc p = p s := by
  simp [State.execStep, h]

/-- An Exec step with a check that raises. -/
theorem State.execStep_of_some {s : State} {opc : Opc} {e : ErrCode} (h : s.execCheck opc = some e)
    (p : State → Host.Outcome State Fault Refusal) : s.execStep opc p = .next (s.raise e .none) := by
  simp [State.execStep, h]

/-- What an Exec step can do. -/
theorem State.execStep_cases {s t : State} {opc : Opc} {p : State → Host.Outcome State Fault Refusal}
    (h : s.execStep opc p = .next t) :
    (∃ e, s.execCheck opc = some e ∧ t = s.raise e .none) ∨ (s.execCheck opc = none ∧ p s = .next t) := by
  cases hc : s.execCheck opc with
  | none => exact .inr ⟨rfl, by rwa [State.execStep_of_none hc] at h⟩
  | some e =>
    rw [State.execStep_of_some hc] at h
    exact .inl ⟨e, rfl, (Host.Outcome.next.inj h).symm⟩

/-- What a command can do, in whichever of its two events. -/
theorem State.command_cases {s t : State} {opc : Opc} {p : State → Host.Outcome State Fault Refusal}
    (h : s.command opc p = .next t) :
    (s.agent ≠ .exec ∧ s.busy = true ∧ t = s.rejectCmd) ∨ (s.agent ≠ .exec ∧ s.busy = false ∧ t = s.accept opc) ∨
    (s.agent = .exec ∧ ∃ e, s.execCheck opc = some e ∧ t = s.raise e .none) ∨
    (s.agent = .exec ∧ s.execCheck opc = none ∧ p s = .next t) := by
  by_cases ha : s.agent = .exec
  · rw [State.command_of_exec ha] at h
    rcases State.execStep_cases h with h | h
    · exact .inr (.inr (.inl ⟨ha, h⟩))
    · exact .inr (.inr (.inr ⟨ha, h⟩))
  · rw [State.command_of_write ha] at h
    have h := (Host.Outcome.next.inj h).symm
    cases hb : s.busy with
    | true => exact .inl ⟨ha, rfl, by rw [h, State.cmdWrite_of_busy hb]⟩
    | false => exact .inr (.inl ⟨ha, rfl, by rw [h, State.cmdWrite_of_not_busy hb]⟩)

/-- When every check of the Exec step passes. -/
theorem State.execCheck_eq_none_iff (s : State) (opc : Opc) :
    s.execCheck opc = none ↔
      opc.toNat < 9 ∧ ¬s.regs.reservedConfig ∧ ¬s.srcOutside ∧ (usesDst opc = true → ¬s.dstOutside) ∧
        (buildsFrame opc = true → ¬s.regs.tooLarge) := by
  unfold State.execCheck
  split_ifs <;> simp_all

/-- The first check that raises. -/
theorem State.execCheck_some {s : State} {opc : Opc} {e : ErrCode} (h : s.execCheck opc = some e) :
    (e = .illegalCmd ∧ 9 ≤ opc.toNat) ∨ (e = .config ∧ s.regs.reservedConfig) ∨
    (e = .bounds ∧ (s.srcOutside ∨ usesDst opc = true ∧ s.dstOutside)) ∨
    (e = .tooLarge ∧ buildsFrame opc = true ∧ s.regs.tooLarge) := by
  unfold State.execCheck at h
  split_ifs at h <;> simp_all

/-- The checks read the operands and the parameters alone. -/
theorem State.execCheck_congr {s t : State} (hr : t.regs = s.regs) (hp : t.params = s.params) (opc : Opc) :
    t.execCheck opc = s.execCheck opc := by
  simp only [State.execCheck, State.srcOutside, State.dstOutside, hr, hp]

/-! ## The commands -/

@[simp] theorem exec_nop (s : State) : exec .nop s = .next s := rfl
@[simp] theorem exec_clear (s : State) : exec .clear s = .next (if s.busy then s.rejectCmd else s.clear) := rfl
@[simp] theorem exec_escape (s : State) : exec .escape s = s.command 0x1 State.runEscape := rfl
@[simp] theorem exec_unescape (s : State) : exec .unescape s = s.command 0x2 State.runUnescape := rfl
@[simp] theorem exec_cksum (s : State) : exec .cksum s = s.command 0x3 State.runCksum := rfl
@[simp] theorem exec_ckverify (s : State) : exec .ckverify s = s.command 0x4 State.runCkverify := rfl
@[simp] theorem exec_build (s : State) : exec .build s = s.command 0x5 State.runBuild := rfl
@[simp] theorem exec_parse (s : State) : exec .parse s = s.command 0x6 State.runParse := rfl
@[simp] theorem exec_send (s : State) : exec .send s = s.command 0x7 State.runSend := rfl
@[simp] theorem exec_illegal9 (s : State) : exec .illegal9 s = s.command 0x9 State.illegal := rfl
@[simp] theorem exec_illegalAB (opc : Opc) (s : State) : exec (.illegalAB opc) s = s.command opc State.illegal := rfl
@[simp] theorem exec_illegalCF (opc : Opc) (s : State) : exec (.illegalCF opc) s = s.command opc State.illegal := rfl

/-! ## Output -/

/-- Output that stays inside DBUF is written. -/
theorem State.finishWithOutput_of_le {s : State} {out : List Byte}
    (h : s.regs.dstPtr + out.length ≤ s.params.dbufSize) :
    s.finishWithOutput out = .next { s with
      dbuf := s.dbuf.putAll s.regs.dstPtr out
      results := { s.results with outLen := BitVec.ofNat 16 out.length }
      status := { s.status with st := .success } } := by
  simp [State.finishWithOutput, h, State.completeOk]

/-- What writing a command's output can do. -/
theorem State.finishWithOutput_cases {s t : State} {out : List Byte} (h : s.finishWithOutput out = .next t) :
    s.regs.dstPtr + out.length ≤ s.params.dbufSize ∧
    t = { s with
      dbuf := s.dbuf.putAll s.regs.dstPtr out
      results := { s.results with outLen := BitVec.ofNat 16 out.length }
      status := { s.status with st := .success } } := by
  by_cases hle : s.regs.dstPtr + out.length ≤ s.params.dbufSize
  · rw [State.finishWithOutput_of_le hle] at h
    exact ⟨hle, (Host.Outcome.next.inj h).symm⟩
  · simp [State.finishWithOutput, hle] at h

/-- A byte of a DBUF in which output was written. -/
theorem State.dbufByte_of_output {s t : State} {a : Nat} {out : List Byte} (hd : t.dbuf = s.dbuf.putAll a out)
    (he : t.epoch = s.epoch) (k : Nat) :
    t.dbufByte k = if a ≤ k ∧ k < a + out.length then out.getD (k - a) 0 else s.dbufByte k := by
  simp only [State.dbufByte, hd, he, Memory.find_putAll]
  split_ifs with h
  · have hk : k - a < out.length := by omega
    simp [List.getD, hk]
  · rfl

/-! ## The transaction engine -/

/-- What the end of an attempt that did not succeed can do: restart at once, wait the backoff, give up, or fail. -/
theorem State.attemptFailed_cases (s : State) (f : Failure) :
    (s.regs.retryable f = true ∧ s.results.retryCnt < s.regs.maxRetry ∧ s.attemptFailed f = s.retry) ∨
    (s.regs.retryable f = true ∧ ¬s.results.retryCnt < s.regs.maxRetry ∧ s.attemptFailed f = s.exhausted f) ∨
    (s.regs.retryable f = false ∧ s.attemptFailed f = s.raise f.code f.sub) := by
  unfold State.attemptFailed
  cases hr : s.regs.retryable f
  · simp
  · by_cases hc : s.results.retryCnt < s.regs.maxRetry <;> simp [hc]

/-- Awaiting a response with a deadline. -/
theorem State.enterAwait_of_ne {s : State} (h : s.regs.rxTmo ≠ 0) :
    s.enterAwait = { s with status := { s.status with st := .await }, rx := Rx.reset, wcnt := s.regs.rxTmo } := by
  unfold State.enterAwait
  exact if_neg h

/-- Awaiting a response with the deadline 0. -/
theorem State.enterAwait_of_zero {s : State} (h : s.regs.rxTmo = 0) :
    s.enterAwait =
      ({ s with status := { s.status with st := .await }, rx := Rx.reset, wcnt := 0 }).attemptFailed .timeout := by
  simp only [State.enterAwait, h, if_true]

/-- The end of transmission. -/
theorem State.endEmit_cases (s : State) :
    (s.regs.lcEn = false ∧ s.endEmit = s.enterAwait) ∨
    (s.regs.lcEn = true ∧ s.regs.settleT ≠ 0 ∧
      s.endEmit = { s with tx := { s.tx with ph := .settle }, wcnt := s.regs.settleT }) ∨
    (s.regs.lcEn = true ∧ s.regs.settleT = 0 ∧
      s.endEmit = ({ s with tx := { s.tx with ph := .settle }, wcnt := 0 }).endSettle) := by
  unfold State.endEmit
  cases hl : s.regs.lcEn
  · simp
  · by_cases h : s.regs.settleT = 0
    · exact .inr (.inr ⟨rfl, h, by simp only [h, if_true]⟩)
    · exact .inr (.inl ⟨rfl, h, by simp only [if_true, if_neg h]⟩)

/-- What a TxTake can do: nothing where no byte is offered; one byte goes out; or the last one does. -/
theorem State.txTake_cases (s : State) :
    (s.offered = none ∧ s.txTake = s) ∨
    ∃ b, s.offered = some b ∧ s.status.st = .sending ∧ s.tx.ph = .emit ∧ s.tx.frame[s.tx.idx]? = some b ∧
      ((s.tx.idx + 1 ≠ s.tx.frame.length ∧
          s.txTake = { s with wire := s.wire ++ [b], tx := { s.tx with idx := s.tx.idx + 1 } }) ∨
        (s.tx.idx + 1 = s.tx.frame.length ∧
          s.txTake = ({ s with wire := s.wire ++ [b], tx := { s.tx with idx := s.tx.idx + 1 } }).endEmit)) := by
  cases ho : s.offered with
  | none => exact .inl ⟨rfl, by simp [State.txTake, ho]⟩
  | some b =>
    refine .inr ⟨b, rfl, ?_⟩
    have ho' := ho
    unfold State.offered at ho'
    split_ifs at ho' with hc
    refine ⟨hc.1, hc.2, ho', ?_⟩
    by_cases hl : s.tx.idx + 1 = s.tx.frame.length <;> simp [State.txTake, ho, hl]

/-- What a Tick can do: nothing; one tick less to wait; or the end of the settle time, the deadline, the backoff. -/
theorem State.tick_cases (s : State) :
    ((s.status.st = .idle ∨ s.status.st = .exec ∨ s.status.st = .success ∨ s.status.st = .failed ∨
        (s.status.st = .sending ∧ s.tx.ph = .emit)) ∧ s.tick = s) ∨
    (((s.status.st = .sending ∧ s.tx.ph = .settle) ∨ s.status.st = .await ∨ s.status.st = .retryWait) ∧
      s.wcnt - 1 ≠ 0 ∧ s.tick = { s with wcnt := s.wcnt - 1 }) ∨
    (s.status.st = .sending ∧ s.tx.ph = .settle ∧ s.wcnt - 1 = 0 ∧ s.tick = ({ s with wcnt := 0 }).endSettle) ∨
    (s.status.st = .await ∧ s.wcnt - 1 = 0 ∧ s.tick = ({ s with wcnt := 0 }).attemptFailed .timeout) ∨
    (s.status.st = .retryWait ∧ s.wcnt - 1 = 0 ∧ s.tick = ({ s with wcnt := 0 }).startAttempt) := by
  unfold State.tick
  by_cases hw : s.wcnt - 1 = 0 <;> simp only [hw] <;> cases s.status.st <;> cases s.tx.ph <;> simp <;> exact hw

/-- What a received byte can do. -/
theorem State.rxByte_cases (s : State) (b : Byte) :
    (s.status.st ≠ .await ∧ s.rxByte b = .next s.dropByte) ∨
    (s.status.st = .await ∧ s.regs.rspMode = false ∧ s.rxByte b = .next (s.rxStatus b)) ∨
    (s.status.st = .await ∧ s.regs.rspMode = true ∧ s.rxByte b = s.rxFrame b) := by
  unfold State.rxByte
  by_cases hs : s.status.st = .await <;> cases hm : s.regs.rspMode <;> simp [hs]

/-- What a status byte can do. -/
theorem State.rxStatus_cases (s : State) (b : Byte) :
    s.rxStatus b = s.completeOk ∨ s.rxStatus b = s.attemptFailed .nack ∨ s.rxStatus b = s.attemptFailed .busyRsp ∨
      s.rxStatus b = s.attemptFailed (.malformed .badStatus) := by
  unfold State.rxStatus State.succeedAck
  split_ifs <;> simp

/-- What a byte of a reply frame can do. -/
theorem State.rxFrame_cases {s t : State} {b : Byte} (h : s.rxFrame b = .next t) :
    ∃ x res, s.regs.rxStep s.rx b = (x, res) ∧
      ∃ u, u = ({ s with
          rx := x
          wcnt := if s.reloads b then s.regs.rxTmo else s.wcnt }).recordHeader res ∧
        ((res = .cont ∧ t = u) ∨ (∃ a c p, res = .frame a c p ∧ u.finishWithOutput p = .next t) ∨
          (∃ hd f, res = .bad hd f ∧ t = u.attemptFailed f)) := by
  refine ⟨(s.regs.rxStep s.rx b).1, (s.regs.rxStep s.rx b).2, rfl, _, rfl, ?_⟩
  unfold State.rxFrame at h
  rcases hx : s.regs.rxStep s.rx b with ⟨x, res⟩
  rw [hx] at h
  cases res with
  | cont => exact .inl ⟨rfl, (Host.Outcome.next.inj h).symm⟩
  | frame a c p => exact .inr (.inl ⟨a, c, p, rfl, h⟩)
  | bad hd f => exact .inr (.inr ⟨hd, f, rfl, (Host.Outcome.next.inj h).symm⟩)

/-! ## The receive parser -/

@[simp] theorem Regs.rxFeed_nil (r : Regs) (x : Rx) : r.rxFeed x [] = (x, 0, .cont) := rfl

/-- Feeding a byte after which the parser goes on. -/
theorem Regs.rxFeed_cons_cont {r : Regs} {x y : Rx} {b : Byte} (h : r.rxStep x b = (y, .cont)) (d : List Byte) :
    r.rxFeed x (b :: d) = ((r.rxFeed y d).1, (r.rxFeed y d).2.1 + 1, (r.rxFeed y d).2.2) := by
  simp [Regs.rxFeed, h]

/-- Feeding a byte that gives a result. -/
theorem Regs.rxFeed_cons_done {r : Regs} {x y : Rx} {b : Byte} {res : RxResult} (h : r.rxStep x b = (y, res))
    (hc : res ≠ .cont) (d : List Byte) : r.rxFeed x (b :: d) = (y, 1, res) := by
  cases res with
  | cont => exact absurd rfl hc
  | frame a c p => simp [Regs.rxFeed, h]
  | bad hd f => simp [Regs.rxFeed, h]

/-- Feeding a sequence after whose first part the parser goes on. -/
theorem Regs.rxFeed_append_cont {r : Regs} {x y : Rx} {n : Nat} (d e : List Byte)
    (h : r.rxFeed x d = (y, n, .cont)) :
    r.rxFeed x (d ++ e) = ((r.rxFeed y e).1, n + (r.rxFeed y e).2.1, (r.rxFeed y e).2.2) := by
  induction d generalizing x n with
  | nil =>
    simp only [Regs.rxFeed_nil, Prod.mk.injEq] at h
    simp [← h.1, ← h.2.1]
  | cons b d ih =>
    rcases hx : r.rxStep x b with ⟨z, res⟩
    by_cases hc : res = .cont
    · subst hc
      rw [Regs.rxFeed_cons_cont hx] at h
      simp only [Prod.mk.injEq] at h
      have := ih (x := z) (n := (r.rxFeed z d).2.1) (by rw [← h.1, ← h.2.2])
      rw [List.cons_append, Regs.rxFeed_cons_cont hx, this]
      simp only [Prod.mk.injEq, true_and, and_true]
      omega
    · rw [Regs.rxFeed_cons_done hx hc] at h
      simp only [Prod.mk.injEq] at h
      exact absurd h.2.2 hc

/-- The parser's number of bytes read, when the input ends first. -/
theorem Regs.rxFeed_cont_length {r : Regs} {x y : Rx} {n : Nat} {d : List Byte}
    (h : r.rxFeed x d = (y, n, .cont)) : n = d.length := by
  induction d generalizing x n with
  | nil => simp only [Regs.rxFeed_nil, Prod.mk.injEq] at h; simp [← h.2.1]
  | cons b d ih =>
    rcases hx : r.rxStep x b with ⟨z, res⟩
    by_cases hc : res = .cont
    · subst hc
      rw [Regs.rxFeed_cons_cont hx] at h
      simp only [Prod.mk.injEq] at h
      have := ih (x := z) (n := (r.rxFeed z d).2.1) (by rw [← h.1, ← h.2.2])
      simp only [List.length_cons]
      omega
    · rw [Regs.rxFeed_cons_done hx hc] at h
      simp only [Prod.mk.injEq] at h
      exact absurd h.2.2 hc

/-- What the checks of a split frame can answer: the checksum field did not match, or it did, and the frame is good or
fails one of the checks after it. -/
theorem Regs.checkFrame_cases (r : Regs) (hdr p rc : List Byte) :
    let ab := hdr.take r.alen
    let cb := (hdr.drop r.alen).take r.cflen
    let head := (r.addrOf ab, r.ctrlOf cb)
    (rc ≠ r.ckBytes (r.ck (r.logical ab cb p)) ∧ r.checkFrame hdr p rc = .bad (some head) .ckMismatch) ∨
    (rc = r.ckBytes (r.ck (r.logical ab cb p)) ∧
      (r.checkFrame hdr p rc = .bad (some head) (.malformed .lenField) ∨
        r.checkFrame hdr p rc = .bad (some head) .addrMismatch ∨
        r.checkFrame hdr p rc = .bad (some head) (.malformed .expLen) ∨
        r.checkFrame hdr p rc = .frame head.1 head.2 p)) := by
  intro ab cb head
  by_cases hc : rc = r.ckBytes (r.ck (r.logical ab cb p))
  · refine .inr ⟨hc, ?_⟩
    simp only [Regs.checkFrame]
    rw [if_neg (not_not.mpr hc)]
    split_ifs <;> simp [head, ab, cb]
  · refine .inl ⟨hc, ?_⟩
    simp only [Regs.checkFrame]
    rw [if_pos hc]

/-- What `append` does: the byte joins the body, within the capacity or beyond it. -/
theorem Regs.rxAppend_cases (r : Regs) (x : Rx) (b : Byte) :
    let y : Rx := { x with ph := .body, body := x.body ++ [b] }
    (y.body.length ≤ r.cap ∧ r.rxAppend x b = (y, .cont)) ∨
    (r.cap < y.body.length ∧ r.rxAppend x b = (y, .bad none (.malformed .overflow))) := by
  intro y
  by_cases h : y.body.length > r.cap
  · exact .inr ⟨h, by simp only [Regs.rxAppend]; rw [if_pos h]⟩
  · exact .inl ⟨by omega, by simp only [Regs.rxAppend]; rw [if_neg h]⟩

/-- What the parser does with a byte, by its phase. -/
theorem Regs.rxStep_cases (r : Regs) (x : Rx) (b : Byte) :
    (x.ph = .hunt ∧ b ≠ r.startMk ∧ r.rxStep x b = (x, .cont)) ∨
    (x.ph = .hunt ∧ b = r.startMk ∧
      r.rxStep x b = ({ ph := if r.escHdr then .body else .hdr, hdr := [], body := [], ck := [] }, .cont)) ∨
    (x.ph = .hdr ∧ r.rxStep x b =
      ({ x with hdr := x.hdr ++ [b], ph := if x.hdr.length + 1 = r.hlen then .body else .hdr }, .cont)) ∨
    (x.ph = .body ∧ b = r.escMk ∧ r.rxStep x b = ({ x with ph := .escp }, .cont)) ∨
    (x.ph = .body ∧ b ≠ r.escMk ∧ b = r.endMk ∧ r.rxStep x b = ({ x with ph := .ck }, .cont)) ∨
    (x.ph = .body ∧ b ≠ r.escMk ∧ b ≠ r.endMk ∧ b = r.startMk ∧
      r.rxStep x b = (x, .bad none (.malformed .noEnd))) ∨
    ((x.ph = .body ∧ b ≠ r.escMk ∧ b ≠ r.endMk ∧ b ≠ r.startMk ∨ x.ph = .escp) ∧
      r.rxStep x b = r.rxAppend x b) ∨
    (x.ph = .ck ∧ x.ck.length + 1 ≠ r.ckw ∧ r.rxStep x b = ({ x with ck := x.ck ++ [b] }, .cont)) ∨
    (x.ph = .ck ∧ x.ck.length + 1 = r.ckw ∧
      r.rxStep x b = ({ x with ck := x.ck ++ [b] }, r.validate { x with ck := x.ck ++ [b] })) := by
  unfold Regs.rxStep
  cases hp : x.ph with
  | hunt => by_cases h : b = r.startMk <;> simp [h]
  | hdr => simp
  | body =>
    by_cases h1 : b = r.escMk <;> by_cases h2 : b = r.endMk <;> by_cases h3 : b = r.startMk <;> simp_all
  | escp => simp
  | ck => by_cases h : x.ck.length + 1 = r.ckw <;> simp [h]

/-- What the checks of a whole frame can answer: too short a body for its header, or the checks of the split frame. -/
theorem Regs.validate_cases (r : Regs) (x : Rx) :
    (r.escHdr = true ∧ x.body.length < r.hlen ∧ r.validate x = .bad none (.malformed .shortHdr)) ∨
    (r.escHdr = true ∧ r.hlen ≤ x.body.length ∧
      r.validate x = r.checkFrame (x.body.take r.hlen) (x.body.drop r.hlen) x.ck) ∨
    (r.escHdr = false ∧ r.validate x = r.checkFrame x.hdr x.body x.ck) := by
  unfold Regs.validate
  cases r.escHdr
  · simp
  · by_cases h : x.body.length < r.hlen
    · simp [h]
    · simp [h]
      omega

/-! ## Host accesses -/

/-- An access in the window. -/
theorem State.windowOffset_add (s : State) {off : Nat} (h : off < 0x2000) :
    s.windowOffset (s.params.base + off) = some off := by
  simp [State.windowOffset, h]

/-- An access outside the window. -/
theorem State.windowOffset_outside {s : State} {addr : Nat}
    (h : addr < s.params.base ∨ s.params.base + 0x2000 ≤ addr) : s.windowOffset addr = none := by
  unfold State.windowOffset
  rw [if_neg (by omega)]

/-- Every register of the map is at an aligned offset below the DBUF window and is neither CMD nor CTRL. -/
theorem OpReg.ofOffset_bound {off : Nat} {reg : OpReg} (h : OpReg.ofOffset off = some reg) :
    off < 0x80 ∧ off % 4 = 0 ∧ off ≠ 0x004 ∧ off ≠ 0x00C := by
  have hlt : off < 0x80 := by
    by_contra hge
    unfold OpReg.ofOffset at h
    split at h <;> first | omega | cases h
  revert h
  interval_cases off <;> simp [OpReg.ofOffset]

/-- What a host read can change: the answer, and the count of draws. -/
theorem State.hostRead_frame (s : State) (addr : Nat) (width : Width) :
    ∃ d n, s.hostRead addr width = { s with bus := d, draws := n } := by
  unfold State.hostRead
  split
  · exact ⟨.none, s.draws, rfl⟩
  · split
    · exact ⟨.busError, s.draws, rfl⟩
    · exact ⟨_, _, rfl⟩

/-- An aligned 32-bit register read. -/
theorem State.hostRead_reg (s : State) {off : Nat} (h : off < 0x1000) (h4 : off % 4 = 0) :
    s.hostRead (s.params.base + off) .w32 =
      { s with bus := .readData (s.regRead off), draws := if s.busy then s.draws + 1 else s.draws } := by
  have hm : misplaced off .w32 = false := by simp [misplaced, h, h4]
  simp only [State.hostRead, State.windowOffset_add s (show off < 0x2000 by omega), hm, h, if_true, Bool.false_eq_true,
    if_false]

/-- An aligned read of the DBUF window. -/
theorem State.hostRead_dbuf (s : State) {a : Nat} {width : Width} (h : a < 0x1000) (ha : a % width.bytes = 0) :
    s.hostRead (s.params.base + 0x1000 + a) width =
      { s with bus := .readData (s.dbufReadWord a width), draws := if s.busy then s.draws + 1 else s.draws } := by
  have hm : misplaced (0x1000 + a) width = false := by
    cases width <;> simp only [Width.bytes, misplaced] at ha ⊢ <;> simp <;> omega
  rw [Nat.add_assoc]
  simp only [State.hostRead, State.windowOffset_add s (show 0x1000 + a < 0x2000 by omega), hm, Bool.false_eq_true,
    if_false, show ¬0x1000 + a < 0x1000 by omega, Nat.add_sub_cancel_left]

/-- What an aligned write to the register space can do: write CMD, CTRL, another register, or nothing. -/
theorem State.regWrite_cases (s : State) (off : Nat) (w : Word) :
    (off = 0x004 ∧ s.regWrite off w = exec (decode w) s) ∨ s.regWrite off w = .next (s.ctrlWrite w) ∨
    (∃ reg, s.regWrite off w = .next (s.opRegWrite reg w)) ∨ s.regWrite off w = .next s := by
  unfold State.regWrite
  split
  · exact .inl ⟨rfl, rfl⟩
  · exact .inr (.inl rfl)
  · cases OpReg.ofOffset off with
    | some reg => exact .inr (.inr (.inl ⟨reg, rfl⟩))
    | none => exact .inr (.inr (.inr rfl))

/-- What a host write can do: go unanswered, be a bus error, write CMD, CTRL, a register or DBUF, or nothing. -/
theorem State.hostWrite_cases (s : State) (addr : Nat) (width : Width) (w : Word) :
    s.hostWrite addr width w = .next { s with bus := .none } ∨
    s.hostWrite addr width w = .next { s with bus := .busError } ∨
    (addr = s.params.base + 4 ∧ s.hostWrite addr width w = exec (decode w) { s with bus := .written }) ∨
    s.hostWrite addr width w = .next (({ s with bus := .written }).ctrlWrite w) ∨
    (∃ reg, s.hostWrite addr width w = .next (({ s with bus := .written }).opRegWrite reg w)) ∨
    s.hostWrite addr width w = .next { s with bus := .written } ∨
    (∃ a, s.hostWrite addr width w = .next (({ s with bus := .written }).dbufWrite a width w)) := by
  unfold State.hostWrite
  cases ho : s.windowOffset addr with
  | none => exact .inl rfl
  | some off =>
    have hoff : addr = s.params.base + off := by
      unfold State.windowOffset at ho
      split_ifs at ho with hc
      have := Option.some.inj ho
      omega
    by_cases hm : misplaced off width = true
    · exact .inr (.inl (by simp [hm]))
    · by_cases hb : off < 0x1000
      · simp only [hm, hb, if_true, Bool.false_eq_true, if_false]
        rcases State.regWrite_cases { s with bus := .written } off w with h | h | ⟨reg, h⟩ | h
        · exact .inr (.inr (.inl ⟨by omega, h.2⟩))
        · exact .inr (.inr (.inr (.inl h)))
        · exact .inr (.inr (.inr (.inr (.inl ⟨reg, h⟩))))
        · exact .inr (.inr (.inr (.inr (.inr (.inl h)))))
      · exact .inr (.inr (.inr (.inr (.inr (.inr ⟨off - 0x1000, by simp [hm, hb]⟩)))))

/-- What a write to a register other than CMD and CTRL can do. -/
theorem State.opRegWrite_cases (s : State) (reg : OpReg) (w : Word) :
    ((s.busy = true ∨ (reg.lockable = true ∧ s.regs.lock = true)) ∧ s.opRegWrite reg w = s.ignoreWrite) ∨
    (s.busy = false ∧ (reg.lockable && s.regs.lock) = false ∧
      s.opRegWrite reg w = { s with regs := s.regs.put reg w }) := by
  unfold State.opRegWrite
  cases s.busy <;> cases reg.lockable <;> cases s.regs.lock <;> simp

/-- What a write to the DBUF window can do. -/
theorem State.dbufWrite_cases (s : State) (a : Nat) (width : Width) (w : Word) :
    (s.params.dbufSize ≤ a ∧ s.dbufWrite a width w = s) ∨
    (a < s.params.dbufSize ∧ s.busy = true ∧ s.dbufWrite a width w = s.ignoreWrite) ∨
    (a < s.params.dbufSize ∧ s.busy = false ∧
      s.dbufWrite a width w = { s with dbuf := s.dbuf.putAll a (wordBytes w width.bytes) }) := by
  unfold State.dbufWrite
  by_cases h : s.params.dbufSize ≤ a
  · simp [h]
  · cases hb : s.busy <;> simp [h] <;> omega

end Sys2Proof.Machine
end

