-- ==== Sys2Proof/Laws/PerInstr.lean ====
section
/-! SUPPORT. The family of lemmas with one member per command: its opcode stands in bits [3:0] of its word and nothing
stands above it (spec/30_encoding.md R100). -/

namespace Sys2Proof.Laws.OpcodeField

/-- The word of a command holds the command's opcode in bits [3:0] and 0 in the ignored bits. -/
def Statement (i : Instr) : Prop := opcField (encode i) = i.opcode ∧ encode i &&& 0xFFFFFFF0 = 0

/-- What the shared encoder does with any opcode. -/
theorem of_opcode (i : Instr) : Statement i := by
  have h : ∀ opc : Opc, opcField (opc.setWidth 32) = opc ∧ opc.setWidth 32 &&& (0xFFFFFFF0 : Word) = 0 := by decide
  exact h i.opcode

theorem nop : Statement .nop := of_opcode _
theorem escape : Statement .escape := of_opcode _
theorem unescape : Statement .unescape := of_opcode _
theorem cksum : Statement .cksum := of_opcode _
theorem ckverify : Statement .ckverify := of_opcode _
theorem build : Statement .build := of_opcode _
theorem parse : Statement .parse := of_opcode _
theorem send : Statement .send := of_opcode _
theorem clear : Statement .clear := of_opcode _
theorem illegal9 : Statement .illegal9 := of_opcode _
theorem illegalAB (opc : Opc) : Statement (.illegalAB opc) := of_opcode _
theorem illegalCF (opc : Opc) : Statement (.illegalCF opc) := of_opcode _

end Sys2Proof.Laws.OpcodeField
end

