-- ==== Sys2Proof/Tests/Slice0.lean ====
section
/-! SUPPORT. Tests of the model on fixed values, each from the place of spec/ its comment names, and, for every statement
with hypotheses, a state that meets them (one for each clause, at a boundary of its range). -/

namespace Sys2Proof.Tests

open Sys2Proof Sys2Proof.Machine Sys2Proof.Claims

/-! ## Small states -/

/-- The next state of an outcome, if it is one. -/
def nextOf (o : Host.Outcome State Fault Refusal) : Option State :=
  match o with
  | .next s => some s
  | .fault _ => none
  | .refused _ => none

/-- A region register: offset and length. -/
def region (ptr len : Nat) : Word := BitVec.ofNat 32 (ptr + 65536 * len)

/-- The setup of the vectors: the reset registers, the input `data` at offset 0, the output region of 16 bytes at
0x100, and the given profile. -/
def setup (profile : Word) (data : List Byte) : State :=
  { State.reset with
    regs := { Regs.reset with
      profile := profile
      src := region 0 data.length
      dst := region 0x100 16 }
    dbuf := Memory.putAll [] 0 data }

/-- The default profile of the vectors. -/
def plain (data : List Byte) : State := setup 0x000C2130 data

/-- A state in its Exec step, the command `opc` pending. -/
def atExec (opc : Opc) (s : State) : State :=
  { s with
    agent := .exec
    pendOpc := opc
    status := { s.status with st := .exec, lastOpc := opc } }

/-- A state in which the host's write is the current event. -/
def atWrite (s : State) : State := { s with agent := .host }

/-- A state with these events to come. -/
def withEvents (es : List Event) (s : State) : State := { s with events := es }

/-- A SEND in the given sequencer state, its frame built. -/
def inSend (st : SeqState) (s : State) : State :=
  { s with
    pendOpc := 0x7
    status := { s.status with st := st, lastOpc := 0x7 }
    tx := { s.tx with frame := sendFrame s } }

/-- The registers of a state changed. -/
def withRegs (f : Regs → Regs) (s : State) : State := { s with regs := f s.regs }

/-! ## WellFormed: the ill-formed terms are refused -/

theorem test_row_ab_refuses_other_opcodes :
    (Instr.illegalAB 0x9).wellFormed = false ∧ (Instr.illegalAB 0xC).wellFormed = false ∧
    (Instr.illegalAB 0x3).wellFormed = false := by decide

theorem test_row_cf_refuses_other_opcodes :
    (Instr.illegalCF 0xB).wellFormed = false ∧ (Instr.illegalCF 0x4).wellFormed = false ∧
    (Instr.illegalCF 0x0).wellFormed = false := by decide

/-! ## Decode: words written out from 30_encoding.md R101, one for each command -/

theorem test_decode_nop : decode 0b00000000000000000000000000000000 = .nop := by decide
theorem test_decode_escape : decode 0b00000000000000000000000000000001 = .escape := by decide
theorem test_decode_unescape : decode 0b00000000000000000000000000000010 = .unescape := by decide
theorem test_decode_cksum : decode 0b00000000000000000000000000000011 = .cksum := by decide
theorem test_decode_ckverify : decode 0b00000000000000000000000000000100 = .ckverify := by decide
theorem test_decode_build : decode 0b00000000000000000000000000000101 = .build := by decide
theorem test_decode_parse : decode 0b00000000000000000000000000000110 = .parse := by decide
theorem test_decode_send : decode 0b00000000000000000000000000000111 = .send := by decide
theorem test_decode_clear : decode 0b00000000000000000000000000001000 = .clear := by decide
theorem test_decode_illegal9 : decode 0b00000000000000000000000000001001 = .illegal9 := by decide
theorem test_decode_illegalAB : decode 0b00000000000000000000000000001011 = .illegalAB 0xB := by decide
theorem test_decode_illegalCF : decode 0b00000000000000000000000000001110 = .illegalCF 0xE := by decide

/-- V29: bits [31:4] are ignored. -/
theorem test_decode_ignores_high_bits : decodeTableWord 32 0xFFFFFFF3 = some .cksum := by decide

/-! ## One step of each command (95_test_vectors.md) -/

/-- V29: NOP leaves STATUS 0. -/
theorem test_nop : (nextOf (step (State.reset.withFetchWord 32 0x0))).map State.statusWord = some 0x00000000 := by
  decide

/-- V29: CLEAR. -/
theorem test_clear : (nextOf (step (State.reset.withFetchWord 32 0x8))).map State.statusWord = some 0x08000000 := by
  decide

/-- V29: CKSUM accepted, before its Exec step. -/
theorem test_accept : (nextOf (step (State.reset.withFetchWord 32 0x3))).map State.statusWord = some 0x03000009 := by
  decide

/-- V1. -/
theorem test_escape :
    (nextOf (exec .escape (atExec 0x1 (plain [0x01, 0x02, 0x10])))).map
      (fun t => (t.statusWord, t.results.resultWord, t.memRead 0x100 5)) =
    some (0x01000015, 0x00000005, [0x01, 0x10, 0x02, 0x10, 0x10]) := by decide

/-- V10. -/
theorem test_unescape :
    (nextOf (exec .unescape (atExec 0x2 (plain [0x01, 0x10, 0x02, 0x10, 0x10])))).map
      (fun t => (t.statusWord, t.results.resultWord, t.memRead 0x100 3)) =
    some (0x02000015, 0x00000003, [0x01, 0x02, 0x10]) := by decide

/-- V11: a truncated escape. -/
theorem test_unescape_truncated :
    (nextOf (exec .unescape (atExec 0x2 (plain [0x10, 0x10, 0x10])))).map State.statusWord = some 0x02010416 := by
  decide

/-- V21: the ADD sum wraps, then bit 7 is set. -/
theorem test_cksum_add :
    (nextOf (exec .cksum (atExec 0x3 (setup 0x000C2131 [0xFF, 0x01])))).map
      (fun t => (t.statusWord, t.results.ckResWord)) = some (0x03000015, 0x00000080) := by decide

/-- V23: CRC-16 of one byte, reset parameters. -/
theorem test_cksum_crc :
    (nextOf (exec .cksum (atExec 0x3 (setup 0x000C2132 [0x01])))).map
      (fun t => (t.results.ckResWord, t.results.resultWord)) = some (0x0000C0C1, 0x00000002) := by decide +kernel

/-- V13: a one-byte checksum is compared with CK_REF[7:0]. -/
theorem test_ckverify :
    (nextOf (exec .ckverify (atExec 0x4 (withRegs (fun r => { r with ckSeed := 0x7F, ckRef := 0xFF53 })
      (plain [0x01, 0x02, 0x7E, 0x10, 0x41]))))).map State.statusWord = some 0x04000035 := by decide

/-- V15: BUILD, default profile. -/
theorem test_build :
    (nextOf (exec .build (atExec 0x5 (withRegs (fun r => { r with txHdr := 0x00300001 })
      (plain [0x02, 0x10, 0x41]))))).map (fun t => (t.statusWord, t.results.ckResWord, t.memRead 0x100 10)) =
    some (0x05000015, 0x00000062, [0x02, 0x01, 0x30, 0x10, 0x02, 0x10, 0x10, 0x41, 0x03, 0x62]) := by decide

/-- V16: BUILD with the checksum field high byte first. -/
theorem test_build_crc_order :
    (nextOf (exec .build (atExec 0x5 (withRegs (fun r => { r with txHdr := 0x00001234 })
      (setup 0x000C22FE [0x41, 0x42]))))).map (fun t => (t.results.ckResWord, t.memRead 0x100 9)) =
    some (0x00007BB0, [0x02, 0x12, 0x34, 0x02, 0x41, 0x42, 0x03, 0x7B, 0xB0]) := by decide +kernel

/-- V19: PARSE after leading noise. -/
theorem test_parse :
    (nextOf (exec .parse (atExec 0x6 (plain [0xFF, 0x00, 0x03, 0x02, 0x01, 0x30, 0x41, 0x42, 0x03, 0x32])))).map
      (fun t => (t.statusWord, t.results.resultWord, t.results.rxHdrWord, t.memRead 0x100 2)) =
    some (0x06000015, 0x000A0002, 0x00300001, [0x41, 0x42]) := by decide

/-- V20: PARSE of a frame with a new start marker in its body. -/
theorem test_parse_no_end :
    (nextOf (exec .parse (atExec 0x6 (plain [0x02, 0x01, 0x30, 0x41, 0x02, 0x42, 0x03, 0x00])))).map
      (fun t => (t.statusWord, t.results.resultWord, t.results.rxHdrWord)) =
    some (0x06020416, 0x00050000, 0x00000000) := by decide

/-- V31, V35: SEND under line control offers its first byte with RTS asserted. -/
theorem test_send :
    (nextOf (exec .send (atExec 0x7 (withRegs (fun r => { r with txHdr := 0x00300001 })
      (setup 0x000D2130 [0x41]))))).map (fun t => (t.statusWord, t.tx.frame, t.offered)) =
    some (0x0700004A, [0x02, 0x01, 0x30, 0x41, 0x03, 0x70], some 0x02) := by decide

/-- V31: an unrecognised status byte, MALFORMED not retryable. -/
theorem test_send_bad_status :
    (nextOf (step (withEvents [.rxByte 0x99] (inSend .await (plain [0x41]))))).map State.statusWord =
    some 0x07070416 := by decide

/-- V29: the illegal opcodes. -/
theorem test_illegal9 :
    (nextOf (exec .illegal9 (atExec 0x9 State.reset))).map State.statusWord = some 0x09000B16 := by decide

theorem test_illegalAB :
    (nextOf (exec (.illegalAB 0xB) (atExec 0xB State.reset))).map State.statusWord = some 0x0B000B16 := by decide

theorem test_illegalCF :
    (nextOf (exec (.illegalCF 0xF) (atExec 0xF State.reset))).map State.statusWord = some 0x0F000B16 := by decide

/-! ## The canonical form of DBUF -/

theorem test_memory_put_keeps_order :
    Memory.putAll [(5, 0xAA)] 4 [0x01, 0x02, 0x03] = [(4, 0x01), (5, 0x02), (6, 0x03)] ∧
    Memory.wf (Memory.putAll [(5, 0xAA)] 4 [0x01, 0x02, 0x03]) = true ∧ State.reset.dbuf.wf = true := by decide

/-! ## States that meet the statements' hypotheses: commands -/

theorem witness_CommandDecodingAndEncodingAgree :
    (Instr.illegalAB 0xB).wellFormed = true ∧ (Instr.illegalCF 0xF).wellFormed = true := by decide

theorem witness_EveryWordMatchesExactlyItsTableRow :
    (Instr.illegalAB 0xA).wellFormed = true ∧
    (0xFFFFFFFB : Word) &&& (tableRow (.illegalAB 0xA)).2 = (tableRow (.illegalAB 0xA)).1 := by decide

theorem witness_StepRunsTheDecodedInstruction_write :
    (State.reset.withFetchWord 32 0xFFFFFFF8).events =
      .hostWrite (State.reset.params.base + 4) .w32 0xFFFFFFF8 :: [] := by decide

theorem witness_StepRunsTheDecodedInstruction_exec :
    let s := withEvents [.exec] (atExec 0x3 (plain [0x01]))
    s.events = .exec :: [] ∧ s.status.st = .exec := by decide

theorem witness_StepRunsTheDecodedInstruction_not_enabled :
    let s := withEvents [.exec, .tick] (plain [])
    s.events = .exec :: [.tick] ∧ s.status.st ≠ .exec := by decide

theorem witness_StepRunsTheDecodedInstruction_idle_exec :
    let s := atExec 0x9 (plain [])
    s.events = [] ∧ s.status.st = .exec := by decide

theorem witness_StepRunsTheDecodedInstruction_idle_wait :
    State.reset.events = [] ∧ State.reset.status.st ≠ .exec := by decide

theorem witness_BusyBlockRejectsEveryCommandButNop :
    let s := atWrite (inSend .retryWait (plain [0x41]))
    Instr.clear.wellFormed = true ∧ Instr.nop.opcode = 0x0 ∧ (Instr.illegalCF 0xF).wellFormed = true ∧
      s.agent ≠ .exec ∧ s.busy = true := by decide

theorem witness_AcceptanceClearsResultsAndEntersExec :
    let s := atWrite (plain [])
    s.agent ≠ .exec ∧ s.busy = false ∧ Instr.nop.opcode = 0x0 ∧ Instr.clear.opcode = 0x8 ∧
      (Instr.illegalAB 0xA).wellFormed = true ∧ (Instr.illegalAB 0xA).opcode ≠ 0x0 ∧
      (Instr.illegalAB 0xA).opcode ≠ 0x8 ∧ Instr.send.opcode ≠ 0x0 ∧ Instr.send.opcode ≠ 0x8 := by decide

theorem witness_ClearReturnsToIdle :
    (plain []).busy = false ∧ (inSend .await (plain [0x41])).busy = true := by decide

theorem witness_IllegalOpcodesFailInTheirExecStep :
    (atExec 0x9 (plain [])).agent = .exec ∧ (Instr.illegalAB 0xA).wellFormed = true ∧
      (Instr.illegalCF 0xC).wellFormed = true := by decide

theorem witness_ReservedProfileFailsEveryFunctionalCommand :
    Instr.escape ∈ functional ∧ Instr.send ∈ functional ∧
      (atExec 0x1 (setup 0x000C2133 [])).agent = .exec ∧ (atExec 0x1 (setup 0x000C2133 [])).regs.ckAlg = 3 ∧
      (atExec 0x1 (setup 0x000C2330 [])).regs.hdrMode = 3 := by decide

theorem witness_RegionsOutsideDbufFailWithBounds_src :
    let s := atExec 0x4 (withRegs (fun r => { r with src := region 2048 1 }) (plain []))
    s.agent = .exec ∧ LegalConfig s.regs ∧ Instr.ckverify ∈ functional ∧
      s.regs.srcPtr + s.regs.srcLen > s.params.dbufSize := by decide

theorem witness_RegionsOutsideDbufFailWithBounds_dst :
    let s := atExec 0x6 (withRegs (fun r => { r with src := region 2048 0, dst := region 2048 1 }) (plain []))
    s.agent = .exec ∧ LegalConfig s.regs ∧ Instr.parse ∈ writesDst ∧
      s.regs.srcPtr + s.regs.srcLen ≤ s.params.dbufSize ∧
      s.regs.dstPtr + s.regs.dstCap > s.params.dbufSize := by decide

theorem witness_RegionsOutsideDbufFailWithBounds_empty :
    let s := atExec 0x3 (withRegs (fun r => { r with src := region 2048 0, dst := region 2048 1 }) (plain []))
    s.agent = .exec ∧ LegalConfig s.regs ∧ s.regs.srcLen = 0 ∧ s.regs.srcPtr ≤ s.params.dbufSize := by decide

theorem witness_OversizedPayloadFailsWithTooLarge_max :
    let s := atExec 0x5 (withRegs (fun r => { r with src := region 0 3, limits := 0x00020000 }) (plain []))
    s.agent = .exec ∧ LegalConfig s.regs ∧ SrcInside s ∧ DstInside s ∧ s.regs.srcLen > s.regs.maxPl := by decide

theorem witness_OversizedPayloadFailsWithTooLarge_len :
    let s := atExec 0x7 (withRegs (fun r => { r with src := region 0 256, limits := 0x01000000 })
      (setup 0x000C2230 []))
    s.agent = .exec ∧ LegalConfig s.regs ∧ SrcInside s ∧ DstInside s ∧ ¬s.regs.srcLen > s.regs.maxPl ∧
      s.regs.hdrMode = 2 ∧ s.regs.srcLen > 255 := by decide

/-! ## The codecs -/

theorem witness_UnescapeInvertsEscape :
    Regs.reset.unescape [0x10, 0x02, 0x10, 0x10] = some [0x02, 0x10] ∧
      regular Regs.reset [0x10, 0x02, 0x10, 0x10] = true ∧
      Regs.reset.unescape [0x10, 0x41] = some [0x41] ∧ regular Regs.reset [0x10, 0x41] = false := by decide

theorem witness_EscapeOutputLaws :
    Regs.reset.unescape [0x10, 0x10, 0x02] = some [0x10, 0x02] := by decide

theorem witness_EscapeCompletes :
    let s := atExec 0x1 (withRegs (fun r => { r with dst := region 2046 2 }) (plain [0x10]))
    let u := atExec 0x1 (withRegs (fun r => { r with dst := region 2047 1 }) (plain [0x10]))
    (s.agent = .exec ∧ LegalConfig s.regs ∧ SrcInside s ∧ DstInside s ∧
      (s.regs.escape s.srcBytes).length ≤ s.regs.dstCap) ∧
    (u.agent = .exec ∧ LegalConfig u.regs ∧ SrcInside u ∧ DstInside u ∧
      (u.regs.escape u.srcBytes).length > u.regs.dstCap) := by decide

theorem witness_UnescapeCompletes :
    let s := atExec 0x2 (withRegs (fun r => { r with dst := region 2048 0 }) (plain [0x10]))
    let u := atExec 0x2 (withRegs (fun r => { r with dst := region 2048 0 }) (plain [0x41]))
    let v := atExec 0x2 (withRegs (fun r => { r with dst := region 2047 1 }) (plain [0x10, 0x10]))
    (s.agent = .exec ∧ LegalConfig s.regs ∧ SrcInside s ∧ DstInside s ∧ s.regs.unescape s.srcBytes = none) ∧
    (u.agent = .exec ∧ LegalConfig u.regs ∧ SrcInside u ∧ DstInside u ∧
      u.regs.unescape u.srcBytes = some [0x41] ∧ [(0x41 : Byte)].length > u.regs.dstCap) ∧
    (v.agent = .exec ∧ LegalConfig v.regs ∧ SrcInside v ∧ DstInside v ∧
      v.regs.unescape v.srcBytes = some [0x10] ∧ [(0x10 : Byte)].length ≤ v.regs.dstCap) := by decide

theorem witness_XorDetectsEverySingleBitError : 1 < [(0x41 : Byte), 0x42].length ∧ (7 : Nat) < 8 := by decide

theorem witness_AddMissesExactlyBitSeven : 0 < [(0x41 : Byte)].length ∧ (6 : Nat) < 7 := by decide

theorem witness_CrcWithoutPolynomialIgnoresTheData :
    ({ Regs.reset with crcCfg := 0 } : Regs).crcPoly = 0 ∧ [(0x00 : Byte)].length = [(0xFF : Byte)].length := by decide

theorem witness_CrcDetectsEverySingleBitError :
    ({ Regs.reset with crcCfg := 0x00008000 } : Regs).crcPoly ≠ 0 ∧ 0 < [(0x41 : Byte)].length ∧ (7 : Nat) < 8 := by
  decide

theorem witness_ChecksumDependsOnLogicalBytesAlone :
    let q : Regs := { Regs.reset with profile := 0x000C2530, rsv := 1 }
    let z : Regs := { Regs.reset with profile := 0x000C2100 }
    (q = { Regs.reset with profile := q.profile, rsv := q.rsv } ∧
      q.profile &&& ~~~(0x00000400 : Word) = Regs.reset.profile &&& ~~~(0x00000400 : Word)) ∧
    (z.incStart = false ∧ z.incAddr = false ∧ z.incCtrl = false ∧ z.incEnd = false) := by decide

theorem witness_CksumCompletes :
    let s := atExec 0x3 (withRegs (fun r => { r with src := region 0 2048 }) (setup 0x000C2132 []))
    s.agent = .exec ∧ LegalConfig s.regs ∧ SrcInside s := by decide

theorem witness_CkverifyCompletes :
    let s := atExec 0x4 (withRegs (fun r => { r with src := region 2048 0 }) (plain []))
    s.agent = .exec ∧ LegalConfig s.regs ∧ SrcInside s := by decide

theorem witness_FrameLengthLaw :
    let r : Regs := { Regs.reset with profile := 0 }
    r.addrLen = false ∧ r.hdrMode = 0 ∧ r.escHdr = false ∧ (r.ckAlg = 0 ∨ r.ckAlg = 1) := by decide

theorem witness_ParsingInvertsBuilding :
    let r : Regs := { Regs.reset with profile := 0x000C32B2, rxExp := 0x00FF1234, dst := region 0 255 }
    let p : List Byte := List.replicate 255 0x10
    r.endMk ≠ r.escMk ∧ r.hdrMode ≠ 3 ∧ (r.hdrMode = 2 → p.length ≤ 255) ∧ r.startMk ∉ [(0x03 : Byte), 0x10] ∧
      p.length ≤ r.dstCap ∧ (r.addrChk = false ∨ r.addrLow r.expAddr = r.addrLow 0x1234) ∧
      (r.expLen = 0 ∨ r.expLen = p.length) := by decide +kernel

theorem witness_BuildCompletes :
    let s := atExec 0x5 (withRegs (fun r => { r with dst := region 2043 5 }) (plain []))
    let u := atExec 0x5 (withRegs (fun r => { r with dst := region 2044 4 }) (plain []))
    (s.agent = .exec ∧ LegalConfig s.regs ∧ SrcInside s ∧ DstInside s ∧ PayloadFits s.regs ∧
      (sendFrame s).length ≤ s.regs.dstCap) ∧
    (u.agent = .exec ∧ LegalConfig u.regs ∧ SrcInside u ∧ DstInside u ∧ PayloadFits u.regs ∧
      (sendFrame u).length > u.regs.dstCap) := by decide

/-- The parser of a default profile, in the given phase, after the header 01 30 and the given body. -/
def rxAt (ph : RxPhase) (body : List Byte) : Rx := { ph := ph, hdr := [0x01, 0x30], body := body, ck := [] }

theorem witness_ParseCompletes_frame :
    let s := atExec 0x6 (withRegs (fun r => { r with dst := region 2047 1 })
      (plain [0x02, 0x01, 0x30, 0x41, 0x03, 0x70]))
    (s.agent = .exec ∧ LegalConfig s.regs ∧ SrcInside s ∧ DstInside s) ∧
      s.regs.rxFeed Rx.reset s.srcBytes = ({ rxAt .ck [0x41] with ck := [0x70] }, 6, .frame 0x01 0x30 [0x41]) := by
  decide

theorem witness_ParseCompletes_bad :
    let s := atExec 0x6 (plain [0x02, 0x01, 0x30, 0x02])
    (s.agent = .exec ∧ LegalConfig s.regs ∧ SrcInside s ∧ DstInside s) ∧
      s.regs.rxFeed Rx.reset s.srcBytes = (rxAt .body [], 4, .bad none (.malformed .noEnd)) := by decide

theorem witness_ParseCompletes_bad_header :
    let s := atExec 0x6 (plain [0x02, 0x01, 0x30, 0x41, 0x03, 0x71])
    (s.agent = .exec ∧ LegalConfig s.regs ∧ SrcInside s ∧ DstInside s) ∧
      s.regs.rxFeed Rx.reset s.srcBytes =
        ({ rxAt .ck [0x41] with ck := [0x71] }, 6, .bad (some (0x01, 0x30)) .ckMismatch) := by decide

theorem witness_ParseCompletes_end :
    let s := atExec 0x6 (plain [0x02, 0x01, 0x30, 0x10])
    (s.agent = .exec ∧ LegalConfig s.regs ∧ SrcInside s ∧ DstInside s) ∧
      s.regs.rxFeed Rx.reset s.srcBytes = (rxAt .escp [], 4, .cont) := by decide

theorem witness_LeadingNoiseIsSkipped : Regs.reset.startMk ∉ [(0x03 : Byte), 0x10, 0x00] := by decide

theorem witness_EqualEndAndEscapeMarkersNeverReceive :
    let s := atExec 0x6 (withRegs (fun r => { r with marks := 0x00101002 }) (plain [0x02, 0x01, 0x30, 0x41, 0x10, 0x70]))
    s.agent = .exec ∧ LegalConfig s.regs ∧ SrcInside s ∧ DstInside s ∧ s.regs.endMk = s.regs.escMk := by decide

theorem witness_OnlyVerifiedFramesPassTheChecksum :
    let r : Regs := { Regs.reset with profile := 0x000C3130, rxExp := 0x00000002, dst := region 0 16 }
    let q : Regs := { Regs.reset with rxExp := 0x00030000, dst := region 0 16 }
    let l : Regs := { Regs.reset with profile := 0x000C2230, dst := region 0 16 }
    let x : Rx := { rxAt .ck [0x41] with ck := [0x70] }
    r.rxFeed Rx.reset [0x02, 0x01, 0x30, 0x41, 0x03, 0x70] = (x, 6, .bad (some (0x01, 0x30)) .addrMismatch) ∧
    q.rxFeed Rx.reset [0x02, 0x01, 0x30, 0x41, 0x03, 0x70] =
      (x, 6, .bad (some (0x01, 0x30)) (.malformed .expLen)) ∧
    l.rxFeed Rx.reset [0x02, 0x01, 0x30, 0x41, 0x03, 0x70] =
      (x, 6, .bad (some (0x01, 0x30)) (.malformed .lenField)) ∧
    ({ q with rxExp := 0x00010000 } : Regs).rxFeed Rx.reset [0x02, 0x01, 0x30, 0x41, 0x03, 0x70] =
      (x, 6, .frame 0x01 0x30 [0x41]) := by decide

/-! ## The transaction engine -/

/-- A SEND of `[41]` under line control by RTS (V35). -/
def lineControl : State := setup 0x000D2130 [0x41]

/-- The transmitter of a state at the given phase and index. -/
def txAt (ph : TxPhase) (idx : Nat) (s : State) : State := { s with tx := { s.tx with ph := ph, idx := idx } }

theorem witness_SendStartsItsFirstAttempt :
    let s := atExec 0x7 lineControl
    s.agent = .exec ∧ LegalConfig s.regs ∧ SrcInside s ∧ DstInside s ∧ PayloadFits s.regs := by decide

theorem witness_TxTakeTakesTheOfferedByte :
    let s := withEvents [.txTake] (txAt .emit 4 (inSend .sending (plain [0x41])))
    let u := withEvents [.txTake] (txAt .settle 6 (inSend .sending lineControl))
    (s.events = .txTake :: [] ∧ s.status.st = .sending ∧ s.tx.ph = .emit ∧ s.tx.frame[s.tx.idx]? = some 0x03 ∧
      s.tx.idx + 1 < s.tx.frame.length) ∧
    (u.events = .txTake :: [] ∧ ¬(u.status.st = .sending ∧ u.tx.ph = .emit)) := by decide

/-- A SEND whose last byte is offered and whose TxTake is next. -/
def lastByte (s : State) : State := withEvents [.txTake] (txAt .emit 5 (inSend .sending s))

/-- What the statement about the last byte assumes of such a state. -/
abbrev LastByteOffered (s : State) : Prop :=
  s.events = .txTake :: [] ∧ s.status.st = .sending ∧ s.tx.ph = .emit ∧ s.tx.frame[s.tx.idx]? = some 0x41 ∧
    s.tx.idx + 1 = s.tx.frame.length

theorem witness_LastByteStartsSettleOrAwait :
    let a := lastByte (plain [0x41])
    let b := lastByte (withRegs (fun r => { r with settle := 1 }) lineControl)
    let c := lastByte lineControl
    let d := lastByte (withRegs (fun r => { r with profile := 0x000C0130, tmo := 0 }) (plain [0x41]))
    (LastByteOffered a ∧ a.regs.lcEn = false ∧ a.regs.rxTmo ≠ 0) ∧
    (LastByteOffered b ∧ b.regs.lcEn = true ∧ b.regs.settleT ≠ 0) ∧
    (LastByteOffered c ∧ c.regs.lcEn = true ∧ c.regs.settleT = 0 ∧ c.regs.rxTmo ≠ 0) ∧
    (LastByteOffered d ∧ d.regs.lcEn = false ∧ d.regs.rxTmo = 0 ∧ d.regs.rtyTmo = false) := by decide

/-- The clauses of the deadline 0: retryable without line control, and under line control with SETTLE_T = 0. -/
theorem witness_LastByteStartsSettleOrAwait_zero_deadline :
    let e := lastByte (withRegs (fun r => { r with tmo := 0 }) (plain [0x41]))
    let f := lastByte (withRegs (fun r => { r with tmo := 0 }) lineControl)
    (LastByteOffered e ∧ e.regs.lcEn = false ∧ e.regs.rxTmo = 0 ∧ e.regs.rtyTmo = true) ∧
    (LastByteOffered f ∧ f.regs.lcEn = true ∧ f.regs.settleT = 0 ∧ f.regs.rxTmo = 0) := by decide

/-- A state with a Tick to come and this much left to wait. -/
def ticking (n : Half) (s : State) : State := withEvents [.tick] { s with wcnt := n }

theorem witness_TickCountsTheWaitDown :
    let a := ticking 1 (plain [])
    let b := ticking 1 (txAt .emit 0 (inSend .sending (plain [0x41])))
    let c := ticking 2 (txAt .settle 6 (inSend .sending lineControl))
    let d := ticking 1 (txAt .settle 6 (inSend .sending lineControl))
    let e := ticking 1 (inSend .await (plain [0x41]))
    let f := ticking 1 (inSend .retryWait (plain [0x41]))
    let g := ticking 1 (txAt .settle 6 (inSend .sending (withRegs (fun r => { r with tmo := 0 }) lineControl)))
    (a.events = .tick :: [] ∧ a.status.st.inTransaction = false) ∧
    (b.events = .tick :: [] ∧ b.status.st = .sending ∧ b.tx.ph = .emit) ∧
    (c.events = .tick :: [] ∧ c.status.st = .sending ∧ c.tx.ph = .settle ∧ c.wcnt ≠ 0 ∧ c.wcnt ≠ 1) ∧
    (d.events = .tick :: [] ∧ d.status.st = .sending ∧ d.tx.ph = .settle ∧ d.wcnt = 1 ∧ d.regs.rxTmo ≠ 0) ∧
    (e.events = .tick :: [] ∧ e.status.st = .await ∧ e.wcnt = 1) ∧
    (f.events = .tick :: [] ∧ f.status.st = .retryWait ∧ f.wcnt = 1) ∧
    (g.events = .tick :: [] ∧ g.status.st = .sending ∧ g.tx.ph = .settle ∧ g.wcnt = 1 ∧ g.regs.rxTmo = 0) := by
  decide

theorem witness_RetryPolicy :
    let a := (setup 0x000C0130 []).regs
    let b := { (setup 0x001C6130 []) with regs := { (setup 0x001C6130 []).regs with limits := 0x00FF0001 } }
    (a.rtyTmo = false ∧ a.rtyMal = false) ∧
    (b.regs.rtyTmo = true ∧ b.regs.rtyMal = true ∧ b.results.retryCnt < b.regs.maxRetry) ∧
    ((setup 0x001C6130 []).regs.maxRetry ≤ (setup 0x001C6130 []).results.retryCnt) := by decide

/-- A SEND in AWAIT with a received byte to come. -/
def receiving (b : Byte) (s : State) : State := withEvents [.rxByte b] (inSend .await s)

theorem witness_StatusByteEndsTheAttempt :
    let s := setup 0x001C2130 [0x41]
    let r := s.regs
    ((receiving 0x06 s).events = .rxByte 0x06 :: [] ∧ (receiving 0x06 s).status.st = .await ∧ r.rspMode = false) ∧
    (r.ackEn = true ∧ (0x06 : Byte) = r.ackCode) ∧
    (¬(r.ackEn = true ∧ (0x15 : Byte) = r.ackCode) ∧ r.nackEn = true ∧ (0x15 : Byte) = r.nackCode) ∧
    (¬(r.ackEn = true ∧ (0x00 : Byte) = r.ackCode) ∧ ¬(r.nackEn = true ∧ (0x00 : Byte) = r.nackCode) ∧
      r.busyEn = true ∧ (0x00 : Byte) = r.busyCode) ∧
    (¬(r.ackEn = true ∧ (0x07 : Byte) = r.ackCode) ∧ ¬(r.nackEn = true ∧ (0x07 : Byte) = r.nackCode) ∧
      ¬(r.busyEn = true ∧ (0x07 : Byte) = r.busyCode)) := by decide

theorem witness_ByteOutsideAwaitIsDroppedAndCounted :
    let s := withEvents [.rxByte 0x55] { plain [] with results := { Results.reset with dropCnt := 0xFFFF } }
    s.events = .rxByte 0x55 :: [] ∧ s.status.st ≠ .await := by decide

/-- A SEND in AWAIT in frame mode (RSP_MODE = 1, XOR, ADDR_CHK = 0) with this parser and this byte to come. -/
def replying (x : Rx) (b : Byte) : State :=
  { receiving b (withRegs (fun r => { r with dst := region 2047 1 }) (setup 0x000C2930 [0x41])) with rx := x }

theorem witness_ReplyByteGoesToTheParser :
    let a := replying Rx.reset 0x02
    let f := replying (rxAt .ck [0x41]) 0x70
    let n := replying (rxAt .body [0x41]) 0x02
    let m := replying (rxAt .ck [0x41]) 0x71
    (a.events = .rxByte 0x02 :: [] ∧ a.status.st = .await ∧ a.regs.rspMode = true ∧
      a.regs.rxStep a.rx 0x02 = ({ Rx.reset with ph := .hdr }, .cont)) ∧
    (f.events = .rxByte 0x70 :: [] ∧ f.status.st = .await ∧ f.regs.rspMode = true ∧
      f.regs.rxStep f.rx 0x70 = ({ rxAt .ck [0x41] with ck := [0x70] }, .frame 0x01 0x30 [0x41]) ∧
      [(0x41 : Byte)].length ≤ f.regs.dstCap ∧ DstInside f) ∧
    (n.events = .rxByte 0x02 :: [] ∧ n.status.st = .await ∧ n.regs.rspMode = true ∧
      n.regs.rxStep n.rx 0x02 = (rxAt .body [0x41], .bad none (.malformed .noEnd))) ∧
    (m.events = .rxByte 0x71 :: [] ∧ m.status.st = .await ∧ m.regs.rspMode = true ∧
      m.regs.rxStep m.rx 0x71 = ({ rxAt .ck [0x41] with ck := [0x71] }, .bad (some (0x01, 0x30)) .ckMismatch)) := by
  decide

theorem witness_BusyResponderExhaustsTheRetries :
    let s := atExec 0x7 (withRegs (fun r => { r with codes := 0x00071506, limits := 0x00FF0001 })
      (setup 0x001C2130 [0x41]))
    let t := withEvents (.exec :: schedule s [.rxByte s.regs.busyCode]) s
    SendReady t ∧ t.regs.rspMode = false ∧ t.regs.rxTmo ≠ 0 ∧ t.regs.busyEn = true ∧
      ¬(t.regs.ackEn = true ∧ t.regs.busyCode = t.regs.ackCode) ∧
      ¬(t.regs.nackEn = true ∧ t.regs.busyCode = t.regs.nackCode) ∧
      t.events = .exec :: schedule t [.rxByte t.regs.busyCode] := by
  refine ⟨by decide, by decide, by decide, by decide, by decide, by decide, rfl⟩

theorem witness_TimedOutSendTakesExactlyTheseEvents :
    let s := atExec 0x7 (withRegs (fun r => { r with limits := 0x00FF0001, tmo := 0x00010002 }) (plain [0x41]))
    let t := withEvents (.exec :: schedule s (List.replicate s.regs.rxTmo.toNat .tick)) s
    SendReady t ∧ t.regs.rtyTmo = true ∧ t.regs.tmoMode = false ∧
      t.events = .exec :: schedule t (List.replicate t.regs.rxTmo.toNat .tick) := by
  refine ⟨by decide, by decide, by decide, rfl⟩

/-- A SEND of `[41]` with its first byte offered, a received byte to come (V36). -/
def running : State := withEvents [.rxByte 0x55] (inSend .sending (plain [0x41]))

/-- `running` satisfies the invariant. -/
theorem running_inv : running.Inv where
  params := by decide
  dbufWf := by decide
  dbufInside := by decide
  reserved := by
    intro reg
    cases reg with
    | rsv k => revert k; decide
    | _ => decide
  pending := by decide
  lastOpc := by decide
  sending := by decide
  checked := by decide
  frame := by decide
  offers := by decide
  settles := by decide
  awaits := by decide
  backsOff := by decide
  retries := by decide
  rts := by decide
  dtr := by decide
  errFailed := by decide
  errNotBusy := by decide
  cause := by decide
  sub := by decide
  vok := by decide
  rxBody := by decide
  rxHunt := by decide
  rxHdr := by decide
  rxInFrame := by decide
  rxCk := by decide

/-- The Exec step of a SEND under line control. -/
def sendExec : State := atExec 0x7 lineControl

theorem witness_WireCarriesOneFramePerAttempt :
    (sendExec.agent = .exec ∧ SendReady sendExec ∧
      exec .send sendExec = .next (started { sendExec with
        tx := { sendExec.tx with frame := sendFrame sendExec } })) ∧
    (running.Inv ∧ running.status.st.inTransaction = true ∧ NoReset running ∧ WireLaw [] running ∧
      step running = .next { running with
        agent := .rxLine, events := [], results := { running.results with dropCnt := 1 } }) := by
  refine ⟨⟨by decide, by decide, rfl⟩, running_inv, by decide, by decide, ?_, rfl⟩
  show running.wire = [] ++ copies running.tx.frame 0 ++ running.tx.frame.take 0
  decide

/-! ## Host accesses, reset, the invariant -/

theorem witness_RegisterReadsBackWhatWasStored :
    let s := withEvents [.hostWrite 0x010 .w32 0xFFFFFFFF, .hostRead 0x010 .w32] (plain [])
    let u := withEvents [.hostWrite 0x07C .w32 0xFFFFFFFF, .hostRead 0x07C .w32] (plain [])
    (OpReg.ofOffset 0x010 = some .profile ∧ s.busy = false ∧ (OpReg.profile.lockable && s.regs.lock) = false ∧
      s.events = .hostWrite (s.params.base + 0x010) .w32 0xFFFFFFFF :: .hostRead (s.params.base + 0x010) .w32 :: []) ∧
    (OpReg.ofOffset 0x07C = some (.rsv 7) ∧ u.busy = false ∧ ((OpReg.rsv 7).lockable && u.regs.lock) = false ∧
      u.events = .hostWrite (u.params.base + 0x07C) .w32 0xFFFFFFFF :: .hostRead (u.params.base + 0x07C) .w32 :: []) :=
  by decide

theorem witness_IgnoredWritesSetWrIgn :
    let a := withEvents [.hostWrite 0x03C .w32 5] (inSend .sending (plain [0x41]))
    let l := withEvents [.hostWrite 0x07C .w32 5] (withRegs (fun r => { r with lock := true }) (plain []))
    let d := withEvents [.hostWrite 0x17FF .w8 1] (inSend .sending (plain [0x41]))
    let c := withEvents [.hostWrite 0x00C .w32 1] (inSend .sending (plain [0x41]))
    (OpReg.ofOffset 0x03C = some .src ∧ a.busy = true ∧
      a.events = .hostWrite (a.params.base + 0x03C) .w32 5 :: []) ∧
    (OpReg.ofOffset 0x07C = some (.rsv 7) ∧ (OpReg.rsv 7).lockable = true ∧ l.regs.lock = true ∧
      l.events = .hostWrite (l.params.base + 0x07C) .w32 5 :: []) ∧
    (d.params.legal ∧ d.busy = true ∧ 2047 < d.params.dbufSize ∧ 2047 % Width.w8.bytes = 0 ∧
      d.events = .hostWrite (d.params.base + 0x1000 + 2047) .w8 1 :: []) ∧
    c.events = .hostWrite (c.params.base + 0x00C) .w32 1 :: [] := by decide

theorem witness_LockHoldsTheProfileUntilReset :
    let s := withEvents [.tick] (withRegs (fun r => { r with lock := true }) (plain []))
    s.regs.lock = true ∧ NoReset s ∧ step s = .next { s with agent := .timebase, events := [] } :=
  ⟨by decide, by decide, rfl⟩

/-- `running` is Busy and its next step is no Reset: the hypotheses of OperandsAreConstantWhileBusy,
OnlyCompletionOrResetLeavesBusy and CommandsWriteOnlyTheDstRegionOnSuccess. -/
theorem witness_busy_step :
    running.Inv ∧ running.busy = true ∧ NoReset running ∧
      step running = .next { running with
        agent := .rxLine, events := [], results := { running.results with dropCnt := 1 } } :=
  ⟨running_inv, by decide, by decide, rfl⟩

/-- The last clause of OnlyCompletionOrResetLeavesBusy: a host's event comes next. -/
theorem witness_OnlyCompletionOrResetLeavesBusy_host :
    let s := withEvents [.hostWrite 0x004 .w32 8] (inSend .await (plain [0x41]))
    s.busy = true ∧ NoReset s ∧ s.events.head? = some (.hostWrite 0x004 .w32 8) ∧
      (Event.hostWrite 0x004 .w32 8).agent = .host ∧ (nextOf (step s)).isSome = true := by decide

theorem witness_MisplacedAccessIsABusError :
    let s := withEvents [.hostRead 0x1FFF .w16] (plain [])
    let u := withEvents [.hostWrite 0xFFC .w16 1] (plain [])
    let v := withEvents [.hostWrite 0x002 .w32 1] (plain [])
    ((0x1000 ≤ 0x1FFF ∧ 0x1FFF < 0x2000 ∧ 0x1FFF % Width.w16.bytes ≠ 0) ∧
      s.events = .hostRead (s.params.base + 0x1FFF) .w16 :: []) ∧
    ((0xFFC < 0x1000 ∧ Width.w16 ≠ Width.w32) ∧ u.events = .hostWrite (u.params.base + 0xFFC) .w16 1 :: []) ∧
    ((0x002 < 0x1000 ∧ 0x002 % 4 ≠ 0) ∧ v.events = .hostWrite (v.params.base + 0x002) .w32 1 :: []) := by decide

theorem witness_DbufAccessIsLittleEndian :
    let s := withEvents [.hostWrite 0x17FC .w32 0x44332211] (plain [])
    let u := withEvents [.hostRead 0x17FC .w32] (plain [])
    (s.params.legal ∧ s.busy = false ∧ 2044 < s.params.dbufSize ∧ 2044 % Width.w32.bytes = 0) ∧
    s.events = .hostWrite (s.params.base + 0x1000 + 2044) .w32 0x44332211 :: [] ∧
    u.events = .hostRead (u.params.base + 0x1000 + 2044) .w32 :: [] := by decide

theorem witness_DbufWindowBeyondDbufIsInert :
    let s := withEvents [.hostWrite 0x1800 .w8 1] (plain [])
    let u := withEvents [.hostRead 0x1FFC .w32] (plain [])
    (s.params.legal ∧ s.params.dbufSize ≤ 2048 ∧ 2048 < 0x1000 ∧ 2048 % Width.w8.bytes = 0 ∧
      s.events = .hostWrite (s.params.base + 0x1000 + 2048) .w8 1 :: []) ∧
    (u.params.legal ∧ u.params.dbufSize ≤ 0xFFC ∧ 0xFFC < 0x1000 ∧ 0xFFC % Width.w32.bytes = 0 ∧
      u.events = .hostRead (u.params.base + 0x1000 + 0xFFC) .w32 :: []) := by decide

theorem witness_ReadsAreExactAndWithoutSideEffect :
    let s := withEvents [.hostRead 0x008 .w32] (plain [])
    let u := withEvents [.hostRead 0xFFC .w32] (inSend .await (plain [0x41]))
    (0x008 < 0x1000 ∧ 0x008 % 4 = 0 ∧ s.events = .hostRead (s.params.base + 0x008) .w32 :: [] ∧ s.busy = false) ∧
    (0xFFC < 0x1000 ∧ 0xFFC % 4 = 0 ∧ u.events = .hostRead (u.params.base + 0xFFC) .w32 :: []) := by decide

/-- Register reads while Busy: STATUS and RX_HDR, which hold draws, and COUNTS, which holds none. -/
theorem witness_ReadsAreExactAndWithoutSideEffect_draws :
    let s := withEvents [.hostRead 0x008 .w32] (inSend .await (plain [0x41]))
    let u := withEvents [.hostRead 0x050 .w32] (inSend .await (plain [0x41]))
    let v := withEvents [.hostRead 0x054 .w32] (inSend .await (plain [0x41]))
    (0x008 % 4 = 0 ∧ s.events = .hostRead (s.params.base + 0x008) .w32 :: [] ∧ s.busy = true) ∧
    (0x050 % 4 = 0 ∧ u.events = .hostRead (u.params.base + 0x050) .w32 :: [] ∧ u.busy = true) ∧
    (0x054 % 4 = 0 ∧ v.events = .hostRead (v.params.base + 0x054) .w32 :: [] ∧ v.busy = true) := by decide

/-- DBUF reads: one access while Busy whose bytes 0 and 1 lie outside the DST region 0x102..0x103 while bytes 2 and 3 are
its two bytes, and one of the last byte of DBUF on a block that is not Busy. -/
theorem witness_ReadsAreExactAndWithoutSideEffect_dbuf :
    let s := withEvents [.hostRead 0x1100 .w32]
      (inSend .await (withRegs (fun r => { r with dst := region 0x102 2 }) (plain [0x41])))
    let u := withEvents [.hostRead 0x17FF .w8] (plain [])
    (s.params.legal ∧ 0x100 < s.params.dbufSize ∧ 0x100 % Width.w32.bytes = 0 ∧
      s.events = .hostRead (s.params.base + 0x1000 + 0x100) .w32 :: [] ∧ s.busy = true ∧
      s.regs.inDst (0x100 + 1) = false ∧ s.regs.inDst (0x100 + 2) = true ∧ s.regs.inDst (0x100 + 3) = true) ∧
    (u.params.legal ∧ 2047 < u.params.dbufSize ∧ 2047 % Width.w8.bytes = 0 ∧
      u.events = .hostRead (u.params.base + 0x1000 + 2047) .w8 :: [] ∧ u.busy = false) := by decide

theorem witness_InertAccessesChangeNothing :
    let a := withEvents [.hostWrite 0x000 .w32 1] (plain [])
    let b := withEvents [.hostRead 0xFFC .w32] (plain [])
    let c := { withEvents [.hostRead 0x1FFF .w8] (plain []) with params := { base := 0x2000, dbufSize := 256 } }
    let d := withEvents [.hostWrite 0x2000 .w32 1] (plain [])
    (0x000 % 4 = 0 ∧ OpReg.ofOffset 0x000 = none ∧ a.events = .hostWrite (a.params.base + 0x000) .w32 1 :: []) ∧
    (0xFFC % 4 = 0 ∧ 0x080 ≤ 0xFFC ∧ 0xFFC < 0x1000 ∧ b.events = .hostRead (b.params.base + 0xFFC) .w32 :: []) ∧
    (0x1FFF < c.params.base ∧ c.events = .hostRead 0x1FFF .w8 :: []) ∧
    (d.params.base + 0x2000 ≤ 0x2000 ∧ d.events = .hostWrite 0x2000 .w32 1 :: []) := by decide

theorem witness_ResetEventRestoresTheResetState :
    (withEvents [.reset, .tick] (inSend .await (plain [0x41]))).events = .reset :: [.tick] := by decide

/-- The hypotheses of EveryStepKeepsTheInvariant and NoStepStopsUnderTheInvariant. -/
theorem witness_EveryStepKeepsTheInvariant :
    running.Inv ∧ step running = .next { running with
      agent := .rxLine, events := [], results := { running.results with dropCnt := 1 } } :=
  ⟨running_inv, rfl⟩

end Sys2Proof.Tests
end

/-! SUPPORT. Progress (spec/00_scope.md R12, spec/60_exceptions.md R323): no step faults or is refused. The one fault
guards the write of a command's output, so each output is shown to fit: ESCAPE, UNESCAPE and BUILD check it against
DST_CAP themselves; the payload that PARSE and a reply frame deliver is bounded by the parser's capacity. -/

namespace Sys2Proof.Machine

open Sys2Proof.Claims

/-! ## What the parser delivers fits DST_CAP (43_frame_codec.md R206, R207) -/

/-- The checks of a split frame deliver its body. -/
theorem Regs.payload_of_checkFrame {r : Regs} {hdr body rc p : List Byte} {a : Half} {c : Byte}
    (h : r.checkFrame hdr body rc = .frame a c p) : p = body := by
  rcases r.checkFrame_cases hdr body rc with ⟨-, h'⟩ | ⟨-, h' | h' | h' | h'⟩ <;> simp_all

/-- A body within the capacity carries a payload of at most DST_CAP bytes: under ESC_HDR the capacity also counts the
header, which stands in front of the payload in the body. -/
theorem Regs.payload_le_of_validate {r : Regs} {x : Rx} {a : Half} {c : Byte} {p : List Byte}
    (hcap : x.body.length ≤ r.cap) (h : r.validate x = .frame a c p) : p.length ≤ r.dstCap := by
  rcases r.validate_cases x with ⟨-, -, hv⟩ | ⟨hesc, -, hv⟩ | ⟨hesc, hv⟩ <;> rw [hv] at h
  · cases h
  · rw [Regs.payload_of_checkFrame h, List.length_drop]
    simp only [Regs.cap, hesc, if_true] at hcap
    omega
  · rw [Regs.payload_of_checkFrame h]
    simpa [Regs.cap, hesc] using hcap

/-- While the parser goes on, its body stays within the capacity. -/
theorem Regs.body_le_cap_of_rxStep {r : Regs} {x y : Rx} {b : Byte} (hcap : x.body.length ≤ r.cap)
    (h : r.rxStep x b = (y, .cont)) : y.body.length ≤ r.cap := by
  rcases r.rxStep_cases x b with ⟨-, -, hs⟩ | ⟨-, -, hs⟩ | ⟨-, hs⟩ | ⟨-, -, hs⟩ | ⟨-, -, -, hs⟩ | ⟨-, -, -, -, hs⟩ |
    ⟨-, hs⟩ | ⟨-, -, hs⟩ | ⟨-, -, hs⟩ <;> rw [hs] at h <;> obtain ⟨rfl, -⟩ := Prod.mk.inj h
  · exact hcap
  · exact Nat.zero_le _
  · exact hcap
  · exact hcap
  · exact hcap
  · exact hcap
  · rcases r.rxAppend_cases x b with ⟨hle, ha⟩ | ⟨-, ha⟩
    · exact hle
    · rw [ha] at h; cases h
  · exact hcap
  · exact hcap

/-- The parser completes a frame at the last byte of the checksum field alone, and then the frame passed the checks. -/
theorem Regs.validate_of_rxStep {r : Regs} {x y : Rx} {b : Byte} {a : Half} {c : Byte} {p : List Byte}
    (h : r.rxStep x b = (y, .frame a c p)) : r.validate { x with ck := x.ck ++ [b] } = .frame a c p := by
  rcases r.rxStep_cases x b with ⟨-, -, hs⟩ | ⟨-, -, hs⟩ | ⟨-, hs⟩ | ⟨-, -, hs⟩ | ⟨-, -, -, hs⟩ | ⟨-, -, -, -, hs⟩ |
    ⟨-, hs⟩ | ⟨-, -, hs⟩ | ⟨-, -, hs⟩ <;> rw [hs] at h
  · cases h
  · cases h
  · cases h
  · cases h
  · cases h
  · cases h
  · rcases r.rxAppend_cases x b with ⟨-, ha⟩ | ⟨-, ha⟩ <;> rw [ha] at h <;> cases h
  · cases h
  · exact (Prod.mk.inj h).2

/-- A frame that completes delivers a payload of at most DST_CAP bytes. -/
theorem Regs.payload_le_of_rxStep {r : Regs} {x y : Rx} {b : Byte} {a : Half} {c : Byte} {p : List Byte}
    (hcap : x.body.length ≤ r.cap) (h : r.rxStep x b = (y, .frame a c p)) : p.length ≤ r.dstCap :=
  Regs.payload_le_of_validate (x := { x with ck := x.ck ++ [b] }) hcap (Regs.validate_of_rxStep h)

/-- A frame found in an input delivers a payload of at most DST_CAP bytes. -/
theorem Regs.payload_le_of_rxFeed {r : Regs} {x y : Rx} {d : List Byte} {n : Nat} {a : Half} {c : Byte}
    {p : List Byte} (hcap : x.body.length ≤ r.cap) (h : r.rxFeed x d = (y, n, .frame a c p)) :
    p.length ≤ r.dstCap := by
  induction d generalizing x n with
  | nil => cases h
  | cons b d ih =>
    rcases hs : r.rxStep x b with ⟨z, res⟩
    by_cases hc : res = .cont
    · subst hc
      rw [Regs.rxFeed_cons_cont hs] at h
      simp only [Prod.mk.injEq] at h
      obtain ⟨hy, -, hres⟩ := h
      exact ih (n := (r.rxFeed z d).2.1) (Regs.body_le_cap_of_rxStep hcap hs) (by rw [← hy, ← hres])
    · rw [Regs.rxFeed_cons_done hs hc] at h
      cases h
      exact Regs.payload_le_of_rxStep hcap hs

/-! ## Outcomes that are next states -/

/-- The machine goes on: the outcome is neither a fault nor a refusal. -/
def Answers (o : Host.Outcome State Fault Refusal) : Prop := ∃ t, o = .next t

theorem answers_next (t : State) : Answers (.next t) := ⟨t, rfl⟩

/-- Output of at most DST_CAP bytes into a DST region inside DBUF is written (00_scope.md R12). -/
theorem State.finishWithOutput_answers {s : State} {out : List Byte} (hdst : DstInside s)
    (hout : out.length ≤ s.regs.dstCap) : Answers (s.finishWithOutput out) :=
  ⟨_, State.finishWithOutput_of_le (by simp only [DstInside] at hdst; omega)⟩

/-! ## Every command goes on, in every state -/

/-- A command whose checks cover DST runs its pseudocode only when DST lies in DBUF (40_command_control.md R137). -/
theorem State.dstInside_of_execCheck {s : State} {opc : Opc} (huse : usesDst opc = true)
    (h : s.execCheck opc = none) : DstInside s := by
  obtain ⟨-, -, -, hdst, -⟩ := (s.execCheck_eq_none_iff opc).1 h
  exact Nat.le_of_not_lt (hdst huse)

/-- A command goes on in both its events when its pseudocode goes on after the checks. -/
theorem State.command_answers {s : State} {opc : Opc} {p : State → Host.Outcome State Fault Refusal}
    (hp : s.execCheck opc = none → Answers (p s)) : Answers (s.command opc p) := by
  by_cases ha : s.agent = .exec
  · rw [State.command_of_exec ha]
    cases hc : s.execCheck opc with
    | none => rw [State.execStep_of_none hc]; exact hp hc
    | some e => rw [State.execStep_of_some hc]; exact answers_next _
  · rw [State.command_of_write ha]; exact answers_next _

/-- A command that uses DST goes on when its pseudocode does with DST inside DBUF. -/
theorem State.command_answers_of_usesDst {s : State} {opc : Opc} {p : State → Host.Outcome State Fault Refusal}
    (huse : usesDst opc = true) (hp : DstInside s → Answers (p s)) : Answers (s.command opc p) :=
  State.command_answers fun hc => hp (State.dstInside_of_execCheck huse hc)

theorem State.runEscape_answers {s : State} (hdst : DstInside s) : Answers s.runEscape := by
  simp only [State.runEscape]
  split
  · exact answers_next _
  · next hlen => exact State.finishWithOutput_answers hdst (Nat.le_of_not_lt hlen)

theorem State.runUnescape_answers {s : State} (hdst : DstInside s) : Answers s.runUnescape := by
  unfold State.runUnescape
  cases s.regs.unescape s.srcBytes with
  | none => exact answers_next _
  | some out =>
    dsimp only
    split
    · exact answers_next _
    · next hlen => exact State.finishWithOutput_answers hdst (Nat.le_of_not_lt hlen)

theorem State.runBuild_answers {s : State} (hdst : DstInside s) : Answers s.runBuild := by
  simp only [State.runBuild]
  split
  · exact answers_next _
  · next hlen => exact State.finishWithOutput_answers hdst (Nat.le_of_not_lt hlen)

theorem State.runParse_answers {s : State} (hdst : DstInside s) : Answers s.runParse := by
  unfold State.runParse
  rcases hf : s.regs.rxFeed Rx.reset s.srcBytes with ⟨x, n, res⟩
  cases res with
  | cont => exact answers_next _
  | bad hd f => exact answers_next _
  | frame a c p =>
    have hlen : p.length ≤ s.regs.dstCap := Regs.payload_le_of_rxFeed (Nat.zero_le _) hf
    exact State.finishWithOutput_answers (by simpa [DstInside] using hdst) (by simpa using hlen)

/-- No command stops the machine, in its write to CMD or in its Exec step, whatever the state. -/
theorem exec_answers (i : Instr) (s : State) : Answers (exec i s) := by
  cases i with
  | nop => exact answers_next _
  | clear => exact answers_next _
  | escape => exact State.command_answers_of_usesDst rfl State.runEscape_answers
  | unescape => exact State.command_answers_of_usesDst rfl State.runUnescape_answers
  | cksum => exact State.command_answers fun _ => answers_next _
  | ckverify => exact State.command_answers fun _ => answers_next _
  | build => exact State.command_answers_of_usesDst rfl State.runBuild_answers
  | parse => exact State.command_answers_of_usesDst rfl State.runParse_answers
  | send => exact State.command_answers fun _ => answers_next _
  | illegal9 => exact State.command_answers fun _ => answers_next _
  | illegalAB opc => exact State.command_answers fun _ => answers_next _
  | illegalCF opc => exact State.command_answers fun _ => answers_next _

/-! ## Every event goes on -/

theorem State.hostWrite_answers (s : State) (addr : Nat) (width : Width) (w : Word) :
    Answers (s.hostWrite addr width w) := by
  rcases s.hostWrite_cases addr width w with h | h | ⟨-, h⟩ | h | ⟨reg, h⟩ | h | ⟨a, h⟩ <;> rw [h]
  · exact answers_next _
  · exact answers_next _
  · exact exec_answers _ _
  · exact answers_next _
  · exact answers_next _
  · exact answers_next _
  · exact answers_next _

theorem State.execEvent_answers (s : State) : Answers s.execEvent := by
  unfold State.execEvent
  split
  · exact exec_answers _ _
  · exact answers_next _

/-- What a received byte needs: a block that awaits a reply has its parser's body within the capacity, and its DST
region in DBUF. -/
def State.ReplyFits (s : State) : Prop := s.status.st = .await → s.rx.body.length ≤ s.regs.cap ∧ DstInside s

/-- The invariant gives both: SEND passed the bounds check, and its operands have not changed since. -/
theorem State.Inv.replyFits {s : State} (h : s.Inv) : s.ReplyFits := fun hst =>
  ⟨h.rxBody hst, State.dstInside_of_execCheck (opc := 0x7) rfl (h.checked (by simp [hst, SeqState.inTransaction]))⟩

theorem State.rxFrame_answers {s : State} (hcap : s.rx.body.length ≤ s.regs.cap) (hdst : DstInside s) (b : Byte) :
    Answers (s.rxFrame b) := by
  unfold State.rxFrame
  rcases hs : s.regs.rxStep s.rx b with ⟨x, res⟩
  cases res with
  | cont => exact answers_next _
  | bad hd f => exact answers_next _
  | frame a c p =>
    have hlen : p.length ≤ s.regs.dstCap := Regs.payload_le_of_rxStep hcap hs
    exact State.finishWithOutput_answers (by simpa [DstInside] using hdst) (by simpa using hlen)

theorem State.rxByte_answers {s : State} (h : s.ReplyFits) (b : Byte) : Answers (s.rxByte b) := by
  rcases s.rxByte_cases b with ⟨-, hb⟩ | ⟨-, -, hb⟩ | ⟨hst, -, hb⟩ <;> rw [hb]
  · exact answers_next _
  · exact answers_next _
  · obtain ⟨hcap, hdst⟩ := h hst
    exact State.rxFrame_answers hcap hdst b

theorem State.applyEvent_answers {s : State} (h : s.ReplyFits) (e : Event) : Answers (s.applyEvent e) := by
  cases e with
  | hostRead addr width => exact answers_next _
  | hostWrite addr width data => exact s.hostWrite_answers addr width data
  | txTake => exact answers_next _
  | rxByte b => exact State.rxByte_answers h b
  | tick => exact answers_next _
  | exec => exact s.execEvent_answers
  | reset => exact answers_next _

/-- A step goes on whether it takes a scheduled event, the block's own Exec step, or waits. -/
theorem step_answers {s : State} (h : s.ReplyFits) : Answers (step s) := by
  cases he : s.events with
  | nil =>
    by_cases hx : s.status.st = .exec
    · rw [step_idle_exec he hx]; exact exec_answers _ _
    · rw [step_idle_wait he hx]; exact answers_next _
  | cons e rest =>
    rw [step_event he]
    exact State.applyEvent_answers (s := s.begin e rest) h e

/-- Settles O59: the invariant bounds the reply that AWAIT can deliver, and every other event goes on in any state. -/
theorem noStepStopsUnderTheInvariant : Obligations.NoStepStopsUnderTheInvariant := by
  unfold Obligations.NoStepStopsUnderTheInvariant
  exact fun s h => step_answers h.replyFits

end Sys2Proof.Machine

/-! SUPPORT. The register file and the accesses: what a register reads as after a stored write (spec/10_state.md R21,
R45, R58), that CTRL is read by no command, and where an access in the window goes (spec/20_memory.md R70-R73). -/

namespace Sys2Proof.Machine
open Sys2Proof.Claims

theorem getLsbD_laneMask (n : Nat) : (0xFFFFFFFF : BitVec 256).getLsbD n = decide (n < 32) := by
  rw [show (0xFFFFFFFF : BitVec 256) = BitVec.ofNat 256 (2 ^ 32 - 1) from rfl, BitVec.getLsbD_ofNat,
    Nat.testBit_two_pow_sub_one, Bool.eq_iff_iff]
  simp
  omega

/-- A bit of the bitmap after RSVk is set to `w`. -/
theorem getLsbD_rsvPut (rsv : BitVec 256) (k : Nat) (w : Word) {n : Nat} (hn : n < 256) :
    (rsvPut rsv k w).getLsbD n =
      if 32 * k ≤ n ∧ n < 32 * k + 32 then w.getLsbD (n - 32 * k) else rsv.getLsbD n := by
  simp only [rsvPut, BitVec.getLsbD_or, BitVec.getLsbD_and, BitVec.getLsbD_not, BitVec.getLsbD_shiftLeft,
    BitVec.getLsbD_setWidth, getLsbD_laneMask]
  by_cases hlo : 32 * k ≤ n
  · by_cases hhi : n < 32 * k + 32
    · have hge : ¬n < 32 * k := by omega
      have hlane : n - 32 * k < 32 := by omega
      have hwide : n - 32 * k < 256 := by omega
      simp [*]
    · have hlane : ¬n - 32 * k < 32 := by omega
      have hzero : w.getLsbD (n - 32 * k) = false := BitVec.getLsbD_of_ge _ _ (by omega)
      simp [*]
  · have hlt : n < 32 * k := by omega
    simp [*]

/-- A write to RSVk sets RSVk and no other of the eight registers (10_state.md R45). -/
theorem rsvWord_rsvPut (rsv : BitVec 256) (w : Word) (j k : Fin 8) :
    rsvWord (rsvPut rsv k w) j = if j = k then w else rsvWord rsv j := by
  refine BitVec.eq_of_getLsbD_eq fun i hi => ?_
  have hn : 32 * j.val + i < 256 := by omega
  simp only [rsvWord, BitVec.getLsbD_extractLsb', hi, decide_true, Bool.true_and, getLsbD_rsvPut _ _ _ hn]
  by_cases hjk : j = k
  · subst hjk
    simp [hi]
  · rw [if_neg (by omega), if_neg hjk]
    simp [hi]

/-- A register after a stored write: the register written holds the word without its read-0 bits, and no other
register changes (10_state.md R58). -/
theorem Regs.get_put (r : Regs) (reg other : OpReg) (w : Word) :
    (r.put reg w).get other = if other = reg then w &&& reg.mask else r.get other := by
  cases reg with
  | rsv k =>
    cases other with
    | rsv j => simpa [Regs.put, Regs.get] using rsvWord_rsvPut r.rsv _ j k
    | _ => rfl
  | _ => cases other <;> rfl

/-- A stored write leaves CTRL as it is. -/
@[simp] theorem Regs.put_irqEn (r : Regs) (reg : OpReg) (w : Word) : (r.put reg w).irqEn = r.irqEn := by
  cases reg <;> rfl

@[simp] theorem Regs.put_lock (r : Regs) (reg : OpReg) (w : Word) : (r.put reg w).lock = r.lock := by
  cases reg <;> rfl

/-- `CTRL` is no operand: the other registers read as before after a write to it. -/
@[simp] theorem Regs.get_ctrl (r : Regs) (i l : Bool) (reg : OpReg) :
    ({ r with irqEn := i, lock := l } : Regs).get reg = r.get reg := by
  cases reg <;> rfl

theorem Regs.escape_ctrl (r : Regs) (i l : Bool) (d : List Byte) :
    ({ r with irqEn := i, lock := l } : Regs).escape d = r.escape d := by
  induction d with
  | nil => rfl
  | cons b d ih =>
    simp only [Regs.escape, ih]
    rfl

theorem Regs.frame_ctrl (r : Regs) (i l : Bool) (a : Half) (c : Byte) (p : List Byte) :
    ({ r with irqEn := i, lock := l } : Regs).frame a c p = r.frame a c p := by
  simp only [Regs.frame, Regs.wireHdr, Regs.escape_ctrl]
  rfl

theorem Regs.frame_ne_nil (r : Regs) (a : Half) (c : Byte) (p : List Byte) : 0 < (r.frame a c p).length := by
  simp [Regs.frame]

/-! ## Where an access in the window goes (20_memory.md R70-R73) -/

theorem State.hostWrite_reg (s : State) {off : Nat} (h : off < 0x1000) (h4 : off % 4 = 0) (w : Word) :
    s.hostWrite (s.params.base + off) .w32 w = ({ s with bus := .written }).regWrite off w := by
  have hm : misplaced off .w32 = false := by simp [misplaced, h, h4]
  simp only [State.hostWrite, State.windowOffset_add s (show off < 0x2000 by omega), hm, h, if_true,
    Bool.false_eq_true, if_false]

theorem State.hostWrite_dbuf (s : State) {a : Nat} {width : Width} (h : a < 0x1000) (ha : a % width.bytes = 0)
    (w : Word) :
    s.hostWrite (s.params.base + 0x1000 + a) width w = .next (({ s with bus := .written }).dbufWrite a width w) := by
  have hm : misplaced (0x1000 + a) width = false := by
    cases width <;> simp only [Width.bytes, misplaced] at ha ⊢ <;> simp <;> omega
  rw [Nat.add_assoc]
  simp only [State.hostWrite, State.windowOffset_add s (show 0x1000 + a < 0x2000 by omega), hm, Bool.false_eq_true,
    if_false, show ¬0x1000 + a < 0x1000 by omega, Nat.add_sub_cancel_left]

/-- What a host write can do: go unanswered, be a bus error, or be an aligned access to the register space or to the
DBUF window. -/
theorem State.hostWrite_window_cases (s : State) (addr : Nat) (width : Width) (w : Word) :
    s.hostWrite addr width w = .next { s with bus := .none } ∨
    s.hostWrite addr width w = .next { s with bus := .busError } ∨
    (∃ off, s.hostWrite addr width w = ({ s with bus := .written }).regWrite off w) ∨
    (∃ a, a % width.bytes = 0 ∧
      s.hostWrite addr width w = .next (({ s with bus := .written }).dbufWrite a width w)) := by
  unfold State.hostWrite
  cases s.windowOffset addr with
  | none => exact .inl rfl
  | some off =>
    cases hm : misplaced off width with
    | true => exact .inr (.inl (by simp [hm]))
    | false =>
      by_cases hb : off < 0x1000
      · exact .inr (.inr (.inl ⟨off, by simp [hm, hb]⟩))
      · refine .inr (.inr (.inr ⟨off - 0x1000, ?_, by simp [hm, hb]⟩))
        cases width <;> simp only [misplaced, hb, if_false, Width.bytes, bne_eq_false_iff_eq] at hm ⊢ <;> omega

/-- A write at the offset of a register of the map goes to that register. -/
theorem State.regWrite_of_ofOffset (s : State) {off : Nat} {reg : OpReg} (h : OpReg.ofOffset off = some reg)
    (w : Word) : s.regWrite off w = .next (s.opRegWrite reg w) := by
  unfold OpReg.ofOffset at h
  split at h <;> cases h <;> rfl

/-- A read at the offset of a register of the map reads that register. -/
theorem State.regWord_of_ofOffset (s : State) {off : Nat} {reg : OpReg} (h : OpReg.ofOffset off = some reg) :
    s.regWord off = s.regs.get reg := by
  unfold OpReg.ofOffset at h
  split at h <;> cases h <;> rfl

/-- A write to a register offset that holds neither CMD nor CTRL nor a register of the map does nothing. -/
theorem State.regWrite_of_inert (s : State) {off : Nat} (hcmd : off ≠ 0x004) (hctrl : off ≠ 0x00C)
    (h : OpReg.ofOffset off = none) (w : Word) : s.regWrite off w = .next s := by
  unfold State.regWrite
  rw [h]
  split <;> first | contradiction | rfl

end Sys2Proof.Machine

/-! SUPPORT. The invariant in parts: what each part says, which parts an invariant state has, and that a state with the
parts its STATE asks for satisfies the invariant. -/

namespace Sys2Proof.Machine
open Sys2Proof.Claims

/-! ## The parts of the invariant -/

/-- The parameters, DBUF and the registers: the part of the invariant that host writes and command output can break. -/
structure State.StorageOk (s : State) : Prop where
  params : s.params.legal
  dbufWf : s.dbuf.wf = true
  dbufInside : ∀ c ∈ s.dbuf, c.1 < s.params.dbufSize
  reserved : ∀ reg : OpReg, s.regs.get reg &&& ~~~reg.mask = 0

/-- ERR_CODE, LAST_CAUSE, MAL_SUB and VOK agree with STATE (10_state.md R25, R26). -/
structure Status.Consistent (x : Status) : Prop where
  errFailed : x.errCode ≠ .none ↔ x.st = .failed
  errNotBusy : x.errCode ≠ .busyRsp
  cause : if x.errCode = .exhausted then x.lastCause.retryCause = true else x.lastCause = .none
  sub : x.malSub ≠ .none ↔ x.errCode = .malformed ∨ (x.errCode = .exhausted ∧ x.lastCause = .malformed)
  vok : x.vok = true → x.st = .success ∧ x.lastOpc = 0x4

/-- No error and no verification is recorded, as acceptance leaves it (40_command_control.md R132). -/
structure Status.Clean (x : Status) : Prop where
  errCode : x.errCode = .none
  lastCause : x.lastCause = .none
  malSub : x.malSub = .none
  vok : x.vok = false

/-- Both line-control pins are released. -/
abbrev Status.PinsLow (x : Status) : Prop := x.rts = false ∧ x.dtr = false

/-- A pin is asserted exactly in SENDING under line control that selects it (44_transaction.md R266). -/
abbrev State.PinsMatch (s : State) : Prop :=
  s.status.rts = (s.status.st == .sending && s.regs.lcEn && !s.regs.lcSel) ∧
  s.status.dtr = (s.status.st == .sending && s.regs.lcEn && s.regs.lcSel)

/-- What the invariant says of the receive parser that awaits a frame (43_frame_codec.md R207-R214). -/
structure Regs.ParserOk (r : Regs) (x : Rx) : Prop where
  body : x.body.length ≤ r.cap
  hunt : x.ph = .hunt → x = Rx.reset
  hdr : x.ph = .hdr → r.escHdr = false ∧ x.hdr.length < r.hlen
  inFrame : x.ph ≠ .hunt → x.ph ≠ .hdr → x.hdr.length = (if r.escHdr then 0 else r.hlen)
  ck : x.ck.length < r.ckw ∧ (x.ph ≠ .ck → x.ck = [])

/-- What holds of a command that has begun its Exec step and has not completed, between any two of its updates. -/
structure State.Running (s : State) : Prop extends s.StorageOk where
  clean : s.status.Clean

/-- What holds of a running transaction in each of its phases and between any two of its updates: the operands passed
the checks and TXF is their frame (44_transaction.md R240-R242, R265). -/
structure State.InSend (s : State) : Prop extends s.Running where
  pendOpc : s.pendOpc = 0x7
  lastOpc : s.status.lastOpc = 0x7
  checked : s.execCheck 0x7 = none
  frame : s.tx.frame = s.regs.frame s.regs.txAddr s.regs.txCtrl s.srcBytes
  retries : s.results.retryCnt ≤ s.regs.maxRetry

/-! ## The parts that an invariant state has -/

theorem State.st_ne_sending_of_not_busy {s : State} (hb : s.busy = false) : s.status.st ≠ .sending := fun e => by
  simp [State.busy, e, SeqState.busy] at hb

theorem State.Inv.storageOk {s : State} (h : s.Inv) : s.StorageOk :=
  ⟨h.params, h.dbufWf, h.dbufInside, h.reserved⟩

theorem State.Inv.consistent {s : State} (h : s.Inv) : s.status.Consistent :=
  ⟨h.errFailed, h.errNotBusy, h.cause, h.sub, h.vok⟩

theorem State.Inv.pinsMatch {s : State} (h : s.Inv) : s.PinsMatch := ⟨h.rts, h.dtr⟩

theorem State.Inv.pinsLow {s : State} (h : s.Inv) (hst : s.status.st ≠ .sending) : s.status.PinsLow := by
  constructor
  · simp [h.rts, hst]
  · simp [h.dtr, hst]

theorem State.Inv.parserOk {s : State} (h : s.Inv) (hst : s.status.st = .await) : s.regs.ParserOk s.rx :=
  ⟨h.rxBody hst, h.rxHunt hst, h.rxHdr hst, h.rxInFrame hst, h.rxCk hst⟩

/-- Before the outcome nothing is recorded: errors stand in FAILED alone, VOK in SUCCESS alone. -/
theorem Status.Consistent.clean {x : Status} (h : x.Consistent) (hf : x.st ≠ .failed) (hs : x.st ≠ .success) :
    x.Clean := by
  have he : x.errCode = .none := by simpa [hf] using h.errFailed
  have hc : x.lastCause = .none := by simpa [he] using h.cause
  refine ⟨he, hc, by simpa [he] using h.sub, ?_⟩
  cases hv : x.vok with
  | false => rfl
  | true => exact absurd (h.vok hv).1 hs

theorem State.Inv.running {s : State} (h : s.Inv) (hb : s.busy = true) : s.Running where
  toStorageOk := h.storageOk
  clean := h.consistent.clean (fun e => by simp [State.busy, e, SeqState.busy] at hb)
    (fun e => by simp [State.busy, e, SeqState.busy] at hb)

theorem SeqState.busy_of_inTransaction {st : SeqState} (h : st.inTransaction = true) : st.busy = true := by
  cases st <;> first | rfl | cases h

theorem State.Inv.inSend {s : State} (h : s.Inv) (ht : s.status.st.inTransaction = true) : s.InSend where
  toRunning := h.running (SeqState.busy_of_inTransaction ht)
  pendOpc := h.sending ht
  lastOpc := (h.lastOpc (SeqState.busy_of_inTransaction ht)).trans (h.sending ht)
  checked := h.checked ht
  frame := h.frame ht
  retries := h.retries ht

/-! ## States that have the parts satisfy the invariant -/

/-- Outside a transaction. -/
theorem State.inv_of_no_transaction {s : State} (hst : s.status.st.inTransaction = false) (store : s.StorageOk)
    (status : s.status.Consistent) (pins : s.status.PinsLow)
    (pending : s.status.st = .exec → s.pendOpc ≠ 0x0 ∧ s.pendOpc ≠ 0x8 ∧ s.status.lastOpc = s.pendOpc) : s.Inv := by
  have hsend : s.status.st ≠ .sending := fun e => by rw [e] at hst; cases hst
  have hawait : s.status.st ≠ .await := fun e => by rw [e] at hst; cases hst
  have hretry : s.status.st ≠ .retryWait := fun e => by rw [e] at hst; cases hst
  exact {
    store, status with
    pending := fun e => ⟨(pending e).1, (pending e).2.1⟩
    lastOpc := fun e => (pending (by cases hc : s.status.st <;> simp_all [State.busy, SeqState.busy])).2.2
    sending := by simp [hst]
    checked := by simp [hst]
    frame := by simp [hst]
    retries := by simp [hst]
    offers := fun e => absurd e hsend
    settles := fun e => absurd e hsend
    awaits := fun e => absurd e hawait
    backsOff := fun e => absurd e hretry
    rts := by simp [pins.1, hsend]
    dtr := by simp [pins.2, hsend]
    rxBody := fun e => absurd e hawait
    rxHunt := fun e => absurd e hawait
    rxHdr := fun e => absurd e hawait
    rxInFrame := fun e => absurd e hawait
    rxCk := fun e => absurd e hawait }

/-- A block at rest: IDLE, SUCCESS or FAILED. -/
theorem State.inv_of_not_busy {s : State} (hb : s.busy = false) (store : s.StorageOk)
    (status : s.status.Consistent) (pins : s.status.PinsLow) : s.Inv := by
  refine State.inv_of_no_transaction ?_ store status pins fun e => ?_
  · cases ht : s.status.st.inTransaction with
    | false => rfl
    | true => exact absurd (SeqState.busy_of_inTransaction ht) (by simpa [State.busy] using hb)
  · simp [State.busy, e, SeqState.busy] at hb

theorem Status.Clean.consistent {x : Status} (h : x.Clean) (hst : x.st ≠ .failed) : x.Consistent := by
  constructor <;> simp [h.errCode, h.lastCause, h.malSub, h.vok, hst]

/-- In a transaction: what every phase has, and what the phase at hand asks for. -/
theorem State.InSend.inv {s : State} (h : s.InSend) (ht : s.status.st.inTransaction = true) (pins : s.PinsMatch)
    (emit : s.status.st = .sending → s.tx.ph = .emit → s.tx.idx < s.tx.frame.length)
    (settle : s.status.st = .sending → s.tx.ph = .settle → s.regs.lcEn = true ∧ s.wcnt ≠ 0)
    (await : s.status.st = .await → (s.wcnt ≠ 0 ∧ s.regs.rxTmo ≠ 0) ∧ s.regs.ParserOk s.rx)
    (backoff : s.status.st = .retryWait → s.wcnt ≠ 0) : s.Inv :=
  have hx : s.status.st ≠ .exec := fun e => by rw [e] at ht; cases ht
  have hf : s.status.st ≠ .failed := fun e => by rw [e] at ht; cases ht
  { h.toStorageOk, h.clean.consistent hf with
    pending := fun e => absurd e hx
    lastOpc := fun _ => h.lastOpc.trans h.pendOpc.symm
    sending := fun _ => h.pendOpc
    checked := fun _ => h.checked
    frame := fun _ => h.frame
    retries := fun _ => h.retries
    offers := emit
    settles := settle
    awaits := fun e => (await e).1
    backsOff := backoff
    rts := pins.1
    dtr := pins.2
    rxBody := fun e => (await e).2.body
    rxHunt := fun e => (await e).2.hunt
    rxHdr := fun e => (await e).2.hdr
    rxInFrame := fun e => (await e).2.inFrame
    rxCk := fun e => (await e).2.ck }

/-! ## Updates that the parts do not read -/

theorem State.Running.congr {s t : State} (h : s.Running) (hp : t.params = s.params) (hd : t.dbuf = s.dbuf)
    (hr : t.regs = s.regs) (hs : t.status = s.status) : t.Running where
  params := hp ▸ h.params
  dbufWf := hd ▸ h.dbufWf
  dbufInside := by rw [hp, hd]; exact h.dbufInside
  reserved := hr ▸ h.reserved
  clean := hs ▸ h.clean

/-- What `InSend` reads but RETRY_CNT. -/
def State.sendPart (s : State) :=
  (s.params, s.dbuf, s.epoch, s.regs, s.pendOpc, s.tx.frame,
    (s.status.errCode, s.status.lastCause, s.status.malSub, s.status.vok, s.status.lastOpc))

theorem State.InSend.congr {s t : State} (h : s.InSend) (e : t.sendPart = s.sendPart)
    (hretry : t.results.retryCnt ≤ s.regs.maxRetry) : t.InSend := by
  simp only [State.sendPart, Prod.mk.injEq] at e
  obtain ⟨hp, hd, hepoch, hr, hpend, hframe, herr, hcause, hsub, hvok, hlast⟩ := e
  exact {
    params := hp ▸ h.params
    dbufWf := hd ▸ h.dbufWf
    dbufInside := by rw [hp, hd]; exact h.dbufInside
    reserved := hr ▸ h.reserved
    clean := ⟨herr.trans h.clean.errCode, hcause.trans h.clean.lastCause, hsub.trans h.clean.malSub,
      hvok.trans h.clean.vok⟩
    pendOpc := hpend.trans h.pendOpc
    lastOpc := hlast.trans h.lastOpc
    checked := (State.execCheck_congr hr hp _).trans h.checked
    frame := by rw [hframe, h.frame, State.srcBytes_congr hd hepoch (by rw [hr]) (by rw [hr]), hr]
    retries := hr ▸ hretry }

/-- The fields of the state that the invariant reads. The others are the model's own, and the results and sticky flags
that no rule ties to STATE. -/
def State.invPart (s : State) :=
  (s.params, s.dbuf, s.epoch, s.regs, s.pendOpc, s.tx, s.wcnt, s.rx, s.results.retryCnt,
    { s.status with cmdRej := false, wrIgn := false })

/-- An update of fields that the invariant does not read keeps it. -/
theorem State.Inv.congr {s t : State} (h : s.Inv) (e : t.invPart = s.invPart) : t.Inv := by
  obtain ⟨regs, status, results, dbuf, pendOpc, tx, wcnt, rx, params, agent, events, bus, wire, draws, epoch⟩ := t
  obtain ⟨st, vok, rts, dtr, errCode, lastCause, malSub, cmdRej, wrIgn, lastOpc⟩ := status
  simp only [State.invPart, Prod.mk.injEq, Status.mk.injEq] at e
  obtain ⟨rfl, rfl, rfl, rfl, rfl, rfl, rfl, rfl, hretry, rfl, rfl, rfl, rfl, rfl, rfl, rfl, -, -, rfl⟩ := e
  exact { h with
    frame := fun ht => (h.frame ht).trans (congrArg _ (State.srcBytes_congr rfl rfl rfl rfl))
    retries := fun ht => hretry ▸ h.retries ht }

/-- A block at rest keeps the invariant when its parameters, DBUF and registers are replaced by others that are
well-formed. -/
theorem State.Inv.of_storageOk {s t : State} (h : s.Inv) (hb : s.busy = false) (hs : t.status = s.status)
    (store : t.StorageOk) : t.Inv := by
  have pins : s.status.PinsLow := h.pinsLow (State.st_ne_sending_of_not_busy hb)
  exact State.inv_of_not_busy (by rw [State.busy, hs]; exact hb) store (hs ▸ h.consistent) (hs ▸ pins)

/-- Bytes written inside DBUF. -/
theorem State.StorageOk.putAll {s : State} (h : s.StorageOk) {a : Nat} {out : List Byte}
    (hin : a + out.length ≤ s.params.dbufSize) : ({ s with dbuf := s.dbuf.putAll a out }).StorageOk where
  params := h.params
  dbufWf := Memory.putAll_wf out h.dbufWf a
  dbufInside := fun c hc => by
    rcases Memory.mem_putAll hc with hc | ⟨-, hc⟩
    · exact h.dbufInside c hc
    · exact Nat.lt_of_lt_of_le hc hin
  reserved := h.reserved

end Sys2Proof.Machine

/-! SUPPORT. Completion, failure and the phases of an attempt end in states of the invariant (spec/44_transaction.md
R246-R251, R260-R264). -/

namespace Sys2Proof.Machine
open Sys2Proof.Claims

/-! ## Completion (40_command_control.md R139, R140) -/

theorem State.Running.raise_inv {s : State} (h : s.Running) {e : ErrCode} {sub : MalSub} (hnone : e ≠ .none)
    (hbusy : e ≠ .busyRsp) (hexh : e ≠ .exhausted) (hsub : sub ≠ .none ↔ e = .malformed) : (s.raise e sub).Inv :=
  State.inv_of_not_busy rfl ⟨h.params, h.dbufWf, h.dbufInside, h.reserved⟩
    { errFailed := by simp [hnone]
      errNotBusy := hbusy
      cause := by simp [hexh, h.clean.lastCause]
      sub := by simp [hexh, hsub]
      vok := by simp [h.clean.vok] }
    ⟨rfl, rfl⟩

/-- A check of the Exec step raises no error of a transaction (40_command_control.md R135-R138). -/
theorem State.Running.raise_inv_of_execCheck {s : State} (h : s.Running) {opc : Opc} {e : ErrCode}
    (hc : s.execCheck opc = some e) : (s.raise e .none).Inv := by
  rcases State.execCheck_some hc with ⟨rfl, -⟩ | ⟨rfl, -⟩ | ⟨rfl, -⟩ | ⟨rfl, -⟩ <;>
    exact h.raise_inv (by decide) (by decide) (by decide) (by decide)

theorem State.Running.completeOk_inv {s : State} (h : s.Running) (pins : s.status.PinsLow) : s.completeOk.Inv :=
  State.inv_of_not_busy rfl ⟨h.params, h.dbufWf, h.dbufInside, h.reserved⟩
    (Status.Clean.consistent ⟨h.clean.errCode, h.clean.lastCause, h.clean.malSub, h.clean.vok⟩ (by simp)) pins

theorem State.Running.finishWithOutput_inv {s t : State} (h : s.Running) (pins : s.status.PinsLow) {out : List Byte}
    (ht : s.finishWithOutput out = .next t) : t.Inv := by
  obtain ⟨hin, rfl⟩ := State.finishWithOutput_cases ht
  obtain ⟨hp, hwf, hinside, hres⟩ := h.toStorageOk.putAll hin
  exact State.inv_of_not_busy rfl ⟨hp, hwf, hinside, hres⟩
    (Status.Clean.consistent ⟨h.clean.errCode, h.clean.lastCause, h.clean.malSub, h.clean.vok⟩ (by simp)) pins

/-! ## Failures of an attempt (44_transaction.md R260-R264) -/

/-- A MALFORMED failure names its sub-code (60_exceptions.md R304). -/
abbrev Failure.Named (f : Failure) : Prop := f ≠ .malformed .none

theorem Failure.sub_ne_none_iff {f : Failure} (hf : f.Named) : f.sub ≠ .none ↔ f.code = .malformed := by
  cases f with
  | malformed sub => simpa [Failure.sub, Failure.code, Failure.Named] using hf
  | _ => decide

theorem Failure.code_ne_none (f : Failure) : f.code ≠ .none := by cases f <;> simp [Failure.code]

theorem Failure.code_ne_exhausted (f : Failure) : f.code ≠ .exhausted := by cases f <;> simp [Failure.code]

theorem Failure.code_ne_busyRsp {f : Failure} (hf : f ≠ .busyRsp) : f.code ≠ .busyRsp := by
  cases f <;> simp_all [Failure.code]

/-- BUSY is always retryable (44_transaction.md R260). -/
theorem Regs.ne_busyRsp_of_not_retryable {r : Regs} {f : Failure} (h : r.retryable f = false) : f ≠ .busyRsp := by
  rintro rfl
  cases h

theorem Regs.retryCause_of_retryable {r : Regs} {f : Failure} (h : r.retryable f = true) :
    f.code.retryCause = true := by
  cases f <;> first | rfl | cases h

theorem State.Running.exhausted_inv {s : State} (h : s.Running) (pins : s.status.PinsLow) {f : Failure}
    (hf : f.Named) (hretry : s.regs.retryable f = true) : (s.exhausted f).Inv :=
  State.inv_of_not_busy rfl ⟨h.params, h.dbufWf, h.dbufInside, h.reserved⟩
    { errFailed := by simp
      errNotBusy := by simp
      cause := by simpa using Regs.retryCause_of_retryable hretry
      sub := by simpa using Failure.sub_ne_none_iff hf
      vok := by simp [h.clean.vok] }
    pins

/-! ## The phases of an attempt (44_transaction.md R246-R249) -/

theorem State.startAttempt_eq_started (s : State) : s.startAttempt = started s := by
  unfold State.startAttempt State.setPin started rtsAtStart dtrAtStart
  cases hlc : s.regs.lcEn <;> cases hsel : s.regs.lcSel <;> simp [hlc, hsel]

theorem State.InSend.startAttempt_inv {s : State} (h : s.InSend) (pins : s.status.PinsLow) : s.startAttempt.Inv := by
  have hframe : 0 < s.tx.frame.length := by rw [h.frame]; exact Regs.frame_ne_nil ..
  rw [State.startAttempt_eq_started]
  refine State.InSend.inv (h.congr rfl h.retries) rfl ?_ (fun _ _ => hframe) (fun _ e => by cases e)
    (fun e => by cases e) (fun e => by cases e)
  constructor
  · simp [started, rtsAtStart, pins.1]
  · simp [started, dtrAtStart, pins.2]

theorem State.InSend.retry_inv {s : State} (h : s.InSend) (pins : s.status.PinsLow)
    (hlt : s.results.retryCnt < s.regs.maxRetry) : s.retry.Inv := by
  have hle : s.results.retryCnt + 1 ≤ s.regs.maxRetry := by
    bv_omega
  unfold State.retry
  dsimp only
  split
  · exact State.InSend.startAttempt_inv (h.congr rfl hle) pins
  · next hwait =>
    exact State.InSend.inv (h.congr rfl hle) rfl ⟨pins.1, pins.2⟩ (fun e => by cases e) (fun e => by cases e)
      (fun e => by cases e) (fun _ => hwait)

theorem State.InSend.attemptFailed_inv {s : State} (h : s.InSend) (pins : s.status.PinsLow) {f : Failure}
    (hf : f.Named) : (s.attemptFailed f).Inv := by
  rcases s.attemptFailed_cases f with ⟨-, hlt, ha⟩ | ⟨hretry, -, ha⟩ | ⟨hterm, ha⟩ <;> rw [ha]
  · exact h.retry_inv pins hlt
  · exact h.exhausted_inv pins hf hretry
  · exact h.raise_inv f.code_ne_none (Failure.code_ne_busyRsp (Regs.ne_busyRsp_of_not_retryable hterm))
      f.code_ne_exhausted (Failure.sub_ne_none_iff hf)

/-- The deadline passes. -/
theorem State.InSend.timeout_inv {s : State} (h : s.InSend) (pins : s.status.PinsLow) :
    (s.attemptFailed .timeout).Inv := h.attemptFailed_inv pins (by decide)

theorem Regs.ckw_pos (r : Regs) : 0 < r.ckw := by unfold Regs.ckw; split <;> decide

theorem Regs.parserOk_reset (r : Regs) : r.ParserOk Rx.reset where
  body := Nat.zero_le _
  hunt := fun _ => rfl
  hdr := fun e => by cases e
  inFrame := fun e => absurd rfl e
  ck := ⟨r.ckw_pos, fun _ => rfl⟩

/-- A transaction that awaits its response. -/
theorem State.InSend.await_inv {s : State} (h : s.InSend) (hst : s.status.st = .await) (pins : s.status.PinsLow)
    (hwait : s.wcnt ≠ 0) (htmo : s.regs.rxTmo ≠ 0) (parser : s.regs.ParserOk s.rx) : s.Inv := by
  refine h.inv (by rw [hst]; rfl) ⟨?_, ?_⟩ (fun e => ?_) (fun e => ?_) (fun _ => ⟨⟨hwait, htmo⟩, parser⟩) (fun e => ?_)
  · simp [pins.1, hst]
  · simp [pins.2, hst]
  · rw [hst] at e; cases e
  · rw [hst] at e; cases e
  · rw [hst] at e; cases e

theorem State.InSend.enterAwait_inv {s : State} (h : s.InSend) (pins : s.status.PinsLow) : s.enterAwait.Inv := by
  by_cases htmo : s.regs.rxTmo = 0
  · rw [State.enterAwait_of_zero htmo]
    exact State.InSend.timeout_inv (h.congr rfl h.retries) pins
  · rw [State.enterAwait_of_ne htmo]
    exact State.InSend.await_inv (h.congr rfl h.retries) rfl pins htmo htmo (Regs.parserOk_reset _)

/-- Releasing the selected pin releases both, since the other one is released already. -/
theorem State.PinsMatch.setPin_low {s : State} (h : s.PinsMatch) : (s.setPin false).status.PinsLow := by
  obtain ⟨hrts, hdtr⟩ := h
  unfold State.setPin
  cases hsel : s.regs.lcSel <;> simp_all

theorem State.InSend.endSettle_inv {s : State} (h : s.InSend) (pins : s.PinsMatch) : s.endSettle.Inv :=
  State.InSend.enterAwait_inv (h.congr (by simp [State.sendPart]) (by simpa using h.retries)) pins.setPin_low

/-- The settle phase. -/
theorem State.InSend.settle_inv {s : State} (h : s.InSend) (hst : s.status.st = .sending) (hph : s.tx.ph = .settle)
    (pins : s.PinsMatch) (hlc : s.regs.lcEn = true) (hwait : s.wcnt ≠ 0) : s.Inv := by
  refine h.inv (by rw [hst]; rfl) pins (fun _ e => ?_) (fun _ _ => ⟨hlc, hwait⟩) (fun e => ?_) (fun e => ?_)
  · rw [hph] at e; cases e
  · rw [hst] at e; cases e
  · rw [hst] at e; cases e

theorem State.InSend.endEmit_inv {s : State} (h : s.InSend) (hst : s.status.st = .sending) (pins : s.PinsMatch) :
    s.endEmit.Inv := by
  rcases s.endEmit_cases with ⟨hlc, he⟩ | ⟨hlc, hset, he⟩ | ⟨-, -, he⟩ <;> rw [he]
  · exact h.enterAwait_inv ⟨by simp [pins.1, hlc], by simp [pins.2, hlc]⟩
  · exact State.InSend.settle_inv (h.congr rfl h.retries) hst rfl pins hlc hset
  · exact State.InSend.endSettle_inv (h.congr rfl h.retries) pins

/-! ## TxTake and Tick (44_transaction.md R250, R251) -/

theorem State.Inv.txTake_inv {s : State} (h : s.Inv) : s.txTake.Inv := by
  rcases s.txTake_cases with ⟨-, ht⟩ | ⟨b, -, hst, hph, hb, ht⟩
  · rwa [ht]
  · have hsend : s.InSend := h.inSend (by rw [hst]; rfl)
    have hidx : s.tx.idx < s.tx.frame.length := h.offers hst hph
    rcases ht with ⟨hmore, ht⟩ | ⟨-, ht⟩ <;> rw [ht]
    · refine State.InSend.inv (hsend.congr rfl hsend.retries) (by rw [hst]; rfl) h.pinsMatch (fun _ _ => ?_)
        (fun _ e => ?_) (fun e => ?_) (fun e => ?_)
      · show s.tx.idx + 1 < s.tx.frame.length
        omega
      · cases hph.symm.trans e
      · cases hst.symm.trans e
      · cases hst.symm.trans e
    · exact State.InSend.endEmit_inv (hsend.congr rfl hsend.retries) hst h.pinsMatch

theorem State.Inv.tick_inv {s : State} (h : s.Inv) : s.tick.Inv := by
  rcases s.tick_cases with ⟨-, ht⟩ | ⟨hwaits, hwait, ht⟩ | ⟨hst, -, -, ht⟩ | ⟨hst, -, ht⟩ | ⟨hst, -, ht⟩ <;> rw [ht]
  · exact h
  · have hsend : s.InSend := h.inSend (by rcases hwaits with ⟨e, -⟩ | e | e <;> rw [e] <;> rfl)
    exact State.InSend.inv (hsend.congr rfl hsend.retries) (by rcases hwaits with ⟨e, -⟩ | e | e <;> rw [e] <;> rfl)
      h.pinsMatch h.offers (fun e e' => ⟨(h.settles e e').1, hwait⟩)
      (fun e => ⟨⟨hwait, (h.awaits e).2⟩, h.parserOk e⟩) (fun _ => hwait)
  · have hsend : s.InSend := h.inSend (by rw [hst]; rfl)
    exact State.InSend.endSettle_inv (hsend.congr rfl hsend.retries) h.pinsMatch
  · have hsend : s.InSend := h.inSend (by rw [hst]; rfl)
    exact State.InSend.timeout_inv (hsend.congr rfl hsend.retries) (h.pinsLow (by rw [hst]; decide))
  · have hsend : s.InSend := h.inSend (by rw [hst]; rfl)
    exact State.InSend.startAttempt_inv (hsend.congr rfl hsend.retries) (h.pinsLow (by rw [hst]; decide))

end Sys2Proof.Machine

/-! SUPPORT. Every event keeps the invariant: a received byte through the parser, the Exec step of every command, host
writes, Reset. -/

namespace Sys2Proof.Machine
open Sys2Proof.Claims

/-! ## The receive parser (43_frame_codec.md R207-R215) -/

theorem Regs.alen_pos (r : Regs) : 0 < r.alen := by unfold Regs.alen; split <;> decide

theorem Regs.hlen_pos (r : Regs) : 0 < r.hlen := Nat.add_pos_left r.alen_pos _

/-- The checks of a whole frame end the parse. -/
theorem Regs.validate_ne_cont (r : Regs) (x : Rx) : r.validate x ≠ .cont := by
  have hcheck : ∀ hdr p rc, r.checkFrame hdr p rc ≠ .cont := fun hdr p rc h => by
    rcases r.checkFrame_cases hdr p rc with ⟨-, hc⟩ | ⟨-, hc | hc | hc | hc⟩ <;> cases hc.symm.trans h
  rcases r.validate_cases x with ⟨-, -, hv⟩ | ⟨-, -, hv⟩ | ⟨-, hv⟩ <;> rw [hv]
  · simp
  · exact hcheck _ _ _
  · exact hcheck _ _ _

/-- The parser at the start marker: the header is next, or, when it is escaped, the body that holds it. -/
theorem Regs.parserOk_start (r : Regs) :
    r.ParserOk { ph := if r.escHdr then .body else .hdr, hdr := [], body := [], ck := [] } := by
  cases hesc : r.escHdr <;> constructor <;> simp [hesc, r.hlen_pos, r.ckw_pos]

/-- A raw header byte: the header grows, and the last one opens the body. -/
theorem Regs.ParserOk.hdr_byte {r : Regs} {x : Rx} (h : r.ParserOk x) (hph : x.ph = .hdr) (b : Byte) :
    r.ParserOk { x with hdr := x.hdr ++ [b], ph := if x.hdr.length + 1 = r.hlen then .body else .hdr } := by
  obtain ⟨hesc, hlen⟩ := h.hdr hph
  have hnil : x.ck = [] := h.ck.2 (by rw [hph]; decide)
  by_cases hlast : x.hdr.length + 1 = r.hlen
  · constructor <;> simp [hlast, hesc, h.body, hnil, r.ckw_pos]
  · constructor <;> simp [hlast, hesc, h.body, hnil, r.ckw_pos]
    omega

/-- Between the body and the checksum field the parser moves without touching the header, the body or the checksum. -/
theorem Regs.ParserOk.to_phase {r : Regs} {x : Rx} (h : r.ParserOk x) (hph : x.ph = .body ∨ x.ph = .escp)
    {ph : RxPhase} (hhunt : ph ≠ .hunt) (hhdr : ph ≠ .hdr) : r.ParserOk { x with ph := ph } where
  body := h.body
  hunt := fun e => absurd e hhunt
  hdr := fun e => absurd e hhdr
  inFrame := fun _ _ => by rcases hph with e | e <;> exact h.inFrame (by simp [e]) (by simp [e])
  ck := ⟨h.ck.1, fun _ => by rcases hph with e | e <;> exact h.ck.2 (by simp [e])⟩

/-- A byte of the checksum field that does not fill it. -/
theorem Regs.ParserOk.ck_byte {r : Regs} {x : Rx} (h : r.ParserOk x) (hph : x.ph = .ck)
    (hmore : x.ck.length + 1 ≠ r.ckw) (b : Byte) : r.ParserOk { x with ck := x.ck ++ [b] } :=
  { h with
    hunt := fun e => by cases hph.symm.trans e
    hdr := fun e => by cases hph.symm.trans e
    ck := ⟨by have := h.ck.1; simp only [List.length_append, List.length_singleton]; omega,
      fun e => absurd hph e⟩ }

/-- A parser that goes on stays well-formed. -/
theorem Regs.ParserOk.rxStep {r : Regs} {x y : Rx} {b : Byte} (h : r.ParserOk x)
    (hs : r.rxStep x b = (y, .cont)) : r.ParserOk y := by
  have hbody : y.body.length ≤ r.cap := Regs.body_le_cap_of_rxStep h.body hs
  rcases r.rxStep_cases x b with ⟨-, -, hx⟩ | ⟨-, -, hx⟩ | ⟨hph, hx⟩ | ⟨hph, -, hx⟩ | ⟨hph, -, -, hx⟩ |
    ⟨-, -, -, -, hx⟩ | ⟨hph, hx⟩ | ⟨hph, hck, hx⟩ | ⟨-, -, hx⟩ <;> rw [hx] at hs
  · cases hs
    exact h
  · cases hs
    exact r.parserOk_start
  · cases hs
    exact h.hdr_byte hph b
  · cases hs
    exact h.to_phase (.inl hph) (by decide) (by decide)
  · cases hs
    exact h.to_phase (.inl hph) (by decide) (by decide)
  · cases hs
  · rcases r.rxAppend_cases x b with ⟨-, ha⟩ | ⟨-, ha⟩ <;> rw [ha] at hs <;> cases hs
    have hopen : x.ph = .body ∨ x.ph = .escp := hph.imp (fun e => e.1) id
    exact { h.to_phase hopen (ph := .body) (by decide) (by decide) with
      body := hbody
      hunt := fun e => by cases e }
  · cases hs
    exact h.ck_byte hph hck b
  · exact absurd (Prod.mk.inj hs).2 (r.validate_ne_cont _)

/-- The failures that the parser reports: each names its sub-code, and BUSY is none of them. -/
abbrev Failure.OfParser (f : Failure) : Prop := f.Named ∧ f ≠ .busyRsp

theorem Regs.ofParser_of_checkFrame {r : Regs} {hdr p rc : List Byte} {head : Option (Half × Byte)} {f : Failure}
    (h : r.checkFrame hdr p rc = .bad head f) : f.OfParser := by
  rcases r.checkFrame_cases hdr p rc with ⟨-, hc⟩ | ⟨-, hc | hc | hc | hc⟩ <;> cases hc.symm.trans h <;> decide

theorem Regs.ofParser_of_validate {r : Regs} {x : Rx} {head : Option (Half × Byte)} {f : Failure}
    (h : r.validate x = .bad head f) : f.OfParser := by
  rcases r.validate_cases x with ⟨-, -, hv⟩ | ⟨-, -, hv⟩ | ⟨-, hv⟩
  · cases hv.symm.trans h
    decide
  · exact Regs.ofParser_of_checkFrame (hv.symm.trans h)
  · exact Regs.ofParser_of_checkFrame (hv.symm.trans h)

theorem Regs.ofParser_of_rxStep {r : Regs} {x y : Rx} {b : Byte} {head : Option (Half × Byte)} {f : Failure}
    (h : r.rxStep x b = (y, .bad head f)) : f.OfParser := by
  rcases r.rxStep_cases x b with ⟨-, -, hx⟩ | ⟨-, -, hx⟩ | ⟨-, hx⟩ | ⟨-, -, hx⟩ | ⟨-, -, -, hx⟩ | ⟨-, -, -, -, hx⟩ |
    ⟨-, hx⟩ | ⟨-, -, hx⟩ | ⟨-, -, hx⟩ <;> rw [hx] at h
  · cases h
  · cases h
  · cases h
  · cases h
  · cases h
  · cases h
    decide
  · rcases r.rxAppend_cases x b with ⟨-, ha⟩ | ⟨-, ha⟩ <;> cases ha.symm.trans h
    decide
  · cases h
  · exact Regs.ofParser_of_validate (Prod.mk.inj h).2

theorem Regs.ofParser_of_rxFeed {r : Regs} {x y : Rx} {d : List Byte} {n : Nat} {head : Option (Half × Byte)}
    {f : Failure} (h : r.rxFeed x d = (y, n, .bad head f)) : f.OfParser := by
  induction d generalizing x n with
  | nil => cases h
  | cons b d ih =>
    rcases hs : r.rxStep x b with ⟨z, res⟩
    by_cases hc : res = .cont
    · subst hc
      rw [Regs.rxFeed_cons_cont hs] at h
      simp only [Prod.mk.injEq] at h
      obtain ⟨hy, -, hres⟩ := h
      exact ih (n := (r.rxFeed z d).2.1) (by rw [← hy, ← hres])
    · rw [Regs.rxFeed_cons_done hs hc] at h
      cases h
      exact Regs.ofParser_of_rxStep hs

/-! ## RxByte (44_transaction.md R255-R259) -/

theorem State.Inv.rxStatus_inv {s : State} (h : s.Inv) (hst : s.status.st = .await) (b : Byte) :
    (s.rxStatus b).Inv := by
  have hsend : s.InSend := h.inSend (by rw [hst]; rfl)
  have pins : s.status.PinsLow := h.pinsLow (by rw [hst]; decide)
  rcases s.rxStatus_cases b with ht | ht | ht | ht <;> rw [ht]
  · exact hsend.toRunning.completeOk_inv pins
  · exact hsend.attemptFailed_inv pins (by decide)
  · exact hsend.attemptFailed_inv pins (by decide)
  · exact hsend.attemptFailed_inv pins (by decide)

theorem State.Inv.rxFrame_inv {s t : State} (h : s.Inv) (hst : s.status.st = .await) {b : Byte}
    (ht : s.rxFrame b = .next t) : t.Inv := by
  obtain ⟨x, res, hx, u, hu, ht⟩ := State.rxFrame_cases ht
  have hsend : s.InSend := h.inSend (by rw [hst]; rfl)
  have husend : u.InSend := hsend.congr (by simp [hu, State.sendPart]) (by simpa [hu] using hsend.retries)
  have pins : u.status.PinsLow := by simpa [hu] using h.pinsLow (by rw [hst]; decide)
  rcases ht with ⟨rfl, rfl⟩ | ⟨a, c, p, rfl, ht⟩ | ⟨hd, f, rfl, rfl⟩
  · obtain ⟨hwait, htmo⟩ := h.awaits hst
    refine husend.await_inv (by simpa [hu] using hst) pins ?_ (by simpa [hu] using htmo) ?_
    · rw [hu]
      simp only [State.recordHeader_wcnt]
      split
      · exact htmo
      · exact hwait
    · simpa [hu] using (h.parserOk hst).rxStep hx
  · exact husend.toRunning.finishWithOutput_inv pins ht
  · exact husend.attemptFailed_inv pins (Regs.ofParser_of_rxStep hx).1

theorem State.Inv.rxByte_inv {s t : State} (h : s.Inv) {b : Byte} (ht : s.rxByte b = .next t) : t.Inv := by
  rcases s.rxByte_cases b with ⟨-, hb⟩ | ⟨hst, -, hb⟩ | ⟨hst, -, hb⟩ <;> rw [hb] at ht
  · cases ht
    exact h.congr rfl
  · cases ht
    exact h.rxStatus_inv hst b
  · exact h.rxFrame_inv hst ht

/-! ## The Exec step -/

/-- The pseudocode of the command with a functional or illegal opcode. -/
def pseudocode (opc : Opc) (s : State) : Host.Outcome State Fault Refusal :=
  match opc.toNat with
  | 0x1 => s.runEscape
  | 0x2 => s.runUnescape
  | 0x3 => s.runCksum
  | 0x4 => s.runCkverify
  | 0x5 => s.runBuild
  | 0x6 => s.runParse
  | 0x7 => s.runSend
  | _ => s.illegal

/-- Every opcode but NOP and CLEAR is a command of the template (40_command_control.md R130-R134). -/
theorem exec_decodeOpc {opc : Opc} (hnop : opc ≠ 0x0) (hclear : opc ≠ 0x8) (s : State) :
    exec (decodeOpc opc) s = s.command opc (pseudocode opc) := by
  obtain ⟨⟨n, hn⟩⟩ := opc
  interval_cases n <;> first | rfl | contradiction

/-- What the command of an opcode does in whichever of its two events: NOP nothing, CLEAR at once, any other by the
template. -/
theorem exec_decodeOpc_cases (opc : Opc) (s : State) :
    exec (decodeOpc opc) s = .next s ∨
    exec (decodeOpc opc) s = .next (if s.busy then s.rejectCmd else s.clear) ∨
    (opc ≠ 0x0 ∧ opc ≠ 0x8 ∧ exec (decodeOpc opc) s = s.command opc (pseudocode opc)) := by
  by_cases hnop : opc = 0x0
  · exact .inl (by rw [hnop]; rfl)
  · by_cases hclear : opc = 0x8
    · exact .inr (.inl (by rw [hclear]; rfl))
    · exact .inr (.inr ⟨hnop, hclear, exec_decodeOpc hnop hclear s⟩)

theorem State.Running.runEscape_inv {s t : State} (h : s.Running) (pins : s.status.PinsLow)
    (ht : s.runEscape = .next t) : t.Inv := by
  simp only [State.runEscape] at ht
  split at ht
  · cases ht
    exact h.raise_inv (by decide) (by decide) (by decide) (by decide)
  · exact h.finishWithOutput_inv pins ht

theorem State.Running.runUnescape_inv {s t : State} (h : s.Running) (pins : s.status.PinsLow)
    (ht : s.runUnescape = .next t) : t.Inv := by
  unfold State.runUnescape at ht
  split at ht
  · cases ht
    exact h.raise_inv (by decide) (by decide) (by decide) (by decide)
  · split at ht
    · cases ht
      exact h.raise_inv (by decide) (by decide) (by decide) (by decide)
    · exact h.finishWithOutput_inv pins ht

theorem State.Running.runCkverify_inv {s t : State} (h : s.Running) (pins : s.status.PinsLow)
    (hopc : s.status.lastOpc = 0x4) (ht : s.runCkverify = .next t) : t.Inv := by
  cases ht
  refine State.inv_of_not_busy rfl ⟨h.params, h.dbufWf, h.dbufInside, h.reserved⟩ ?_ pins
  constructor <;> simp [h.clean.errCode, h.clean.lastCause, h.clean.malSub, hopc]

theorem State.Running.runBuild_inv {s t : State} (h : s.Running) (pins : s.status.PinsLow)
    (ht : s.runBuild = .next t) : t.Inv := by
  simp only [State.runBuild] at ht
  split at ht
  · cases ht
    exact h.raise_inv (by decide) (by decide) (by decide) (by decide)
  · have hu : State.Running { s with results.ckRes := s.regs.frameCk s.regs.txAddr s.regs.txCtrl s.srcBytes } :=
      h.congr rfl rfl rfl rfl
    exact hu.finishWithOutput_inv pins ht

theorem State.Running.runParse_inv {s t : State} (h : s.Running) (pins : s.status.PinsLow)
    (ht : s.runParse = .next t) : t.Inv := by
  unfold State.runParse at ht
  rcases hf : s.regs.rxFeed Rx.reset s.srcBytes with ⟨x, n, res⟩
  simp only [hf] at ht
  have hu : (({ s with rx := x, results.consumed := BitVec.ofNat 16 n }).recordHeader res).Running :=
    h.congr (by simp) (by simp) (by simp) (by simp)
  cases res with
  | cont =>
    cases ht
    exact hu.raise_inv (by decide) (by decide) (by decide) (by decide)
  | frame a c p => exact hu.finishWithOutput_inv (by simpa using pins) ht
  | bad hd f =>
    cases ht
    obtain ⟨hnamed, hbusy⟩ := Regs.ofParser_of_rxFeed hf
    exact hu.raise_inv f.code_ne_none (Failure.code_ne_busyRsp hbusy) f.code_ne_exhausted
      (Failure.sub_ne_none_iff hnamed)

theorem State.Running.runSend_inv {s t : State} (h : s.Running) (pins : s.status.PinsLow) (hpend : s.pendOpc = 0x7)
    (hlast : s.status.lastOpc = 0x7) (hc : s.execCheck 0x7 = none) (ht : s.runSend = .next t) : t.Inv := by
  cases ht
  refine State.InSend.startAttempt_inv { h with
    pendOpc := hpend
    lastOpc := hlast
    checked := hc
    frame := congrArg (s.regs.frame _ _) (State.srcBytes_congr rfl rfl rfl rfl)
    retries := Nat.zero_le _ } pins

theorem State.Running.pseudocode_inv {s t : State} (h : s.Running) (pins : s.status.PinsLow) {opc : Opc}
    (hpend : s.pendOpc = opc) (hlast : s.status.lastOpc = opc) (hc : s.execCheck opc = none)
    (ht : pseudocode opc s = .next t) : t.Inv := by
  unfold pseudocode at ht
  split at ht
  next => exact h.runEscape_inv pins ht
  next => exact h.runUnescape_inv pins ht
  next => cases ht; exact State.Running.completeOk_inv (h.congr rfl rfl rfl rfl) pins
  next hopc => exact h.runCkverify_inv pins (hlast.trans (BitVec.eq_of_toNat_eq hopc)) ht
  next => exact h.runBuild_inv pins ht
  next => exact h.runParse_inv pins ht
  next hopc =>
    obtain rfl : opc = 0x7 := BitVec.eq_of_toNat_eq hopc
    exact h.runSend_inv pins hpend hlast hc ht
  next => cases ht; exact h.raise_inv (by decide) (by decide) (by decide) (by decide)

/-- The Exec step of the pending command: a check raises, or its pseudocode runs. -/
theorem State.Inv.command_inv {s t : State} (h : s.Inv) (ha : s.agent = .exec) (hst : s.status.st = .exec)
    (ht : s.command s.pendOpc (pseudocode s.pendOpc) = .next t) : t.Inv := by
  have hb : s.busy = true := by simp [State.busy, hst, SeqState.busy]
  have pins : s.status.PinsLow := h.pinsLow (by rw [hst]; decide)
  rw [State.command_of_exec ha] at ht
  rcases State.execStep_cases ht with ⟨e, hc, rfl⟩ | ⟨hc, ht⟩
  · exact (h.running hb).raise_inv_of_execCheck hc
  · exact (h.running hb).pseudocode_inv pins rfl (h.lastOpc hb) hc ht

theorem State.Inv.execEvent_inv {s t : State} (h : s.Inv) (ha : s.agent = .exec) (ht : s.execEvent = .next t) :
    t.Inv := by
  unfold State.execEvent at ht
  split at ht
  · next hst =>
    obtain ⟨hnop, hclear⟩ := h.pending hst
    rw [exec_decodeOpc hnop hclear] at ht
    exact h.command_inv ha hst ht
  · cases ht
    exact h

/-! ## Host writes -/

/-- A command's write to CMD (40_command_control.md R131, R132). -/
theorem State.Inv.cmdWrite_inv {s : State} (h : s.Inv) {opc : Opc} (hnop : opc ≠ 0x0) (hclear : opc ≠ 0x8) :
    (s.cmdWrite opc).Inv := by
  cases hb : s.busy with
  | true =>
    rw [State.cmdWrite_of_busy hb]
    exact h.congr rfl
  | false =>
    rw [State.cmdWrite_of_not_busy hb]
    exact State.inv_of_no_transaction rfl ⟨h.params, h.dbufWf, h.dbufInside, h.reserved⟩
      (Status.Clean.consistent ⟨rfl, rfl, rfl, rfl⟩ (by simp)) (h.pinsLow (State.st_ne_sending_of_not_busy hb))
      (fun _ => ⟨hnop, hclear, rfl⟩)

theorem State.Inv.clear_inv {s : State} (h : s.Inv) (hb : s.busy = false) : s.clear.Inv := by
  exact State.inv_of_not_busy rfl ⟨h.params, h.dbufWf, h.dbufInside, h.reserved⟩
    (Status.Clean.consistent ⟨rfl, rfl, rfl, rfl⟩ (by simp)) (h.pinsLow (State.st_ne_sending_of_not_busy hb))

theorem State.Inv.exec_write_inv {s t : State} (h : s.Inv) (ha : s.agent ≠ .exec) {w : Word}
    (ht : exec (decode w) s = .next t) : t.Inv := by
  unfold decode at ht
  rcases exec_decodeOpc_cases (opcField w) s with hx | hx | ⟨hnop, hclear, hx⟩ <;> rw [hx] at ht
  · cases ht
    exact h
  · rw [← Host.Outcome.next.inj ht]
    split
    · exact h.congr rfl
    · next hb => exact h.clear_inv (by simpa using hb)
  · rw [State.command_of_write ha] at ht
    cases ht
    exact h.cmdWrite_inv hnop hclear

/-- CTRL is read by nothing that the invariant speaks of. -/
theorem State.Inv.ctrlWrite_inv {s : State} (h : s.Inv) (w : Word) : (s.ctrlWrite w).Inv :=
  { h with
    reserved := fun reg => by simpa [State.ctrlWrite] using h.reserved reg
    frame := fun ht => (h.frame ht).trans ((Regs.frame_ctrl ..).symm.trans
      (congrArg _ (State.srcBytes_congr rfl rfl rfl rfl))) }

theorem State.Inv.opRegWrite_inv {s : State} (h : s.Inv) (reg : OpReg) (w : Word) : (s.opRegWrite reg w).Inv := by
  rcases s.opRegWrite_cases reg w with ⟨-, ht⟩ | ⟨hb, -, ht⟩ <;> rw [ht]
  · exact h.congr rfl
  · refine h.of_storageOk hb rfl { h.storageOk with reserved := fun other => ?_ }
    rw [Regs.get_put]
    split
    · next e => rw [e, BitVec.and_assoc]; simp
    · exact h.reserved other

@[simp] theorem wordBytes_length (w : Word) (n : Nat) : (wordBytes w n).length = n := by
  induction n generalizing w with
  | zero => rfl
  | succ n ih => simp [wordBytes, ih]

/-- An aligned access to a byte of DBUF stays in DBUF, whose size is a multiple of four (00_scope.md R8). -/
theorem Params.access_inside_of_legal {p : Params} (hp : p.legal) {a : Nat} {width : Width} (ha : a < p.dbufSize)
    (hal : a % width.bytes = 0) : a + width.bytes ≤ p.dbufSize := by
  obtain ⟨-, h4, -, -⟩ := hp
  cases width <;> simp only [Width.bytes] at hal ⊢ <;> omega

theorem State.Inv.dbufWrite_inv {s : State} (h : s.Inv) {a : Nat} {width : Width} (hal : a % width.bytes = 0)
    (w : Word) : (s.dbufWrite a width w).Inv := by
  rcases s.dbufWrite_cases a width w with ⟨-, ht⟩ | ⟨-, -, ht⟩ | ⟨ha, hb, ht⟩ <;> rw [ht]
  · exact h
  · exact h.congr rfl
  · refine h.of_storageOk hb rfl (h.storageOk.putAll ?_)
    rw [wordBytes_length]
    exact Params.access_inside_of_legal h.params ha hal

theorem State.Inv.regWrite_inv {s t : State} (h : s.Inv) (ha : s.agent ≠ .exec) {off : Nat} {w : Word}
    (ht : s.regWrite off w = .next t) : t.Inv := by
  rcases s.regWrite_cases off w with ⟨-, hw⟩ | hw | ⟨reg, hw⟩ | hw <;> rw [hw] at ht
  · exact h.exec_write_inv ha ht
  · cases ht
    exact h.ctrlWrite_inv w
  · cases ht
    exact h.opRegWrite_inv reg w
  · cases ht
    exact h

theorem State.Inv.hostWrite_inv {s t : State} (h : s.Inv) (ha : s.agent ≠ .exec) {addr : Nat} {width : Width}
    {w : Word} (ht : s.hostWrite addr width w = .next t) : t.Inv := by
  have hw : State.Inv { s with bus := .written } := h.congr rfl
  rcases s.hostWrite_window_cases addr width w with hc | hc | ⟨off, hc⟩ | ⟨a, hal, hc⟩ <;> rw [hc] at ht
  · cases ht
    exact h.congr rfl
  · cases ht
    exact h.congr rfl
  · exact hw.regWrite_inv ha ht
  · cases ht
    exact hw.dbufWrite_inv hal w

/-! ## Every step -/

theorem Regs.get_reset_and_not_mask (reg : OpReg) : Regs.reset.get reg &&& ~~~reg.mask = 0 := by
  cases reg with
  | rsv k => revert k; decide
  | _ => decide

theorem State.resetEvent_inv {s : State} (hp : s.params.legal) : s.resetEvent.Inv := by
  exact State.inv_of_not_busy rfl ⟨hp, rfl, by simp, Regs.get_reset_and_not_mask⟩
    (Status.Clean.consistent ⟨rfl, rfl, rfl, rfl⟩ (by simp [Status.reset])) ⟨rfl, rfl⟩

theorem State.Inv.applyEvent_inv {s t : State} (h : s.Inv) {e : Event} (ha : s.agent = e.agent)
    (ht : s.applyEvent e = .next t) : t.Inv := by
  cases e with
  | hostRead addr width =>
    obtain ⟨d, n, hr⟩ := s.hostRead_frame addr width
    cases ht
    rw [hr]
    exact h.congr rfl
  | hostWrite addr width data => exact h.hostWrite_inv (by simp [ha, Event.agent]) ht
  | txTake => cases ht; exact h.txTake_inv
  | rxByte b => exact h.rxByte_inv ht
  | tick => cases ht; exact h.tick_inv
  | exec => exact h.execEvent_inv ha ht
  | reset => cases ht; exact State.resetEvent_inv h.params

/-- Settles O58, event by event: each update of a transaction keeps what holds of it in every phase, and the phase it
enters asks for the rest. -/
theorem everyStepKeepsTheInvariant : Obligations.EveryStepKeepsTheInvariant := by
  unfold Obligations.EveryStepKeepsTheInvariant
  intro s t h ht
  rcases step_cases ht with ⟨-, -, rfl⟩ | ⟨-, hst, hx⟩ | ⟨e, rest, -, he⟩
  · exact h
  · have hx : (s.begin .exec []).execEvent = .next t := by simpa [State.execEvent, hst] using hx
    exact State.Inv.execEvent_inv (s := s.begin .exec []) (h.congr rfl) rfl hx
  · exact State.Inv.applyEvent_inv (s := s.begin e rest) (h.congr rfl) rfl he

end Sys2Proof.Machine

/-! SUPPORT. What the words of the register map and the bytes of DBUF read as: the layout of STATUS and of the results
(spec/10_state.md R22-R29, R54-R57), and which bits and bytes are draws while Busy (R62, spec/20_memory.md R73, R74). -/

namespace Sys2Proof.Machine
open Sys2Proof.Claims

/-! ## The words of STATUS and of the results (10_state.md R22-R29, R54-R57) -/

/-- The bits of STATUS, counted up field by field. -/
theorem State.getLsbD_statusWord (s : State) (i : Nat) :
    s.statusWord.getLsbD i =
      if i < 3 then s.status.st.code.getLsbD i
      else if i < 4 then s.busy
      else if i < 5 then s.done
      else if i < 6 then s.status.vok
      else if i < 7 then s.status.rts
      else if i < 8 then s.status.dtr
      else if i < 12 then s.status.errCode.code.getLsbD (i - 8)
      else if i < 16 then s.status.lastCause.code.getLsbD (i - 12)
      else if i < 19 then s.status.malSub.code.getLsbD (i - 16)
      else if i < 20 then false
      else if i < 21 then s.status.cmdRej
      else if i < 22 then s.status.wrIgn
      else if i < 24 then false
      else if i < 28 then s.status.lastOpc.getLsbD (i - 24)
      else if i < 29 then s.irq
      else false := by
  unfold State.statusWord
  refine BitVec.getLsbD_append.trans ?_
  -- The bounds of the two chains agree branch by branch, and then the fields do.
  simp only [BitVec.getLsbD_append, BitVec.getLsbD_ofBool, Nat.sub_sub]
  repeat' refine ite_congr (propext (by omega)) (fun _ => ?_) (fun _ => ?_)
  all_goals simp <;> omega

/-- A field of STATUS is known by its bits. -/
theorem State.extractLsb'_statusWord (s : State) {start len : Nat} {field : BitVec len}
    (h : ∀ i < len, s.statusWord.getLsbD (start + i) = field.getLsbD i) :
    s.statusWord.extractLsb' start len = field := by
  refine BitVec.eq_of_getLsbD_eq fun i hi => ?_
  rw [BitVec.getLsbD_extractLsb', h i hi]
  simp [hi]

/-- Settles O53: each clause reads its field off the bits of the word. -/
theorem statusWordLayout : Obligations.StatusWordLayout := by
  unfold Obligations.StatusWordLayout
  intro s
  have bit := s.getLsbD_statusWord
  refine ⟨?st, bit 3, bit 4, bit 5, bit 6, bit 7, ?errCode, ?lastCause, ?malSub, bit 19, bit 20, bit 21, ?gap, ?lastOpc,
    (bit 28).trans ?irq, ?top⟩
  case irq =>
    show (s.regs.irqEn && s.status.st.done) = _
    cases s.status.st <;> rfl
  all_goals
    refine s.extractLsb'_statusWord fun i hi => ?_
    interval_cases i <;> exact bit _

/-- A field that lies in the upper part of a word. -/
theorem extractLsb'_append_above {n m k len : Nat} {hi : BitVec n} {lo : BitVec m} :
    (hi ++ lo).extractLsb' (m + k) len = hi.extractLsb' k len := by
  rw [BitVec.extractLsb'_append_eq_ite, dif_neg (by omega), Nat.add_sub_cancel_left]

/-- Settles O60: each field is read off the concatenation that defines its word. -/
theorem resultWordsLayout : Obligations.ResultWordsLayout := by
  unfold Obligations.ResultWordsLayout
  intro s
  have hid : idWord.extractLsb' 16 16 = 0x4846 ∧ idWord.extractLsb' 0 16 = 0x0001 := by decide
  have low {n m : Nat} {hi : BitVec n} {lo : BitVec m} : (hi ++ lo).extractLsb' 0 m = lo :=
    BitVec.extractLsb'_append_eq_right
  have high {n m : Nat} {hi : BitVec n} {lo : BitVec m} : (hi ++ lo).extractLsb' m n = hi :=
    BitVec.extractLsb'_append_eq_left
  refine ⟨hid, rfl, ⟨?irqEn, ?lock, ?_⟩, ⟨low, high⟩, ⟨low, high⟩, ⟨low, ?_, ?_⟩, ⟨low, ?_, ?_⟩⟩
  case irqEn => exact BitVec.getLsbD_append.trans (by simp)
  case lock => exact BitVec.getLsbD_append.trans (BitVec.getLsbD_append.trans (by simp))
  · exact (extractLsb'_append_above (m := 1) (k := 1)).trans high
  · exact (extractLsb'_append_above (m := 16) (k := 0)).trans low
  · exact (extractLsb'_append_above (m := 16) (k := 8)).trans high
  · exact (extractLsb'_append_above (m := 8) (k := 0)).trans low
  · exact (extractLsb'_append_above (m := 8) (k := 8)).trans high

/-! ## Reads of DBUF, byte by byte (20_memory.md R73, R74) -/

/-- A bit of the word with the given bytes from bits [7:0] up (20_memory.md R73). -/
theorem getLsbD_bytesWord (l : List Byte) {k i : Nat} (hk : k < 4) (hi : i < 8) :
    (bytesWord l).getLsbD (8 * k + i) = (l.getD k 0).getLsbD i := by
  induction l generalizing k with
  | nil => simp [bytesWord]
  | cons b l ih =>
    simp only [bytesWord, BitVec.getLsbD_or, BitVec.getLsbD_setWidth, BitVec.getLsbD_shiftLeft]
    cases k with
    | zero => simp [hi]; omega
    | succ k =>
      have hb : b.getLsbD (8 * (k + 1) + i) = false := BitVec.getLsbD_of_ge _ _ (by omega)
      have hpos : 8 * (k + 1) + i < 32 := by omega
      have hnot : ¬8 * (k + 1) + i < 8 := by omega
      rw [hb, show 8 * (k + 1) + i - 8 = 8 * k + i by omega, ih (by omega)]
      simp [hpos, hnot]

/-- Byte lane `k` of that word is byte `k`, and 0 above the bytes given. -/
theorem extractLsb'_bytesWord (l : List Byte) {k : Nat} (hk : k < 4) :
    (bytesWord l).extractLsb' (8 * k) 8 = l.getD k 0 := by
  refine BitVec.eq_of_getLsbD_eq fun i hi => ?_
  rw [BitVec.getLsbD_extractLsb', getLsbD_bytesWord l hk hi]
  simp [hi]

/-- Byte lane `k` of an aligned read of DBUF: what the lane reads inside the access, 0 above it. -/
theorem State.extractLsb'_dbufReadWord (s : State) (a : Nat) (width : Width) {k : Nat} (hk : k < 4) :
    (s.dbufReadWord a width).extractLsb' (8 * k) 8 = if k < width.bytes then s.dbufRead (a + k) k else 0 := by
  rw [State.dbufReadWord, extractLsb'_bytesWord _ hk]
  split
  · next h => simp [h]
  · next h => rw [List.getD_eq_default _ _ (by simpa using h)]

/-! ## Reads while Busy and not -/

theorem State.regRead_of_not_busy {s : State} (hb : s.busy = false) (off : Nat) : s.regRead off = s.regWord off := by
  simp [State.regRead, hb]

/-- Outside the bits of the draw a register read is exact. -/
theorem State.regRead_and_not_drawMask (s : State) (off : Nat) :
    s.regRead off &&& ~~~drawMask off = s.regWord off &&& ~~~drawMask off := by
  unfold State.regRead
  split
  · ext i
    simp only [BitVec.getElem_and, BitVec.getElem_or, BitVec.getElem_not]
    cases (drawMask off)[i] <;> simp
  · rfl

/-- While Busy the bits of R62 read as the draw. -/
theorem State.regRead_and_drawMask {s : State} (hb : s.busy = true) (off : Nat) :
    s.regRead off &&& drawMask off = Config.busyDraw s.draws &&& drawMask off := by
  rw [State.regRead, if_pos hb]
  ext i
  simp only [BitVec.getElem_and, BitVec.getElem_or, BitVec.getElem_not]
  cases (drawMask off)[i] <;> simp

theorem drawMask_eq (off : Nat) :
    drawMask off = if off = 0x008 then 0x0007FF20 else if off = 0x048 then 0xFFFFFFFF
      else if off = 0x04C then 0x0000FFFF else if off = 0x050 then 0x00FFFFFF else 0 := by
  unfold drawMask
  split
  · rfl
  · rfl
  · rfl
  · rfl
  · next hstatus hresult hck hhdr => rw [if_neg hstatus, if_neg hresult, if_neg hck, if_neg hhdr]

/-- An unmapped offset reads 0, Busy or not. -/
theorem State.regRead_of_unmapped (s : State) {off : Nat} (h : off = 0x058 ∨ off = 0x05C ∨ 0x080 ≤ off) :
    s.regRead off = 0 := by
  have hmask : drawMask off = 0 := by
    rw [drawMask_eq, if_neg (by omega), if_neg (by omega), if_neg (by omega), if_neg (by omega)]
  have hnone : OpReg.ofOffset off = none := by
    rcases h with rfl | rfl | h
    · rfl
    · rfl
    · cases hreg : OpReg.ofOffset off with
      | none => rfl
      | some reg => have := OpReg.ofOffset_bound hreg; omega
  have hword : s.regWord off = 0 := by
    unfold State.regWord
    rw [hnone]
    split <;> first | omega | rfl
  simp [State.regRead, hmask, hword]

/-- A byte of DBUF that is no draw reads as it is. -/
theorem State.dbufRead_exact {s : State} {a : Nat} (ha : a < s.params.dbufSize)
    (h : s.busy = false ∨ s.regs.inDst a = false) (lane : Nat) : s.dbufRead a lane = s.dbufByte a := by
  rw [State.dbufRead, if_neg (by omega), if_neg (by rcases h with h | h <;> simp [h])]

/-- A byte of the DST region while Busy reads as its lane of the draw. -/
theorem State.dbufRead_draw {s : State} {a : Nat} (ha : a < s.params.dbufSize) (hb : s.busy = true)
    (hdst : s.regs.inDst a = true) (lane : Nat) :
    s.dbufRead a lane = (Config.busyDraw s.draws).extractLsb' (8 * lane) 8 := by
  rw [State.dbufRead, if_neg (by omega), if_pos (by simp [hb, hdst])]
  rfl

end Sys2Proof.Machine

/-! SUPPORT. Host accesses as steps (spec/10_state.md R29, R58-R62, spec/20_memory.md R70-R75), and what a step can do to
the operands (spec/10_state.md R59). -/

namespace Sys2Proof.Machine
open Sys2Proof.Claims

/-! ## A step that is one host access -/

theorem step_hostRead {s : State} {addr : Nat} {width : Width} {rest : List Event}
    (h : s.events = .hostRead addr width :: rest) :
    step s = .next ((after s .host rest).hostRead addr width) := step_event h

theorem step_hostWrite {s : State} {addr : Nat} {width : Width} {w : Word} {rest : List Event}
    (h : s.events = .hostWrite addr width w :: rest) :
    step s = (after s .host rest).hostWrite addr width w := step_event h

theorem step_read_reg {s : State} {off : Nat} {rest : List Event} (hoff : off < 0x1000) (h4 : off % 4 = 0)
    (h : s.events = .hostRead (s.params.base + off) .w32 :: rest) :
    step s = .next { after s .host rest with
      bus := .readData (s.regRead off), draws := if s.busy then s.draws + 1 else s.draws } := by
  rw [step_hostRead h]
  exact congrArg _ ((after s .host rest).hostRead_reg hoff h4)

theorem step_read_dbuf {s : State} {a : Nat} {width : Width} {rest : List Event} (ha : a < 0x1000)
    (hal : a % width.bytes = 0) (h : s.events = .hostRead (s.params.base + 0x1000 + a) width :: rest) :
    step s = .next { after s .host rest with
      bus := .readData (s.dbufReadWord a width), draws := if s.busy then s.draws + 1 else s.draws } := by
  rw [step_hostRead h]
  exact congrArg _ ((after s .host rest).hostRead_dbuf ha hal)

theorem step_write_reg {s : State} {off : Nat} {w : Word} {rest : List Event} (hoff : off < 0x1000)
    (h4 : off % 4 = 0) (h : s.events = .hostWrite (s.params.base + off) .w32 w :: rest) :
    step s = ({ after s .host rest with bus := .written } : State).regWrite off w := by
  rw [step_hostWrite h]
  exact (after s .host rest).hostWrite_reg hoff h4 w

theorem step_write_opReg {s : State} {off : Nat} {reg : OpReg} {w : Word} {rest : List Event}
    (hreg : OpReg.ofOffset off = some reg) (h : s.events = .hostWrite (s.params.base + off) .w32 w :: rest) :
    step s = .next (({ after s .host rest with bus := .written } : State).opRegWrite reg w) := by
  obtain ⟨hoff, h4, -, -⟩ := OpReg.ofOffset_bound hreg
  rw [step_write_reg (by omega) h4 h, State.regWrite_of_ofOffset _ hreg]

/-! ## Writes that are stored, ignored or inert (10_state.md R58, R59, R29) -/

/-- A write that Busy or LOCK shuts out. -/
theorem State.opRegWrite_of_shut {s : State} {reg : OpReg}
    (h : s.busy = true ∨ (reg.lockable = true ∧ s.regs.lock = true)) (w : Word) :
    s.opRegWrite reg w = s.ignoreWrite := by
  rw [State.opRegWrite, if_pos (by simpa using h)]

/-- A write that neither shuts out. -/
theorem State.opRegWrite_of_open {s : State} {reg : OpReg} (hb : s.busy = false)
    (hlock : (reg.lockable && s.regs.lock) = false) (w : Word) :
    s.opRegWrite reg w = { s with regs := s.regs.put reg w } := by
  rw [State.opRegWrite, if_neg (by simp [hb, hlock])]

theorem step_write_open {s : State} {off : Nat} {reg : OpReg} {w : Word} {rest : List Event}
    (hreg : OpReg.ofOffset off = some reg) (hb : s.busy = false) (hlock : (reg.lockable && s.regs.lock) = false)
    (h : s.events = .hostWrite (s.params.base + off) .w32 w :: rest) :
    step s = .next { after s .host rest with bus := .written, regs := s.regs.put reg w } :=
  (step_write_opReg hreg h).trans (congrArg _
    (State.opRegWrite_of_open (s := { after s .host rest with bus := .written }) hb hlock w))

/-- Settles O43: the write stores the word without its read-0 bits, and the read, of a block that is not Busy, answers
it. -/
theorem registerReadsBackWhatWasStored : Obligations.RegisterReadsBackWhatWasStored := by
  unfold Obligations.RegisterReadsBackWhatWasStored
  intro s off reg w rest hreg hb hlock hev
  obtain ⟨hoff, h4, -, -⟩ := OpReg.ofOffset_bound hreg
  have hwrite := step_write_open hreg hb hlock hev
  refine ⟨_, (run_succ hwrite 1).trans ((run_succ (step_read_reg (by omega) h4 rfl) 0).trans (run_zero _)),
    ?answer, fun other hne => ?others, ?frame, Regs.put_irqEn .., Regs.put_lock ..⟩
  case answer =>
    refine congrArg _ ((State.regRead_of_not_busy ?_ off).trans ?_)
    · exact hb
    · rw [State.regWord_of_ofOffset _ hreg, Regs.get_put, if_pos rfl]
  case others => exact (Regs.get_put ..).trans (if_neg hne)
  case frame =>
    have hst : s.status.st.busy = false := hb
    simp [State.busy, after, hst]

/-- Settles O44: a register that Busy or LOCK shuts out, DBUF while Busy, and CTRL, which nothing shuts out. -/
theorem ignoredWritesSetWrIgn : Obligations.IgnoredWritesSetWrIgn := by
  unfold Obligations.IgnoredWritesSetWrIgn
  refine ⟨fun s off reg w rest hreg hshut hev => ?_, fun s a width w rest hp hb ha hal hev => ?_,
    fun s w rest hev => ?_⟩
  · exact (step_write_opReg hreg hev).trans (congrArg _
      (State.opRegWrite_of_shut (s := { after s .host rest with bus := .written }) hshut w))
  · obtain ⟨-, -, -, hsize⟩ := hp
    rw [step_hostWrite hev]
    refine ((after s .host rest).hostWrite_dbuf (by omega) hal w).trans (congrArg _ ?_)
    rcases State.dbufWrite_cases { after s .host rest with bus := .written } a width w with
      ⟨hout, -⟩ | ⟨-, -, hw⟩ | ⟨-, hrest, -⟩
    · exact absurd ha (Nat.not_lt_of_le hout)
    · exact hw
    · cases hb.symm.trans hrest
  · exact step_write_reg (off := 0x00C) (by decide) (by decide) hev

/-- Settles O54: no register of the map stands at the offset, or the address is outside the window. -/
theorem inertAccessesChangeNothing : Obligations.InertAccessesChangeNothing := by
  unfold Obligations.InertAccessesChangeNothing
  refine ⟨fun s off w rest hoff h4 hcmd hctrl hnone hev => ?_, fun s off rest h4 hoff hev => ?_,
    fun s addr width w e rest hout he hev => ?_⟩
  · rw [step_write_reg hoff h4 hev, State.regWrite_of_inert _ hcmd hctrl hnone]
  · exact ⟨_, step_read_reg (by omega) h4 hev, congrArg _ (s.regRead_of_unmapped (by omega))⟩
  · have hwin : (after s .host rest).windowOffset addr = none := State.windowOffset_outside hout
    rcases he with rfl | rfl
    · rw [step_hostRead hev, State.hostRead, hwin]
    · rw [step_hostWrite hev, State.hostWrite, hwin]

/-! ## Reads (10_state.md R58, R62, 20_memory.md R73, R75) -/

/-- Settles O52: each read is one access, whose answer is exact outside the bits and bytes that read as draws. -/
theorem readsAreExactAndWithoutSideEffect : Obligations.ReadsAreExactAndWithoutSideEffect := by
  unfold Obligations.ReadsAreExactAndWithoutSideEffect
  refine ⟨fun s addr width rest hev => ?_, fun s off rest hoff h4 hev => ?_,
    fun s a width rest hp ha hal hev => ?_⟩
  · obtain ⟨d, n, hread⟩ := (after s .host rest).hostRead_frame addr width
    refine ⟨_, step_hostRead hev, ?_⟩
    rw [hread]
  · refine ⟨s.regRead off, step_read_reg hoff h4 hev, fun hb => State.regRead_of_not_busy hb off, ?_⟩
    rw [← drawMask_eq]
    exact ⟨s.regRead_and_not_drawMask off, fun hb => State.regRead_and_drawMask hb off⟩
  · have hsize : a + width.bytes ≤ s.params.dbufSize := Params.access_inside_of_legal hp ha hal
    have hbytes : width.bytes ≤ 4 := by cases width <;> decide
    have lane {k : Nat} := @State.extractLsb'_dbufReadWord s a width k
    obtain ⟨-, -, -, hmax⟩ := hp
    refine ⟨s.dbufReadWord a width, step_read_dbuf (by omega) hal hev, fun k hk h => ?_, fun k hk hb hdst => ?_,
      fun k hk hk4 => ?_⟩
    · rw [lane (by omega), if_pos hk, State.dbufRead_exact (by omega) h]
    · rw [lane (by omega), if_pos hk, State.dbufRead_draw (by omega) hb hdst]
    · rw [lane hk4, if_neg (by omega)]

/-! ## What a step can do to the operands -/

/-- What a step other than Reset can do to the registers and DBUF: leave the registers, and DBUF too but to complete or
in a block at rest; write CTRL; or store a write to a register that is open to it. -/
inductive State.OperandStep (s t : State) : Prop
  | kept (regs : t.regs = s.regs) (dbuf : t.dbuf = s.dbuf ∨ s.busy = false ∨ t.busy = false)
  | ctrl (w : Word) (regs : t.regs = (s.ctrlWrite w).regs) (dbuf : t.dbuf = s.dbuf)
  | stored (reg : OpReg) (w : Word) (atRest : s.busy = false) (unlocked : (reg.lockable && s.regs.lock) = false)
      (regs : t.regs = s.regs.put reg w)

theorem State.OperandStep.of_finishWithOutput {s u t : State} (hu : u.regs = s.regs) {out : List Byte}
    (ht : u.finishWithOutput out = .next t) : s.OperandStep t := by
  obtain ⟨-, rfl⟩ := State.finishWithOutput_cases ht
  exact .kept hu (.inr (.inr rfl))

/-- A step from a state with the same registers, DBUF and status. -/
theorem State.OperandStep.congr {s u t : State} (h : u.OperandStep t) (hr : u.regs = s.regs) (hd : u.dbuf = s.dbuf)
    (hs : u.status = s.status) : s.OperandStep t := by
  have hb : u.busy = s.busy := by rw [State.busy, State.busy, hs]
  cases h with
  | kept regs dbuf => exact .kept (regs.trans hr) (by rwa [hd, hb] at dbuf)
  | ctrl w regs dbuf => exact .ctrl w (by rw [regs, State.ctrlWrite, State.ctrlWrite, hr]) (dbuf.trans hd)
  | stored reg w atRest unlocked regs => exact .stored reg w (hb ▸ atRest) (hr ▸ unlocked) (hr ▸ regs)

/-- An update of neither the registers nor DBUF. -/
theorem State.OperandStep.of_eq {s t : State} (hr : t.regs = s.regs) (hd : t.dbuf = s.dbuf) : s.OperandStep t :=
  .kept hr (.inl hd)

theorem State.OperandStep.of_pseudocode {s t : State} {opc : Opc} (ht : pseudocode opc s = .next t) :
    s.OperandStep t := by
  unfold pseudocode at ht
  split at ht
  next =>
    simp only [State.runEscape] at ht
    split at ht
    · cases ht; exact .of_eq rfl rfl
    · exact .of_finishWithOutput rfl ht
  next =>
    unfold State.runUnescape at ht
    split at ht
    · cases ht; exact .of_eq rfl rfl
    · split at ht
      · cases ht; exact .of_eq rfl rfl
      · exact .of_finishWithOutput rfl ht
  next => cases ht; exact .of_eq rfl rfl
  next => cases ht; exact .of_eq rfl rfl
  next =>
    simp only [State.runBuild] at ht
    split at ht
    · cases ht; exact .of_eq rfl rfl
    · exact .of_finishWithOutput (by rfl) ht
  next =>
    unfold State.runParse at ht
    rcases hf : s.regs.rxFeed Rx.reset s.srcBytes with ⟨x, n, res⟩
    simp only [hf] at ht
    cases res with
    | cont => cases ht; exact .of_eq (by simp) (by simp)
    | frame a c p => exact .of_finishWithOutput (by simp) ht
    | bad hd f => cases ht; exact .of_eq (by simp) (by simp)
  next => cases ht; exact .of_eq (by simp) (by simp)
  next => cases ht; exact .of_eq rfl rfl

theorem State.OperandStep.of_exec {s t : State} {opc : Opc} (ht : exec (decodeOpc opc) s = .next t) :
    s.OperandStep t := by
  rcases exec_decodeOpc_cases opc s with hx | hx | ⟨-, -, hx⟩ <;> rw [hx] at ht
  · cases ht
    exact .of_eq rfl rfl
  · rw [← Host.Outcome.next.inj ht]
    split
    · exact .of_eq rfl rfl
    · exact .of_eq rfl rfl
  · rcases State.command_cases ht with ⟨-, -, rfl⟩ | ⟨-, -, rfl⟩ | ⟨-, e, -, rfl⟩ | ⟨-, -, ht⟩
    · exact .of_eq rfl rfl
    · exact .of_eq rfl rfl
    · exact .of_eq rfl rfl
    · exact .of_pseudocode ht

theorem State.OperandStep.of_hostWrite {s t : State} {addr : Nat} {width : Width} {w : Word}
    (ht : s.hostWrite addr width w = .next t) : s.OperandStep t := by
  rcases s.hostWrite_cases addr width w with hw | hw | ⟨-, hw⟩ | hw | ⟨reg, hw⟩ | hw | ⟨a, hw⟩ <;> rw [hw] at ht
  · cases ht
    exact .of_eq rfl rfl
  · cases ht
    exact .of_eq rfl rfl
  · exact (State.OperandStep.of_exec ht).congr rfl rfl rfl
  · cases ht
    exact .ctrl w rfl rfl
  · cases ht
    rcases State.opRegWrite_cases { s with bus := .written } reg w with ⟨-, ho⟩ | ⟨hb, hlock, ho⟩ <;> rw [ho]
    · exact .of_eq rfl rfl
    · exact .stored reg w hb hlock rfl
  · cases ht
    exact .of_eq rfl rfl
  · cases ht
    rcases State.dbufWrite_cases { s with bus := .written } a width w with ⟨-, ho⟩ | ⟨-, -, ho⟩ | ⟨-, hb, ho⟩ <;>
      rw [ho]
    · exact .of_eq rfl rfl
    · exact .of_eq rfl rfl
    · exact .kept rfl (.inr (.inl hb))

theorem State.OperandStep.of_rxByte {s t : State} {b : Byte} (ht : s.rxByte b = .next t) : s.OperandStep t := by
  rcases s.rxByte_cases b with ⟨-, hb⟩ | ⟨-, -, hb⟩ | ⟨-, -, hb⟩ <;> rw [hb] at ht
  · cases ht
    exact .of_eq rfl rfl
  · cases ht
    exact .of_eq (by simp) (by simp)
  · obtain ⟨x, res, -, u, hu, ht⟩ := State.rxFrame_cases ht
    rcases ht with ⟨-, rfl⟩ | ⟨a, c, p, -, ht⟩ | ⟨hd, f, -, rfl⟩
    · exact .of_eq (by simp [hu]) (by simp [hu])
    · exact .of_finishWithOutput (by simp [hu]) ht
    · exact .of_eq (by simp [hu]) (by simp [hu])

theorem State.OperandStep.of_execEvent {s t : State} (ht : s.execEvent = .next t) : s.OperandStep t := by
  unfold State.execEvent at ht
  split at ht
  · exact .of_exec ht
  · cases ht
    exact .of_eq rfl rfl

theorem State.OperandStep.of_applyEvent {s t : State} {e : Event} (he : e ≠ .reset) (ht : s.applyEvent e = .next t) :
    s.OperandStep t := by
  cases e with
  | hostRead addr width =>
    obtain ⟨d, n, hr⟩ := s.hostRead_frame addr width
    cases ht
    rw [hr]
    exact .of_eq rfl rfl
  | hostWrite addr width data => exact .of_hostWrite ht
  | txTake => cases ht; exact .of_eq (by simp) (by simp)
  | rxByte b => exact .of_rxByte ht
  | tick => cases ht; exact .of_eq (by simp) (by simp)
  | exec => exact .of_execEvent ht
  | reset => exact absurd rfl he

/-- Every step but Reset is one of the three. -/
theorem operandStep_of_step {s t : State} (hr : NoReset s) (ht : step s = .next t) : s.OperandStep t := by
  rcases step_cases ht with ⟨-, -, rfl⟩ | ⟨-, -, hx⟩ | ⟨e, rest, hev, he⟩
  · exact .of_eq rfl rfl
  · exact (State.OperandStep.of_exec hx).congr rfl rfl rfl
  · have hne : e ≠ .reset := by rintro rfl; exact hr (by rw [hev]; rfl)
    exact (State.OperandStep.of_applyEvent hne he).congr rfl rfl rfl

/-- Settles O45: a locked register is not open to a stored write, and CTRL never clears LOCK. -/
theorem lockHoldsTheProfileUntilReset : Obligations.LockHoldsTheProfileUntilReset := by
  unfold Obligations.LockHoldsTheProfileUntilReset
  intro s t hlock hr ht
  cases operandStep_of_step hr ht with
  | kept regs dbuf => exact ⟨regs ▸ hlock, fun reg _ => by rw [regs]⟩
  | ctrl w regs dbuf =>
    rw [regs]
    exact ⟨by simp [State.ctrlWrite, hlock], fun reg _ => Regs.get_ctrl ..⟩
  | stored target w atRest unlocked regs =>
    rw [regs]
    refine ⟨(Regs.put_lock ..).trans hlock, fun reg hreg => ?_⟩
    have hne : reg ≠ target := by
      rintro rfl
      simp [hreg, hlock] at unlocked
    rw [Regs.get_put, if_neg hne]

/-- Settles O46: no write is stored while Busy, CTRL is no operand, and DBUF changes only as the command completes. -/
theorem operandsAreConstantWhileBusy : Obligations.OperandsAreConstantWhileBusy := by
  unfold Obligations.OperandsAreConstantWhileBusy
  intro s t hb hr ht
  cases operandStep_of_step hr ht with
  | kept regs dbuf =>
    refine ⟨fun reg => by rw [regs], fun htb => ?_⟩
    rcases dbuf with dbuf | hrest | hdone
    · exact dbuf
    · cases hb.symm.trans hrest
    · cases htb.symm.trans hdone
  | ctrl w regs dbuf => exact ⟨fun reg => by rw [regs]; exact Regs.get_ctrl .., fun _ => dbuf⟩
  | stored reg w atRest => cases hb.symm.trans atRest

end Sys2Proof.Machine

/-! SUPPORT. DBUF under host accesses (spec/20_memory.md R71-R74) and under the commands (R79, spec/60_exceptions.md
R316): where an access is a bus error, which byte each lane of it moves, and what a step of a Busy block can do to
DBUF. -/

namespace Sys2Proof.Machine
open Sys2Proof.Claims

/-! ## Misplaced accesses (20_memory.md R71, R72) -/

theorem misplaced_eq_true_iff (off : Nat) (width : Width) :
    misplaced off width = true ↔
      (off < 0x1000 ∧ (width ≠ .w32 ∨ off % 4 ≠ 0)) ∨ (0x1000 ≤ off ∧ off % width.bytes ≠ 0) := by
  unfold misplaced
  split
  · next h => simp [h]
  · next h => simp [Nat.le_of_not_lt h, h]

theorem State.hostRead_misplaced (s : State) {off : Nat} {width : Width} (hoff : off < 0x2000)
    (hm : misplaced off width = true) :
    s.hostRead (s.params.base + off) width = { s with bus := .busError } := by
  simp only [State.hostRead, s.windowOffset_add hoff, hm, if_true]

theorem State.hostWrite_misplaced (s : State) {off : Nat} {width : Width} (hoff : off < 0x2000)
    (hm : misplaced off width = true) (w : Word) :
    s.hostWrite (s.params.base + off) width w = .next { s with bus := .busError } := by
  simp only [State.hostWrite, s.windowOffset_add hoff, hm, if_true]

/-- Settles O49: the access is in the window and misplaced, so a read and a write alike end in the bus error. -/
theorem misplacedAccessIsABusError : Obligations.MisplacedAccessIsABusError := by
  unfold Obligations.MisplacedAccessIsABusError
  intro s off width w e rest he hplace hev
  have hoff : off < 0x2000 := by omega
  have hm : misplaced off width = true :=
    (misplaced_eq_true_iff off width).2 (hplace.imp_right fun ⟨hlo, _, hal⟩ => ⟨hlo, hal⟩)
  rcases he with rfl | rfl
  · rw [step_hostRead hev]
    exact congrArg _ ((after s .host rest).hostRead_misplaced hoff hm)
  · rw [step_hostWrite hev]
    exact (after s .host rest).hostWrite_misplaced hoff hm w

/-! ## Writes and reads of the DBUF window (20_memory.md R73, R74) -/

theorem step_write_dbuf {s : State} {a : Nat} {width : Width} {w : Word} {rest : List Event} (ha : a < 0x1000)
    (hal : a % width.bytes = 0) (h : s.events = .hostWrite (s.params.base + 0x1000 + a) width w :: rest) :
    step s = .next (({ after s .host rest with bus := .written } : State).dbufWrite a width w) := by
  rw [step_hostWrite h]
  exact (after s .host rest).hostWrite_dbuf ha hal w

/-- At or above `DBUF_SIZE` a write is dropped. -/
theorem State.dbufWrite_of_ge {s : State} {a : Nat} (h : s.params.dbufSize ≤ a) (width : Width) (w : Word) :
    s.dbufWrite a width w = s := if_pos h

/-- A write to DBUF of a block that is not Busy. -/
theorem State.dbufWrite_of_not_busy {s : State} {a : Nat} (h : a < s.params.dbufSize) (hb : s.busy = false)
    (width : Width) (w : Word) :
    s.dbufWrite a width w = { s with dbuf := s.dbuf.putAll a (wordBytes w width.bytes) } := by
  rw [State.dbufWrite, if_neg (Nat.not_le_of_lt h), if_neg (by simp [hb])]

theorem step_write_dbuf_stored {s : State} {a : Nat} {width : Width} {w : Word} {rest : List Event} (hwin : a < 0x1000)
    (ha : a < s.params.dbufSize) (hb : s.busy = false) (hal : a % width.bytes = 0)
    (h : s.events = .hostWrite (s.params.base + 0x1000 + a) width w :: rest) :
    step s = .next { after s .host rest with
      bus := .written, dbuf := s.dbuf.putAll a (wordBytes w width.bytes) } :=
  (step_write_dbuf hwin hal h).trans (congrArg _
    (State.dbufWrite_of_not_busy (s := { after s .host rest with bus := .written }) ha hb width w))

/-- Byte `k` of a word taken apart, bits [7:0] first, is its byte lane `k`. -/
theorem getD_wordBytes (w : Word) {n k : Nat} (hk : k < n) : (wordBytes w n).getD k 0 = w.extractLsb' (8 * k) 8 := by
  induction n generalizing w k with
  | zero => omega
  | succ n ih =>
    cases k with
    | zero => simp [wordBytes, BitVec.setWidth_eq_extractLsb']
    | succ k =>
      rw [wordBytes, List.getD_cons_succ, ih _ (by omega)]
      ext i hi
      simp only [BitVec.getElem_extractLsb', BitVec.getLsbD_ushiftRight]
      congr 1
      omega

/-- Inside the access, a write stores the byte lanes of its data word. -/
theorem State.dbufByte_in_access {s t : State} {a n : Nat} {w : Word}
    (hd : t.dbuf = s.dbuf.putAll a (wordBytes w n)) (he : t.epoch = s.epoch) {k : Nat} (hk : k < n) :
    t.dbufByte (a + k) = w.extractLsb' (8 * k) 8 := by
  rw [State.dbufByte_putAll s a _ t hd he, wordBytes_length, if_pos (by omega), Nat.add_sub_cancel_left,
    getD_wordBytes w hk]

/-- Outside the access, a write leaves every byte. -/
theorem State.dbufByte_off_access {s t : State} {a n : Nat} {w : Word}
    (hd : t.dbuf = s.dbuf.putAll a (wordBytes w n)) (he : t.epoch = s.epoch) {j : Nat} (hj : j < a ∨ a + n ≤ j) :
    t.dbufByte j = s.dbufByte j := by
  rw [State.dbufByte_putAll s a _ t hd he, wordBytes_length, if_neg (by omega)]

/-- Settles O50: MemWrite places the byte lanes of the data word, and MemRead joins the bytes to lanes. -/
theorem dbufAccessIsLittleEndian : Obligations.DbufAccessIsLittleEndian := by
  unfold Obligations.DbufAccessIsLittleEndian
  intro s a width w rest hp hb ha hal
  have hsize : a + width.bytes ≤ s.params.dbufSize := Params.access_inside_of_legal hp ha hal
  have hwin : a < 0x1000 := by
    obtain ⟨-, -, -, hmax⟩ := hp
    omega
  constructor
  · intro hev
    refine ⟨_, step_write_dbuf_stored hwin ha hb hal hev, rfl, fun k hk => ?_, fun j hj => ?_⟩
    · exact State.dbufByte_in_access (s := s) (by rfl) (by rfl) hk
    · exact State.dbufByte_off_access (s := s) (by rfl) (by rfl) hj
  · intro hev
    refine ⟨s.dbufReadWord a width, ?_, fun k hk => ?_, fun k hk hk4 => ?_⟩
    · simpa [hb, after] using step_read_dbuf hwin hal hev
    · have hk4 : k < 4 := lt_of_lt_of_le hk (by cases width <;> decide)
      rw [s.extractLsb'_dbufReadWord a width hk4, if_pos hk, State.dbufRead_exact (by omega) (.inl hb)]
    · rw [s.extractLsb'_dbufReadWord a width hk4, if_neg (by omega)]

theorem bytesWord_eq_zero {l : List Byte} (h : ∀ b ∈ l, b = 0) : bytesWord l = 0 := by
  induction l with
  | nil => rfl
  | cons b l ih =>
    obtain ⟨rfl, hl⟩ := List.forall_mem_cons.1 h
    rw [bytesWord, ih hl]
    rfl

/-- At or above `DBUF_SIZE` every lane of a read is 0, Busy or not. -/
theorem State.dbufReadWord_of_ge {s : State} {a : Nat} (h : s.params.dbufSize ≤ a) (width : Width) :
    s.dbufReadWord a width = 0 := by
  refine bytesWord_eq_zero fun b hb => ?_
  obtain ⟨lane, -, rfl⟩ := List.mem_map.1 hb
  exact if_pos (by omega)

/-- Settles O51: the write is dropped, and the read, Busy or not, answers 0 in every lane. -/
theorem dbufWindowBeyondDbufIsInert : Obligations.DbufWindowBeyondDbufIsInert := by
  unfold Obligations.DbufWindowBeyondDbufIsInert
  intro s a width w rest _ hout ha hal
  constructor
  · intro hev
    exact (step_write_dbuf ha hal hev).trans (congrArg _
      (State.dbufWrite_of_ge (s := { after s .host rest with bus := .written }) hout width w))
  · intro hev
    refine ⟨if s.busy then s.draws + 1 else s.draws, ?_⟩
    rw [step_read_dbuf ha hal hev, State.dbufReadWord_of_ge hout]

/-! ## What a step of a Busy block can do to DBUF (20_memory.md R79, 60_exceptions.md R316) -/

/-- A step that keeps DBUF, or that ends a command in SUCCESS with output of at most DST_CAP bytes at DST_PTR. -/
inductive State.OutputStep (s t : State) : Prop
  | kept (dbuf : t.dbuf = s.dbuf) (epoch : t.epoch = s.epoch)
  | output (out : List Byte) (fits : out.length ≤ s.regs.dstCap)
      (dbuf : t.dbuf = s.dbuf.putAll s.regs.dstPtr out) (epoch : t.epoch = s.epoch) (st : t.status.st = .success)

/-- Output written after an update of neither the registers nor DBUF. -/
theorem State.OutputStep.of_finishWithOutput {s u t : State} {out : List Byte} (hr : u.regs = s.regs)
    (hd : u.dbuf = s.dbuf) (he : u.epoch = s.epoch) (fits : out.length ≤ s.regs.dstCap)
    (ht : u.finishWithOutput out = .next t) : s.OutputStep t := by
  obtain ⟨-, rfl⟩ := State.finishWithOutput_cases ht
  exact .output out fits (by simp only [hd, hr]) he rfl

/-- A step from a state with the same registers and DBUF. -/
theorem State.OutputStep.congr {s u t : State} (h : u.OutputStep t) (hr : u.regs = s.regs) (hd : u.dbuf = s.dbuf)
    (he : u.epoch = s.epoch) : s.OutputStep t := by
  cases h with
  | kept dbuf epoch => exact .kept (dbuf.trans hd) (epoch.trans he)
  | output out fits dbuf epoch st => exact .output out (hr ▸ fits) (by rw [dbuf, hd, hr]) (epoch.trans he) st

theorem State.OutputStep.of_runParse {s t : State} (ht : s.runParse = .next t) : s.OutputStep t := by
  unfold State.runParse at ht
  rcases hf : s.regs.rxFeed Rx.reset s.srcBytes with ⟨x, n, res⟩
  simp only [hf] at ht
  cases res with
  | cont => cases ht; exact .kept (by simp) (by simp)
  | frame a c p =>
    have fits : p.length ≤ s.regs.dstCap := Regs.payload_le_of_rxFeed (Nat.zero_le _) hf
    exact .of_finishWithOutput (by simp) (by simp) (by simp) fits ht
  | bad hd f => cases ht; exact .kept (by simp) (by simp)

/-- ESCAPE, UNESCAPE and BUILD check their output against DST_CAP; the parser's capacity bounds PARSE's. -/
theorem State.OutputStep.of_pseudocode {s t : State} {opc : Opc} (ht : pseudocode opc s = .next t) :
    s.OutputStep t := by
  unfold pseudocode at ht
  split at ht
  next =>
    simp only [State.runEscape] at ht
    split at ht
    · cases ht; exact .kept rfl rfl
    · next fits => exact .of_finishWithOutput rfl rfl rfl (Nat.le_of_not_lt fits) ht
  next =>
    unfold State.runUnescape at ht
    split at ht
    · cases ht; exact .kept rfl rfl
    · split at ht
      · cases ht; exact .kept rfl rfl
      · next fits => exact .of_finishWithOutput rfl rfl rfl (Nat.le_of_not_lt fits) ht
  next => cases ht; exact .kept rfl rfl
  next => cases ht; exact .kept rfl rfl
  next =>
    simp only [State.runBuild] at ht
    split at ht
    · cases ht; exact .kept rfl rfl
    · next fits => exact .of_finishWithOutput (by rfl) (by rfl) (by rfl) (Nat.le_of_not_lt fits) ht
  next => exact .of_runParse ht
  next => cases ht; exact .kept (by simp) (by simp)
  next => cases ht; exact .kept rfl rfl

theorem State.OutputStep.of_exec {s t : State} {opc : Opc} (ht : exec (decodeOpc opc) s = .next t) :
    s.OutputStep t := by
  rcases exec_decodeOpc_cases opc s with hx | hx | ⟨-, -, hx⟩ <;> rw [hx] at ht
  · cases ht
    exact .kept rfl rfl
  · rw [← Host.Outcome.next.inj ht]
    split
    · exact .kept rfl rfl
    · exact .kept rfl rfl
  · rcases State.command_cases ht with ⟨-, -, rfl⟩ | ⟨-, -, rfl⟩ | ⟨-, e, -, rfl⟩ | ⟨-, -, ht⟩
    · exact .kept rfl rfl
    · exact .kept rfl rfl
    · exact .kept rfl rfl
    · exact .of_pseudocode ht

/-- While Busy a host write leaves DBUF alone, in its window too (10_state.md R59). -/
theorem State.OutputStep.of_hostWrite {s t : State} {addr : Nat} {width : Width} {w : Word} (hb : s.busy = true)
    (ht : s.hostWrite addr width w = .next t) : s.OutputStep t := by
  rcases s.hostWrite_cases addr width w with hw | hw | ⟨-, hw⟩ | hw | ⟨reg, hw⟩ | hw | ⟨a, hw⟩ <;> rw [hw] at ht
  · cases ht
    exact .kept rfl rfl
  · cases ht
    exact .kept rfl rfl
  · exact (State.OutputStep.of_exec ht).congr rfl rfl rfl
  · cases ht
    exact .kept rfl rfl
  · cases ht
    rw [State.opRegWrite_of_shut (s := { s with bus := .written }) (.inl hb)]
    exact .kept rfl rfl
  · cases ht
    exact .kept rfl rfl
  · cases ht
    rcases State.dbufWrite_cases { s with bus := .written } a width w with ⟨-, ho⟩ | ⟨-, -, ho⟩ | ⟨-, hrest, -⟩
    · rw [ho]
      exact .kept rfl rfl
    · rw [ho]
      exact .kept rfl rfl
    · cases hb.symm.trans hrest

/-- A reply's payload fits DST_CAP, since the parser's body is within its capacity. -/
theorem State.OutputStep.of_rxByte {s t : State} {b : Byte} (h : s.ReplyFits) (ht : s.rxByte b = .next t) :
    s.OutputStep t := by
  rcases s.rxByte_cases b with ⟨-, hb⟩ | ⟨-, -, hb⟩ | ⟨hst, -, hb⟩ <;> rw [hb] at ht
  · cases ht
    exact .kept rfl rfl
  · cases ht
    exact .kept (by simp) (by simp)
  · obtain ⟨x, res, hstep, u, rfl, ht⟩ := State.rxFrame_cases ht
    rcases ht with ⟨-, rfl⟩ | ⟨a, c, p, rfl, ht⟩ | ⟨hd, f, -, rfl⟩
    · exact .kept (by simp) (by simp)
    · obtain ⟨hcap, -⟩ := h hst
      exact .of_finishWithOutput (by simp) (by simp) (by simp) (Regs.payload_le_of_rxStep hcap hstep) ht
    · exact .kept (by simp) (by simp)

theorem State.OutputStep.of_execEvent {s t : State} (ht : s.execEvent = .next t) : s.OutputStep t := by
  unfold State.execEvent at ht
  split at ht
  · exact .of_exec ht
  · cases ht
    exact .kept rfl rfl

theorem State.OutputStep.of_applyEvent {s t : State} {e : Event} (hb : s.busy = true) (h : s.ReplyFits)
    (he : e ≠ .reset) (ht : s.applyEvent e = .next t) : s.OutputStep t := by
  cases e with
  | hostRead addr width =>
    obtain ⟨d, n, hr⟩ := s.hostRead_frame addr width
    cases ht
    rw [hr]
    exact .kept rfl rfl
  | hostWrite addr width data => exact .of_hostWrite hb ht
  | txTake => cases ht; exact .kept (by simp) (by simp)
  | rxByte b => exact .of_rxByte h ht
  | tick => cases ht; exact .kept (by simp) (by simp)
  | exec => exact .of_execEvent ht
  | reset => exact absurd rfl he

/-- Every step of a Busy block but Reset is one of the two. -/
theorem outputStep_of_step {s t : State} (hb : s.busy = true) (h : s.ReplyFits) (hr : NoReset s)
    (ht : step s = .next t) : s.OutputStep t := by
  rcases step_cases ht with ⟨-, -, rfl⟩ | ⟨-, -, hx⟩ | ⟨e, rest, hev, he⟩
  · exact .kept rfl rfl
  · exact (State.OutputStep.of_exec hx).congr rfl rfl rfl
  · have hne : e ≠ .reset := by rintro rfl; exact hr (by rw [hev]; rfl)
    exact (State.OutputStep.of_applyEvent (s := s.begin e rest) hb h hne he).congr rfl rfl rfl

/-- Output of at most DST_CAP bytes leaves every byte outside the DST region. -/
theorem State.OutputStep.dbufByte_of_not_inDst {s t : State} (h : s.OutputStep t) {k : Nat}
    (hk : s.regs.inDst k = false) : t.dbufByte k = s.dbufByte k := by
  cases h with
  | kept dbuf epoch => exact State.dbufByte_congr dbuf epoch k
  | output out fits dbuf epoch =>
    have hout : ¬(s.regs.dstPtr ≤ k ∧ k < s.regs.dstPtr + s.regs.dstCap) := by simpa [Regs.inDst] using hk
    rw [State.dbufByte_putAll s _ out t dbuf epoch, if_neg (by omega)]

/-- Settles O48: DBUF is written only as the command ends in SUCCESS, with output that fits the DST region. -/
theorem commandsWriteOnlyTheDstRegionOnSuccess : Obligations.CommandsWriteOnlyTheDstRegionOnSuccess := by
  unfold Obligations.CommandsWriteOnlyTheDstRegionOnSuccess
  intro s t hinv hb hr ht
  have hstep : s.OutputStep t := outputStep_of_step hb hinv.replyFits hr ht
  refine ⟨fun hst => ?_, fun k hk => hstep.dbufByte_of_not_inDst hk⟩
  cases hstep with
  | kept dbuf => exact dbuf
  | output out fits dbuf epoch st => exact absurd st hst

end Sys2Proof.Machine

/-! SUPPORT. The command word (spec/30_encoding.md R100-R102): the opcode that the decoder reads and the encoder writes,
what each stage of decoding undoes, and the one row of the opcode table that a word matches. -/

namespace Sys2Proof
open Sys2Proof.Claims

/-! ## The opcode field (R100) -/

theorem setWidth_opcField (w : Word) : (opcField w).setWidth 32 = w &&& 0xF := by
  apply BitVec.eq_of_toNat_eq
  have hlow : w.toNat &&& (0xF : Word).toNat = w.toNat % 2 ^ 4 := Nat.and_two_pow_sub_one_eq_mod w.toNat 4
  simp only [opcField, BitVec.toNat_setWidth, BitVec.extractLsb'_toNat, BitVec.toNat_and, hlow, Nat.shiftRight_zero]
  omega

theorem opcField_encode (i : Instr) : opcField (encode i) = i.opcode := (Laws.OpcodeField.of_opcode i).1

/-! ## Decoding an opcode (R101) -/

theorem opcode_decodeOpc (opc : Opc) : (decodeOpc opc).opcode = opc := by
  revert opc
  decide

theorem wellFormed_decodeOpc (opc : Opc) : (decodeOpc opc).wellFormed = true := by
  revert opc
  decide

theorem decodeOpc_of_inRowAB {opc : Opc} (h : opc.inRowAB = true) : decodeOpc opc = .illegalAB opc := by
  revert opc
  decide

theorem decodeOpc_of_inRowCF {opc : Opc} (h : opc.inRowCF = true) : decodeOpc opc = .illegalCF opc := by
  revert opc
  decide

/-- A row with a fixed opcode decodes by computation; a row that carries its opcode does when the opcode lies in it. -/
theorem decodeOpc_opcode {i : Instr} (h : i.wellFormed = true) : decodeOpc i.opcode = i := by
  cases i with
  | illegalAB opc => exact decodeOpc_of_inRowAB h
  | illegalCF opc => exact decodeOpc_of_inRowCF h
  | _ => rfl

theorem decode_encode {i : Instr} (h : i.wellFormed = true) : decode (encode i) = i := by
  rw [decode, opcField_encode, decodeOpc_opcode h]

theorem encode_decode (w : Word) : encode (decode w) = w &&& 0xF := by
  rw [encode, decode, opcode_decodeOpc, setWidth_opcField]

/-- Settles O1: decoding goes through the opcode, which the encoder keeps and the decoder's rows give back. -/
theorem commandDecodingAndEncodingAgree : Obligations.CommandDecodingAndEncodingAgree := by
  unfold Obligations.CommandDecodingAndEncodingAgree
  exact ⟨fun _ h => decode_encode h, fun w => ⟨wellFormed_decodeOpc (opcField w), encode_decode w⟩⟩

/-! ## The rows of the opcode table (R101, R102) -/

theorem tableRow_mask_low (i : Instr) : 0xF &&& (tableRow i).2 = (tableRow i).2 := by
  cases i <;> simp [tableRow]

/-- No row's mask looks at the ignored bits. -/
theorem and_tableRow_mask (w : Word) (i : Instr) :
    w &&& (tableRow i).2 = (opcField w).setWidth 32 &&& (tableRow i).2 := by
  rw [setWidth_opcField, BitVec.and_assoc, tableRow_mask_low]

/-- An opcode matches the row of the command it decodes to and no other row: sixteen opcodes against each row, whose
words do not depend on the opcode that an ILLEGAL command carries. -/
theorem setWidth_matches_tableRow_iff (opc : Opc) (i : Instr) :
    opc.setWidth 32 &&& (tableRow i).2 = (tableRow i).1 ↔ tableRow i = tableRow (decodeOpc opc) := by
  cases i <;> (simp only [tableRow]; revert opc; decide)

theorem matches_tableRow_iff (w : Word) (i : Instr) :
    w &&& (tableRow i).2 = (tableRow i).1 ↔ tableRow i = tableRow (decode w) := by
  rw [and_tableRow_mask, setWidth_matches_tableRow_iff, decode]

/-- Settles O2: matching a row is being the row of the decoded command. -/
theorem everyWordMatchesExactlyItsTableRow : Obligations.EveryWordMatchesExactlyItsTableRow := by
  unfold Obligations.EveryWordMatchesExactlyItsTableRow
  exact fun w => ⟨(matches_tableRow_iff w (decode w)).mpr rfl, opcode_decodeOpc (opcField w),
    fun i _ hmatch => (matches_tableRow_iff w i).mp hmatch⟩

/-- Settles O3: the decoder run on each of the nine words. -/
theorem writtenOutWordsDecode : Obligations.WrittenOutWordsDecode := by
  unfold Obligations.WrittenOutWordsDecode
  decide

end Sys2Proof

/-! SUPPORT. The length of a frame, part by part (spec/30_encoding.md R110-R115): the header, the bytes that escaping
adds, the checksum field. -/

namespace Sys2Proof.Machine
open Sys2Proof.Claims

theorem Regs.length_addrBytes (r : Regs) (a : Half) : (r.addrBytes a).length = r.alen := by
  unfold Regs.addrBytes Regs.alen
  split <;> rfl

theorem Regs.length_ctrlBytes (r : Regs) (c : Byte) (p : List Byte) : (r.ctrlBytes c p).length = r.cflen := by
  unfold Regs.ctrlBytes Regs.cflen
  by_cases hnone : r.hdrMode = 0
  · simp [hnone]
  · have hmode : r.hdrMode.toNat ≠ 0 := fun h => hnone (BitVec.eq_of_toNat_eq h)
    rw [if_neg hnone]
    split
    · next h => exact absurd h hmode
    all_goals rfl

theorem length_hdrBytes (r : Regs) (a : Half) (c : Byte) (p : List Byte) : (hdrBytes r a c p).length = r.hlen := by
  rw [hdrBytes, List.length_append, Regs.length_addrBytes, Regs.length_ctrlBytes, Regs.hlen]

theorem Regs.length_ckBytes (r : Regs) (v : Half) : (r.ckBytes v).length = r.ckw := by
  unfold Regs.ckBytes
  by_cases hone : r.ckw = 1
  · simp [hone]
  · have htwo : r.ckw = 2 := if_neg fun halg => hone (if_pos halg)
    rw [if_neg hone, htwo]
    split <;> rfl

/-- Escaping adds one byte for every byte of `E` (41_escape_codec.md R161). -/
theorem Regs.length_escape (r : Regs) (d : List Byte) : (r.escape d).length = d.length + d.countP r.reserved := by
  induction d with
  | nil => rfl
  | cons b d ih =>
    by_cases hb : r.reserved b = true
    · simp [Regs.escape, hb, ih]
      omega
    · simp [Regs.escape, hb, ih]
      omega

theorem Regs.wireHdr_eq (r : Regs) (a : Half) (c : Byte) (p : List Byte) :
    r.wireHdr a c p = if r.escHdr then r.escape (hdrBytes r a c p) else hdrBytes r a c p := rfl

theorem Regs.length_wireHdr (r : Regs) (a : Half) (c : Byte) (p : List Byte) :
    (r.wireHdr a c p).length =
      if r.escHdr then r.hlen + (hdrBytes r a c p).countP r.reserved else r.hlen := by
  rw [Regs.wireHdr_eq, apply_ite List.length, Regs.length_escape, length_hdrBytes]

theorem Regs.length_frame (r : Regs) (a : Half) (c : Byte) (p : List Byte) :
    (r.frame a c p).length =
      1 + (if r.escHdr then r.hlen + (hdrBytes r a c p).countP r.reserved else r.hlen) + p.length +
        p.countP r.reserved + 1 + r.ckw := by
  simp only [Regs.frame, List.length_append, List.length_singleton, Regs.length_wireHdr, Regs.length_escape,
    Regs.length_ckBytes]
  omega

/-- The two markers, a header byte and a checksum byte. -/
theorem Regs.four_le_length_frame (r : Regs) (a : Half) (c : Byte) (p : List Byte) : 4 ≤ (r.frame a c p).length := by
  have hhdr := r.hlen_pos
  have hck := r.ckw_pos
  rw [Regs.length_frame]
  split <;> omega

theorem Regs.length_frame_shortest {r : Regs} (haddr : r.addrLen = false) (hmode : r.hdrMode = 0)
    (hraw : r.escHdr = false) (halg : r.ckAlg = 0 ∨ r.ckAlg = 1) (a : Half) (c : Byte) :
    (r.frame a c []).length = 4 := by
  have hhdr : r.hlen = 1 := by simp [Regs.hlen, Regs.alen, Regs.cflen, haddr, hmode]
  have hck : r.ckw = 1 := if_pos halg
  rw [Regs.length_frame, hhdr, hck, hraw]
  rfl

/-- Settles O25: the length is the sum of the parts' lengths. -/
theorem frameLengthLaw : Obligations.FrameLengthLaw := by
  unfold Obligations.FrameLengthLaw
  exact fun r a c p => ⟨r.length_frame a c p, r.four_le_length_frame a c p,
    fun haddr hmode hraw halg => Regs.length_frame_shortest haddr hmode hraw halg a c⟩

end Sys2Proof.Machine

/-! SUPPORT. Command control (spec/40_command_control.md): the two events of a command as steps (R130, R134), what its
write to CMD does (R131, R132, R141, R142), the checks of its Exec step in their order (R135-R138), and that nothing but
completion and Reset ends Busy (R145). -/

namespace Sys2Proof.Machine
open Sys2Proof.Claims

/-! ## The events of a command as steps (R130, R134) -/

theorem State.execEvent_of_exec {s : State} (h : s.status.st = .exec) : s.execEvent = exec (decodeOpc s.pendOpc) s :=
  if_pos h

theorem State.execEvent_of_not_exec {s : State} (h : s.status.st ≠ .exec) : s.execEvent = .next s := if_neg h

theorem step_write_cmd {s : State} {w : Word} {rest : List Event}
    (h : s.events = .hostWrite (s.params.base + 4) .w32 w :: rest) :
    step s = exec (decode w) { after s .host rest with bus := .written } :=
  step_write_reg (off := 0x004) (by decide) (by decide) h

theorem step_exec {s : State} {rest : List Event} (h : s.events = .exec :: rest) :
    step s = (after s .exec rest).execEvent := step_event h

/-- Settles O4: CMD is the register at offset 4, and the Exec event asks for EXEC. -/
theorem stepRunsTheDecodedInstruction : Obligations.StepRunsTheDecodedInstruction := by
  unfold Obligations.StepRunsTheDecodedInstruction
  refine ⟨fun s w rest hev => step_write_cmd hev, fun s rest hev hst => ?_, fun s rest hev hst => ?_,
    fun s hev hst => step_idle_exec hev hst, fun s hev hst => step_idle_wait hev hst⟩
  · exact (step_exec hev).trans (State.execEvent_of_exec (s := after s .exec rest) hst)
  · exact (step_exec hev).trans (State.execEvent_of_not_exec (s := after s .exec rest) hst)

/-! ## Commands by their opcode (R130-R134) -/

theorem eq_nop_of_opcode {i : Instr} (hwf : i.wellFormed = true) (h : i.opcode = 0x0) : i = .nop := by
  rw [← decodeOpc_opcode hwf, h]
  rfl

theorem eq_clear_of_opcode {i : Instr} (hwf : i.wellFormed = true) (h : i.opcode = 0x8) : i = .clear := by
  rw [← decodeOpc_opcode hwf, h]
  rfl

/-- Every well-formed command but NOP and CLEAR follows the template. -/
theorem exec_eq_command {i : Instr} (hwf : i.wellFormed = true) (hnop : i.opcode ≠ 0x0) (hclear : i.opcode ≠ 0x8)
    (s : State) : exec i s = s.command i.opcode (pseudocode i.opcode) := by
  rw [← exec_decodeOpc hnop hclear, decodeOpc_opcode hwf]

/-! ## The write to CMD (R131, R132, R141, R142) -/

theorem exec_clear_of_busy {s : State} (hb : s.busy = true) : exec .clear s = .next s.rejectCmd := by
  rw [exec_clear, if_pos hb]

theorem exec_clear_of_not_busy {s : State} (hb : s.busy = false) : exec .clear s = .next s.clear := by
  rw [exec_clear, if_neg (by simp [hb])]

/-- Settles O5: the template rejects while Busy, and so does CLEAR. -/
theorem busyBlockRejectsEveryCommandButNop : Obligations.BusyBlockRejectsEveryCommandButNop := by
  unfold Obligations.BusyBlockRejectsEveryCommandButNop
  intro i s hwf hagent hb
  by_cases hnop : i.opcode = 0x0
  · rw [if_pos hnop, eq_nop_of_opcode hwf hnop, exec_nop]
  rw [if_neg hnop]
  by_cases hclear : i.opcode = 0x8
  · rw [eq_clear_of_opcode hwf hclear]
    exact exec_clear_of_busy hb
  · rw [exec_eq_command hwf hnop hclear, State.command_of_write hagent, State.cmdWrite_of_busy hb]
    rfl

/-- Settles O6: by the opcode, NOP, CLEAR, or a command of the template, which is accepted. -/
theorem acceptanceClearsResultsAndEntersExec : Obligations.AcceptanceClearsResultsAndEntersExec := by
  unfold Obligations.AcceptanceClearsResultsAndEntersExec
  refine fun i s hwf hagent hb => ⟨fun hnop => ?_, fun hclear => ?_, fun hnop hclear => ?_⟩
  · rw [eq_nop_of_opcode hwf hnop, exec_nop]
  · rw [eq_clear_of_opcode hwf hclear]
    exact exec_clear_of_not_busy hb
  · rw [exec_eq_command hwf hnop hclear, State.command_of_write hagent, State.cmdWrite_of_not_busy hb]
    rfl

/-- Settles O7. -/
theorem nopChangesNothing : Obligations.NopChangesNothing := by
  unfold Obligations.NopChangesNothing
  exact exec_nop

/-- Settles O8: both clauses are the two cases of CLEAR. -/
theorem clearReturnsToIdle : Obligations.ClearReturnsToIdle := by
  unfold Obligations.ClearReturnsToIdle
  exact fun s => ⟨exec_clear_of_not_busy, exec_clear_of_busy⟩

/-! ## The checks of the Exec step, in their order (R135-R138) -/

theorem State.execCheck_of_illegal (s : State) {opc : Opc} (h : 9 ≤ opc.toNat) :
    s.execCheck opc = some .illegalCmd := if_pos h

theorem not_reservedConfig_of_legal {r : Regs} (h : LegalConfig r) : ¬r.reservedConfig := not_or.mpr h

section
variable {s : State} {opc : Opc}

theorem State.execCheck_of_reserved (hopc : opc.toNat < 9) (h : s.regs.reservedConfig) :
    s.execCheck opc = some .config := by
  rw [State.execCheck, if_neg (Nat.not_le_of_lt hopc), if_pos h]

/-- Past the first two checks, the bounds of the input region come next. -/
theorem State.execCheck_of_srcOutside (hopc : opc.toNat < 9) (hconfig : LegalConfig s.regs) (h : s.srcOutside) :
    s.execCheck opc = some .bounds := by
  rw [State.execCheck, if_neg (Nat.not_le_of_lt hopc), if_neg (not_reservedConfig_of_legal hconfig), if_pos h]

theorem State.execCheck_of_dstOutside (hopc : opc.toNat < 9) (hconfig : LegalConfig s.regs) (hsrc : SrcInside s)
    (huse : usesDst opc = true) (h : s.dstOutside) : s.execCheck opc = some .bounds := by
  rw [State.execCheck, if_neg (Nat.not_le_of_lt hopc), if_neg (not_reservedConfig_of_legal hconfig),
    if_neg (Nat.not_lt_of_le hsrc), if_pos ⟨huse, h⟩]

theorem State.execCheck_of_tooLarge (hopc : opc.toNat < 9) (hconfig : LegalConfig s.regs) (hsrc : SrcInside s)
    (hdst : DstInside s) (hbuilds : buildsFrame opc = true) (h : s.regs.tooLarge) :
    s.execCheck opc = some .tooLarge := by
  rw [State.execCheck, if_neg (Nat.not_le_of_lt hopc), if_neg (not_reservedConfig_of_legal hconfig),
    if_neg (Nat.not_lt_of_le hsrc), if_neg (fun hout => Nat.not_lt_of_le hdst hout.2), if_pos ⟨hbuilds, h⟩]

end

/-- A check that raises ends the command in FAILED (R140). -/
theorem State.command_of_check {s : State} (hagent : s.agent = .exec) {opc : Opc} {e : ErrCode}
    (h : s.execCheck opc = some e) (p : State → Host.Outcome State Fault Refusal) :
    s.command opc p = .next (failed s e .none) :=
  (State.command_of_exec hagent opc p).trans (State.execStep_of_some h p)

/-- Settles O9: every opcode of the three rows is at least 9, and that check comes first. -/
theorem illegalOpcodesFailInTheirExecStep : Obligations.IllegalOpcodesFailInTheirExecStep := by
  unfold Obligations.IllegalOpcodesFailInTheirExecStep
  have rowAB : ∀ opc : Opc, opc.inRowAB = true → 9 ≤ opc.toNat := by decide
  have rowCF : ∀ opc : Opc, opc.inRowCF = true → 9 ≤ opc.toNat := by decide
  refine fun s hagent => ⟨?_, fun opc hwf => ?_, fun opc hwf => ?_⟩
  · exact State.command_of_check hagent (s.execCheck_of_illegal (by decide)) _
  · exact State.command_of_check hagent (s.execCheck_of_illegal (rowAB opc hwf)) _
  · exact State.command_of_check hagent (s.execCheck_of_illegal (rowCF opc hwf)) _

/-- The functional commands are of the template and their opcodes legal. -/
theorem opcode_of_functional {i : Instr} (h : i ∈ functional) :
    i.wellFormed = true ∧ i.opcode ≠ 0x0 ∧ i.opcode ≠ 0x8 ∧ i.opcode.toNat < 9 := by
  revert i
  decide

theorem functional_of_writesDst {i : Instr} (h : i ∈ writesDst) : i ∈ functional ∧ usesDst i.opcode = true := by
  revert i
  decide

/-- The Exec step of a functional command with a check that raises. -/
theorem exec_of_check {i : Instr} (hi : i ∈ functional) {s : State} (hagent : s.agent = .exec) {e : ErrCode}
    (h : s.execCheck i.opcode = some e) : exec i s = .next (failed s e .none) := by
  obtain ⟨hwf, hnop, hclear, -⟩ := opcode_of_functional hi
  rw [exec_eq_command hwf hnop hclear, State.command_of_check hagent h]

/-- Settles O10. -/
theorem reservedProfileFailsEveryFunctionalCommand : Obligations.ReservedProfileFailsEveryFunctionalCommand := by
  unfold Obligations.ReservedProfileFailsEveryFunctionalCommand
  intro i s hi hagent hconfig
  obtain ⟨-, -, -, hopc⟩ := opcode_of_functional hi
  exact exec_of_check hi hagent (State.execCheck_of_reserved hopc hconfig)

/-- CKSUM checks neither DST nor the payload size, so a legal profile and an input inside DBUF pass. -/
theorem State.execCheck_cksum {s : State} (hconfig : LegalConfig s.regs) (hsrc : SrcInside s) :
    s.execCheck 0x3 = none :=
  (s.execCheck_eq_none_iff 0x3).2 ⟨by decide, not_reservedConfig_of_legal hconfig, Nat.not_lt_of_le hsrc,
    fun huse => absurd huse (by decide), fun hbuilds => absurd hbuilds (by decide)⟩

theorem exec_cksum_succeeds {s : State} (hagent : s.agent = .exec) (hconfig : LegalConfig s.regs)
    (hsrc : SrcInside s) : ∃ t, exec .cksum s = .next t ∧ t.status.st = .success := by
  rw [exec_cksum, State.command_of_exec hagent, State.execStep_of_none (State.execCheck_cksum hconfig hsrc)]
  exact ⟨_, rfl, State.completeOk_status_st _⟩

/-- Settles O11: the two bounds checks, and the empty region, whose sum is the pointer alone. -/
theorem regionsOutsideDbufFailWithBounds : Obligations.RegionsOutsideDbufFailWithBounds := by
  unfold Obligations.RegionsOutsideDbufFailWithBounds
  refine fun s hagent hconfig => ⟨fun i hi hout => ?_, fun i hi hsrc hout => ?_, fun hlen hptr => ?_⟩
  · obtain ⟨-, -, -, hopc⟩ := opcode_of_functional hi
    exact exec_of_check hi hagent (State.execCheck_of_srcOutside hopc hconfig hout)
  · obtain ⟨hfun, huse⟩ := functional_of_writesDst hi
    obtain ⟨-, -, -, hopc⟩ := opcode_of_functional hfun
    exact exec_of_check hfun hagent (State.execCheck_of_dstOutside hopc hconfig hsrc huse hout)
  · exact exec_cksum_succeeds hagent hconfig (by rwa [SrcInside, hlen])

/-- Settles O12: BUILD and SEND are the two commands whose payload size is checked. -/
theorem oversizedPayloadFailsWithTooLarge : Obligations.OversizedPayloadFailsWithTooLarge := by
  unfold Obligations.OversizedPayloadFailsWithTooLarge
  intro i s hi hagent hconfig hsrc hdst hlarge
  have hfun : i ∈ functional ∧ buildsFrame i.opcode = true := by
    rcases hi with rfl | rfl <;> decide
  obtain ⟨hfun, hbuilds⟩ := hfun
  obtain ⟨-, -, -, hopc⟩ := opcode_of_functional hfun
  exact exec_of_check hfun hagent (State.execCheck_of_tooLarge hopc hconfig hsrc hdst hbuilds hlarge)

/-! ## Nothing of a command or a transaction leads to IDLE (R144, R145) -/

/-- IDLE is the one state that is neither Busy nor Done (10_state.md R24). -/
theorem State.busy_or_done_of_ne_idle {s : State} (h : s.status.st ≠ .idle) : s.busy = true ∨ s.done = true := by
  unfold State.busy State.done
  cases hst : s.status.st with
  | idle => exact absurd hst h
  | exec | sending | await | retryWait => exact .inl rfl
  | success | failed => exact .inr rfl

theorem State.ne_idle_of_busy {s : State} (h : s.busy = true) : s.status.st ≠ .idle := fun hst => by
  simp [State.busy, hst, SeqState.busy] at h

theorem State.finishWithOutput_ne_idle {s t : State} {out : List Byte} (ht : s.finishWithOutput out = .next t) :
    t.status.st ≠ .idle := by
  obtain ⟨-, rfl⟩ := State.finishWithOutput_cases ht
  simp

theorem State.retry_ne_idle (s : State) : s.retry.status.st ≠ .idle := by
  unfold State.retry
  dsimp only
  split <;> simp

theorem State.attemptFailed_ne_idle (s : State) (f : Failure) : (s.attemptFailed f).status.st ≠ .idle := by
  rcases s.attemptFailed_cases f with ⟨-, -, ha⟩ | ⟨-, -, ha⟩ | ⟨-, ha⟩ <;> rw [ha]
  · exact s.retry_ne_idle
  · simp
  · simp

theorem State.enterAwait_ne_idle (s : State) : s.enterAwait.status.st ≠ .idle := by
  by_cases htmo : s.regs.rxTmo = 0
  · rw [State.enterAwait_of_zero htmo]
    exact State.attemptFailed_ne_idle _ _
  · rw [State.enterAwait_of_ne htmo]
    simp

theorem State.endSettle_ne_idle (s : State) : s.endSettle.status.st ≠ .idle := State.enterAwait_ne_idle _

theorem State.endEmit_ne_idle {s : State} (h : s.status.st ≠ .idle) : s.endEmit.status.st ≠ .idle := by
  rcases s.endEmit_cases with ⟨-, he⟩ | ⟨-, -, he⟩ | ⟨-, -, he⟩ <;> rw [he]
  · exact s.enterAwait_ne_idle
  · exact h
  · exact State.endSettle_ne_idle _

theorem State.txTake_ne_idle {s : State} (h : s.status.st ≠ .idle) : s.txTake.status.st ≠ .idle := by
  rcases s.txTake_cases with ⟨-, ht⟩ | ⟨b, -, -, -, -, ⟨-, ht⟩ | ⟨-, ht⟩⟩ <;> rw [ht]
  · exact h
  · exact h
  · exact State.endEmit_ne_idle h

theorem State.tick_ne_idle {s : State} (h : s.status.st ≠ .idle) : s.tick.status.st ≠ .idle := by
  rcases s.tick_cases with ⟨-, ht⟩ | ⟨-, -, ht⟩ | ⟨-, -, -, ht⟩ | ⟨-, -, ht⟩ | ⟨-, -, ht⟩ <;> rw [ht]
  · exact h
  · exact h
  · exact State.endSettle_ne_idle _
  · exact State.attemptFailed_ne_idle _ _
  · simp

theorem State.rxStatus_ne_idle (s : State) (b : Byte) : (s.rxStatus b).status.st ≠ .idle := by
  rcases s.rxStatus_cases b with hx | hx | hx | hx <;> rw [hx]
  · simp
  · exact s.attemptFailed_ne_idle _
  · exact s.attemptFailed_ne_idle _
  · exact s.attemptFailed_ne_idle _

theorem State.rxByte_ne_idle {s t : State} {b : Byte} (h : s.status.st ≠ .idle) (ht : s.rxByte b = .next t) :
    t.status.st ≠ .idle := by
  rcases s.rxByte_cases b with ⟨-, hb⟩ | ⟨-, -, hb⟩ | ⟨-, -, hb⟩ <;> rw [hb] at ht
  · cases ht
    exact h
  · cases ht
    exact s.rxStatus_ne_idle b
  · obtain ⟨x, res, -, u, rfl, ht⟩ := State.rxFrame_cases ht
    rcases ht with ⟨-, rfl⟩ | ⟨a, c, p, -, ht⟩ | ⟨hd, f, -, rfl⟩
    · simpa using h
    · exact State.finishWithOutput_ne_idle ht
    · exact State.attemptFailed_ne_idle _ _

/-- A command's pseudocode fails, succeeds, or starts SEND's first attempt. -/
theorem pseudocode_ne_idle {s t : State} {opc : Opc} (ht : pseudocode opc s = .next t) : t.status.st ≠ .idle := by
  unfold pseudocode at ht
  split at ht
  next =>
    simp only [State.runEscape] at ht
    split at ht
    · cases ht; simp
    · exact State.finishWithOutput_ne_idle ht
  next =>
    unfold State.runUnescape at ht
    split at ht
    · cases ht; simp
    · split at ht
      · cases ht; simp
      · exact State.finishWithOutput_ne_idle ht
  next => cases ht; simp
  next => cases ht; simp
  next =>
    simp only [State.runBuild] at ht
    split at ht
    · cases ht; simp
    · exact State.finishWithOutput_ne_idle ht
  next =>
    unfold State.runParse at ht
    rcases hf : s.regs.rxFeed Rx.reset s.srcBytes with ⟨x, n, res⟩
    simp only [hf] at ht
    cases res with
    | cont => cases ht; simp
    | frame a c p => exact State.finishWithOutput_ne_idle ht
    | bad hd f => cases ht; simp
  next => cases ht; simp
  next => cases ht; simp

/-- CLEAR, the one command that leads to IDLE, is rejected while Busy. -/
theorem exec_ne_idle {s t : State} {opc : Opc} (hb : s.busy = true) (ht : exec (decodeOpc opc) s = .next t) :
    t.status.st ≠ .idle := by
  have hst : s.status.st ≠ .idle := State.ne_idle_of_busy hb
  rcases exec_decodeOpc_cases opc s with hx | hx | ⟨-, -, hx⟩ <;> rw [hx] at ht
  · cases ht
    exact hst
  · rw [if_pos hb] at ht
    cases ht
    exact hst
  · rcases State.command_cases ht with ⟨-, -, rfl⟩ | ⟨-, -, rfl⟩ | ⟨-, e, -, rfl⟩ | ⟨-, -, ht⟩
    · exact hst
    · simp
    · simp
    · exact pseudocode_ne_idle ht

theorem State.execEvent_ne_idle {s t : State} (hb : s.busy = true) (ht : s.execEvent = .next t) :
    t.status.st ≠ .idle := by
  by_cases hst : s.status.st = .exec
  · rw [State.execEvent_of_exec hst] at ht
    exact exec_ne_idle hb ht
  · rw [State.execEvent_of_not_exec hst] at ht
    cases ht
    exact State.ne_idle_of_busy hb

/-! ## A host access keeps STATE while Busy (R131, R145) -/

/-- A command written to CMD while Busy is rejected, or is NOP. -/
theorem exec_write_st {s t : State} {opc : Opc} (hagent : s.agent ≠ .exec) (hb : s.busy = true)
    (ht : exec (decodeOpc opc) s = .next t) : t.status.st = s.status.st := by
  rw [busyBlockRejectsEveryCommandButNop _ s (wellFormed_decodeOpc opc) hagent hb] at ht
  rw [← Host.Outcome.next.inj ht]
  split <;> rfl

theorem State.opRegWrite_st (s : State) (reg : OpReg) (w : Word) :
    (s.opRegWrite reg w).status.st = s.status.st := by
  rcases s.opRegWrite_cases reg w with ⟨-, ho⟩ | ⟨-, -, ho⟩
  · rw [ho, State.ignoreWrite_status_st]
  · rw [ho]

theorem State.dbufWrite_st (s : State) (a : Nat) (width : Width) (w : Word) :
    (s.dbufWrite a width w).status.st = s.status.st := by
  rcases s.dbufWrite_cases a width w with ⟨-, ho⟩ | ⟨-, -, ho⟩ | ⟨-, -, ho⟩
  · rw [ho]
  · rw [ho, State.ignoreWrite_status_st]
  · rw [ho]

theorem State.hostWrite_st {s t : State} {addr : Nat} {width : Width} {w : Word} (hagent : s.agent ≠ .exec)
    (hb : s.busy = true) (ht : s.hostWrite addr width w = .next t) : t.status.st = s.status.st := by
  rcases s.hostWrite_cases addr width w with hw | hw | ⟨-, hw⟩ | hw | ⟨reg, hw⟩ | hw | ⟨a, hw⟩ <;> rw [hw] at ht
  · cases ht
    rfl
  · cases ht
    rfl
  · exact exec_write_st (s := { s with bus := .written }) hagent hb ht
  · cases ht
    rfl
  · cases ht
    exact State.opRegWrite_st _ reg w
  · cases ht
    rfl
  · cases ht
    exact State.dbufWrite_st _ a width w

theorem State.hostRead_st (s : State) (addr : Nat) (width : Width) :
    (s.hostRead addr width).status.st = s.status.st := by
  obtain ⟨d, n, hr⟩ := s.hostRead_frame addr width
  rw [hr]

theorem State.applyEvent_host_st {s t : State} {e : Event} (hown : s.agent = e.agent) (he : e.agent = .host)
    (hb : s.busy = true) (ht : s.applyEvent e = .next t) : t.status.st = s.status.st := by
  cases e with
  | hostRead addr width =>
    cases ht
    exact s.hostRead_st addr width
  | hostWrite addr width data =>
    have hagent : s.agent ≠ .exec := by rw [hown, he]; decide
    exact State.hostWrite_st hagent hb ht
  | _ => cases he

/-! ## Only completion and Reset end Busy (R145) -/

theorem State.applyEvent_ne_idle {s t : State} {e : Event} (hown : s.agent = e.agent) (he : e ≠ .reset)
    (hb : s.busy = true) (ht : s.applyEvent e = .next t) : t.status.st ≠ .idle := by
  have hst : s.status.st ≠ .idle := State.ne_idle_of_busy hb
  cases e with
  | hostRead | hostWrite => rwa [State.applyEvent_host_st hown rfl hb ht]
  | txTake => cases ht; exact State.txTake_ne_idle hst
  | rxByte b => exact State.rxByte_ne_idle hst ht
  | tick => cases ht; exact State.tick_ne_idle hst
  | exec => exact State.execEvent_ne_idle hb ht
  | reset => exact absurd rfl he

theorem step_ne_idle {s t : State} (hb : s.busy = true) (hr : NoReset s) (ht : step s = .next t) :
    t.status.st ≠ .idle := by
  rcases step_cases ht with ⟨-, -, rfl⟩ | ⟨-, -, hx⟩ | ⟨e, rest, hev, hx⟩
  · exact State.ne_idle_of_busy hb
  · exact exec_ne_idle (s := s.begin .exec []) hb hx
  · have hne : e ≠ .reset := by rintro rfl; exact hr (by rw [hev]; rfl)
    exact State.applyEvent_ne_idle (s := s.begin e rest) rfl hne hb hx

theorem step_host_st {s t : State} {e : Event} (hb : s.busy = true) (hev : s.events.head? = some e)
    (he : e.agent = .host) (ht : step s = .next t) : t.status.st = s.status.st := by
  obtain ⟨rest, hev⟩ := List.head?_eq_some_iff.1 hev
  rw [step_event hev] at ht
  exact State.applyEvent_host_st (s := s.begin e rest) rfl he hb ht

/-- Settles O47: no event but Reset leads a Busy block to IDLE, and every other STATE is Busy or Done. -/
theorem onlyCompletionOrResetLeavesBusy : Obligations.OnlyCompletionOrResetLeavesBusy := by
  unfold Obligations.OnlyCompletionOrResetLeavesBusy
  exact fun s t hb hr ht => ⟨State.busy_or_done_of_ne_idle (step_ne_idle hb hr ht),
    fun e hev he => step_host_st hb hev he ht⟩

end Sys2Proof.Machine

/-! SUPPORT. The escape codec (spec/41_escape_codec.md): a wire sequence read pair by pair, the laws of R163 and R164
over it, and the Exec steps of ESCAPE and UNESCAPE (R165, R166). -/

namespace Sys2Proof.Machine
open Sys2Proof.Claims

/-! ## The codec's functions on one pair and on one byte outside a pair (R161, R162)

The model reads a wire sequence two bytes at a time; these equations read it one item at a time, an escape pair or a
byte that is not `ESC_MK`. -/

section
variable {r : Regs} {b : Byte}

@[simp] theorem Regs.reserved_escMk (r : Regs) : r.reserved r.escMk = true := by simp [Regs.reserved]

theorem Regs.ne_escMk_of_not_reserved (h : r.reserved b = false) : b ≠ r.escMk := by
  rintro rfl
  simp at h

@[simp] theorem Regs.escape_nil (r : Regs) : r.escape [] = [] := rfl

theorem Regs.escape_cons_of_reserved (h : r.reserved b = true) (p : List Byte) :
    r.escape (b :: p) = r.escMk :: b :: r.escape p := if_pos h

theorem Regs.escape_cons_of_not_reserved (h : r.reserved b = false) (p : List Byte) :
    r.escape (b :: p) = b :: r.escape p := if_neg (by simp [h])

@[simp] theorem Regs.unescape_nil (r : Regs) : r.unescape [] = some [] := rfl

@[simp] theorem Regs.unescape_truncated (r : Regs) : r.unescape [r.escMk] = none := if_pos rfl

@[simp] theorem Regs.unescape_pair (r : Regs) (c : Byte) (t : List Byte) :
    r.unescape (r.escMk :: c :: t) = (r.unescape t).map (c :: ·) := if_pos rfl

theorem Regs.unescape_cons_of_ne (h : b ≠ r.escMk) (t : List Byte) :
    r.unescape (b :: t) = (r.unescape t).map (b :: ·) := by
  cases t with
  | nil => exact if_neg h
  | cons c t => exact if_neg h

@[simp] theorem regular_nil (r : Regs) : regular r [] = true := rfl

@[simp] theorem regular_pair (r : Regs) (c : Byte) (t : List Byte) :
    regular r (r.escMk :: c :: t) = (r.reserved c && regular r t) := if_pos rfl

theorem regular_cons_of_ne (h : b ≠ r.escMk) (t : List Byte) :
    regular r (b :: t) = (!r.reserved b && regular r t) := by
  cases t with
  | nil => exact (Bool.and_true _).symm
  | cons c t => exact if_neg h

@[simp] theorem pairs_nil (r : Regs) : pairs r [] = 0 := rfl

@[simp] theorem pairs_pair (r : Regs) (c : Byte) (t : List Byte) : pairs r (r.escMk :: c :: t) = pairs r t + 1 :=
  if_pos rfl

theorem pairs_cons_of_ne (h : b ≠ r.escMk) (t : List Byte) : pairs r (b :: t) = pairs r t := by
  cases t with
  | nil => rfl
  | cons c t => exact if_neg h

end

/-- Induction along `unescape`: a sequence that unescapes is a row of escape pairs and of bytes that are not `ESC_MK`,
and its output is the second byte of each pair and each byte outside a pair. -/
theorem Regs.unescape_induction {r : Regs} {motive : List Byte → List Byte → Prop} (nil : motive [] [])
    (pair : ∀ c t p, motive t p → motive (r.escMk :: c :: t) (c :: p))
    (plain : ∀ b t p, b ≠ r.escMk → motive t p → motive (b :: t) (b :: p))
    {t p : List Byte} (h : r.unescape t = some p) : motive t p := by
  induction t using List.twoStepInduction generalizing p with
  | nil =>
    obtain rfl := Option.some.inj h
    exact nil
  | singleton b =>
    by_cases hb : b = r.escMk
    · simp [hb] at h
    · rw [Regs.unescape_cons_of_ne hb] at h
      obtain rfl := Option.some.inj h
      exact plain b [] [] hb nil
  | cons_cons b c t ihpair ihplain =>
    by_cases hb : b = r.escMk
    · subst hb
      rw [Regs.unescape_pair] at h
      obtain ⟨q, hq, rfl⟩ := Option.map_eq_some_iff.1 h
      exact pair c t q (ihpair hq)
    · rw [Regs.unescape_cons_of_ne hb] at h
      obtain ⟨q, hq, rfl⟩ := Option.map_eq_some_iff.1 h
      exact plain b (c :: t) q hb (ihplain c hq)

/-! ## The round trip (R163) -/

theorem Regs.unescape_escape (r : Regs) (p : List Byte) : r.unescape (r.escape p) = some p := by
  induction p with
  | nil => exact r.unescape_nil
  | cons b p ih =>
    cases hb : r.reserved b with
    | true => rw [Regs.escape_cons_of_reserved hb, Regs.unescape_pair, ih, Option.map_some]
    | false =>
      rw [Regs.escape_cons_of_not_reserved hb, Regs.unescape_cons_of_ne (Regs.ne_escMk_of_not_reserved hb), ih,
        Option.map_some]

/-- Escaping gives back a pair exactly when it holds a byte of `E`, and a byte outside a pair exactly when it is not of
`E`; in each other case the two sequences differ in their first byte. -/
theorem Regs.escape_eq_iff_regular {r : Regs} {t p : List Byte} (h : r.unescape t = some p) :
    r.escape p = t ↔ regular r t = true := by
  refine Regs.unescape_induction (motive := fun t p => r.escape p = t ↔ regular r t = true) ?nil ?pair ?plain h
  case nil => simp
  case pair =>
    intro c t p ih
    cases hc : r.reserved c with
    | true => simp [Regs.escape_cons_of_reserved hc, hc, ih]
    | false => simp [Regs.escape_cons_of_not_reserved hc, hc, Regs.ne_escMk_of_not_reserved hc]
  case plain =>
    intro b t p hne ih
    cases hb : r.reserved b with
    | true => simp [Regs.escape_cons_of_reserved hb, regular_cons_of_ne hne, hb, hne.symm]
    | false => simp [Regs.escape_cons_of_not_reserved hb, regular_cons_of_ne hne, hb, ih]

/-- Settles O13: by induction on the payload, and along the pairs of the wire sequence. -/
theorem unescapeInvertsEscape : Obligations.UnescapeInvertsEscape := by
  unfold Obligations.UnescapeInvertsEscape
  exact ⟨Regs.unescape_escape, fun r t p h => Regs.escape_eq_iff_regular h⟩

/-! ## The output laws (R164) -/

theorem Regs.regular_escape (r : Regs) (p : List Byte) : regular r (r.escape p) = true :=
  (Regs.escape_eq_iff_regular (r.unescape_escape p)).1 rfl

/-- Unescaping drops one byte of every pair. -/
theorem Regs.length_add_pairs_of_unescape {r : Regs} {t p : List Byte} (h : r.unescape t = some p) :
    p.length + pairs r t = t.length := by
  refine Regs.unescape_induction (motive := fun t p => p.length + pairs r t = t.length) ?nil ?pair ?plain h
  case nil => simp
  case pair =>
    intro c t p ih
    simp only [List.length_cons, pairs_pair]
    omega
  case plain =>
    intro b t p hne ih
    simp only [List.length_cons, pairs_cons_of_ne hne]
    omega

/-- Settles O14: an escaped sequence is regular since escaping gives back what unescapes from it. -/
theorem escapeOutputLaws : Obligations.EscapeOutputLaws := by
  unfold Obligations.EscapeOutputLaws
  refine fun r => ⟨r.length_escape, r.regular_escape, fun t p h => ?_⟩
  have hlen : p.length + pairs r t = t.length := Regs.length_add_pairs_of_unescape h
  omega

/-! ## A command that stores its output at DST (R134-R139, 20_memory.md R79) -/

/-- With both regions inside DBUF, a command that builds no frame passes every check. -/
theorem State.execCheck_of_inside {s : State} {opc : Opc} (hopc : opc.toNat < 9) (hbuilds : buildsFrame opc = false)
    (hconfig : LegalConfig s.regs) (hsrc : SrcInside s) (hdst : DstInside s) : s.execCheck opc = none :=
  (s.execCheck_eq_none_iff opc).2 ⟨hopc, not_reservedConfig_of_legal hconfig, Nat.not_lt_of_le hsrc,
    fun _ => Nat.not_lt_of_le hdst, fun h => absurd h (by simp [hbuilds])⟩

/-- The Exec step of such a command runs its pseudocode. -/
theorem State.command_of_inside {s : State} {opc : Opc} (hagent : s.agent = .exec) (hopc : opc.toNat < 9)
    (hbuilds : buildsFrame opc = false) (hconfig : LegalConfig s.regs) (hsrc : SrcInside s) (hdst : DstInside s)
    (p : State → Host.Outcome State Fault Refusal) : s.command opc p = p s :=
  (State.command_of_exec hagent opc p).trans
    (State.execStep_of_none (State.execCheck_of_inside hopc hbuilds hconfig hsrc hdst) p)

/-- A length that fits DST_CAP is stored whole in the 16 bits of OUT_LEN. -/
theorem Regs.toNat_outLen_of_le_dstCap {r : Regs} {n : Nat} (h : n ≤ r.dstCap) : (BitVec.ofNat 16 n).toNat = n := by
  have hcap : r.dstCap < 2 ^ 16 := BitVec.isLt _
  rw [BitVec.toNat_ofNat, Nat.mod_eq_of_lt (by omega)]

/-- Output that fits a DST region inside DBUF is stored, and the command succeeds (R139). -/
theorem State.finishWithOutput_stores {s : State} {out : List Byte} (hdst : DstInside s)
    (hfits : out.length ≤ s.regs.dstCap) :
    ∃ t, s.finishWithOutput out = .next t ∧
      t = { s with
        dbuf := t.dbuf
        status := { s.status with st := .success }
        results := { s.results with outLen := t.results.outLen } } ∧
      t.results.outLen.toNat = out.length ∧
      Stored s t s.regs.dstPtr out := by
  have hinside : s.regs.dstPtr + out.length ≤ s.params.dbufSize := (Nat.add_le_add_left hfits _).trans hdst
  exact ⟨_, State.finishWithOutput_of_le hinside, rfl, Regs.toNat_outLen_of_le_dstCap hfits,
    State.dbufByte_putAll s s.regs.dstPtr out _ rfl rfl⟩

/-! ## ESCAPE (R165) -/

theorem State.runEscape_of_le {s : State} (h : (s.regs.escape s.srcBytes).length ≤ s.regs.dstCap) :
    s.runEscape = s.finishWithOutput (s.regs.escape s.srcBytes) := if_neg (Nat.not_lt_of_le h)

theorem State.runEscape_of_gt {s : State} (h : (s.regs.escape s.srcBytes).length > s.regs.dstCap) :
    s.runEscape = .next (failed s .bounds .none) := if_pos h

/-- Settles O15: the checks pass, and the capacity check decides. -/
theorem escapeCompletes : Obligations.EscapeCompletes := by
  unfold Obligations.EscapeCompletes
  intro s hagent hconfig hsrc hdst
  rw [exec_escape, State.command_of_inside hagent (by decide) (by decide) hconfig hsrc hdst]
  refine ⟨fun hfits => ?_, fun hout => State.runEscape_of_gt hout⟩
  rw [State.runEscape_of_le hfits]
  exact State.finishWithOutput_stores hdst hfits

/-! ## UNESCAPE (R166) -/

theorem State.runUnescape_of_truncated {s : State} (h : s.regs.unescape s.srcBytes = none) :
    s.runUnescape = .next (failed s .malformed .truncEsc) := by
  rw [State.runUnescape, h]
  rfl

section
variable {s : State} {out : List Byte}

theorem State.runUnescape_of_le (h : s.regs.unescape s.srcBytes = some out) (hfits : out.length ≤ s.regs.dstCap) :
    s.runUnescape = s.finishWithOutput out := by
  rw [State.runUnescape, h]
  exact if_neg (Nat.not_lt_of_le hfits)

theorem State.runUnescape_of_gt (h : s.regs.unescape s.srcBytes = some out) (hout : out.length > s.regs.dstCap) :
    s.runUnescape = .next (failed s .bounds .none) := by
  rw [State.runUnescape, h]
  exact if_pos hout

end

/-- Settles O16: the checks pass, then the truncation check and the capacity check decide, in that order. -/
theorem unescapeCompletes : Obligations.UnescapeCompletes := by
  unfold Obligations.UnescapeCompletes
  intro s hagent hconfig hsrc hdst
  rw [exec_unescape, State.command_of_inside hagent (by decide) (by decide) hconfig hsrc hdst]
  refine ⟨State.runUnescape_of_truncated, fun out h hout => State.runUnescape_of_gt h hout, fun out h hfits => ?_⟩
  rw [State.runUnescape_of_le h hfits]
  exact State.finishWithOutput_stores hdst hfits

end Sys2Proof.Machine

/-! SUPPORT. The checksum engine (spec/42_checksum.md): the detection laws of the three variants (R188), what a frame's
checksum depends on (R189), and the Exec steps of CKSUM and CKVERIFY (R191, R192). -/

namespace Sys2Proof.Machine
open Sys2Proof.Claims

/-! ## One flipped bit in a byte sequence (R188) -/

/-- A byte of a sequence with what stands before and after it, and the sequence with one bit of that byte flipped. -/
theorem exists_flipBit {d : List Byte} {i : Nat} (h : i < d.length) :
    ∃ l b m, d = l ++ b :: m ∧ ∀ k, flipBit d i k = l ++ (b ^^^ ((1 : Byte) <<< k)) :: m := by
  refine ⟨d.take i, d[i], d.drop (i + 1), by simp, fun k => ?_⟩
  rw [flipBit, List.set_eq_take_cons_drop _ h, List.getD_eq_getElem _ _ h]

/-- In a fold with an operation like `^^^` or `+` the place of a byte does not matter. -/
theorem foldl_append_cons (op : Byte → Byte → Byte) [Std.Associative op] [hcomm : Std.Commutative op]
    (s b : Byte) (l m : List Byte) : (l ++ b :: m).foldl op s = op b ((l ++ m).foldl op s) := by
  rw [List.foldl_append, List.foldl_cons, hcomm.comm, List.foldl_assoc, List.foldl_append]

/-! ## XOR (R182, R188(a)) -/

theorem xor8_append_cons (seed b : Byte) (l m : List Byte) : xor8 seed (l ++ b :: m) = b ^^^ xor8 seed (l ++ m) :=
  foldl_append_cons (· ^^^ ·) seed b l m

/-- Settles O17: the flipped bit moves out of the fold. -/
theorem xorDetectsEverySingleBitError : Obligations.XorDetectsEverySingleBitError := by
  unfold Obligations.XorDetectsEverySingleBitError
  intro seed d i k hi _
  obtain ⟨l, b, m, rfl, hflip⟩ := exists_flipBit hi
  rw [hflip, xor8_append_cons, xor8_append_cons, BitVec.xor_assoc, BitVec.xor_assoc, BitVec.xor_comm (xor8 _ _)]

/-! ## ADD (R183, R188(b)) -/

theorem getLsbD_or_bit7 (x : Byte) {i : Nat} (hi : i < 8) :
    (x ||| 0x80).getLsbD i = if i < 7 then (x.setWidth 7).getLsbD i else true := by
  have hmask : ∀ j < 8, (0x80 : Byte).getLsbD j = !decide (j < 7) := by decide
  rw [BitVec.getLsbD_or, hmask i hi, BitVec.getLsbD_setWidth]
  by_cases hlow : i < 7 <;> simp [hlow]

/-- With bit 7 forced, two bytes are equal exactly when their low seven bits are. -/
theorem or_bit7_eq_iff (x y : Byte) : x ||| 0x80 = y ||| 0x80 ↔ x.setWidth 7 = y.setWidth 7 := by
  refine ⟨fun h => BitVec.eq_of_getLsbD_eq fun i hi => ?_, fun h => BitVec.eq_of_getLsbD_eq fun i hi => ?_⟩
  · have hi8 : i < 8 := by omega
    simpa only [getLsbD_or_bit7 _ hi8, if_pos hi] using congrArg (·.getLsbD i) h
  · rw [getLsbD_or_bit7 x hi, getLsbD_or_bit7 y hi, h]

/-- The ADD checksum sees the low seven bits of a byte, and not bit 7. -/
theorem add8_replace_eq_iff (seed b c : Byte) (l m : List Byte) :
    add8 seed (l ++ b :: m) = add8 seed (l ++ c :: m) ↔ b.setWidth 7 = c.setWidth 7 := by
  rw [add8, add8, or_bit7_eq_iff, foldl_append_cons (· + ·), foldl_append_cons (· + ·),
    BitVec.setWidth_add _ _ (by decide), BitVec.setWidth_add _ _ (by decide), BitVec.add_left_inj]

/-- Settles O18: a flip of bit `k` changes the low seven bits exactly when `k < 7`. -/
theorem addMissesExactlyBitSeven : Obligations.AddMissesExactlyBitSeven := by
  unfold Obligations.AddMissesExactlyBitSeven
  intro seed d i hi
  obtain ⟨l, b, m, rfl, hflip⟩ := exists_flipBit hi
  have hsame : ∀ k, add8 seed (flipBit (l ++ b :: m) i k) = add8 seed (l ++ b :: m) ↔
      ((1 : Byte) <<< k).setWidth 7 = 0#7 := fun k => by
    rw [hflip, add8_replace_eq_iff, BitVec.setWidth_xor]
    exact xor_left_eq_self_iff
  have hlow : ∀ k < 7, ((1 : Byte) <<< k).setWidth 7 ≠ 0#7 := by decide
  exact ⟨fun k hk h => hlow k hk ((hsame k).1 h), (hsame 7).2 rfl⟩

/-! ## CRC16 without a polynomial (R188(c)) -/

/-- Without a polynomial the eight shifts move every bit of the byte out of the register. -/
theorem crcByte_zero (refIn : Bool) (c : Half) (b : Byte) : crcByte 0 refIn c b = c <<< 8 := by
  have hshift : ∀ x, Nat.repeat (crcShift 0) 8 x = x <<< 8 := fun x => by
    simp [Nat.repeat, crcShift, ← BitVec.shiftLeft_add]
  rw [crcByte, hshift, BitVec.shiftLeft_xor_distrib, ← BitVec.shiftLeft_add,
    BitVec.shiftLeft_eq_zero (n := 8 + 8) (by decide), BitVec.xor_zero]

theorem crcFold_zero_congr (refIn : Bool) {d e : List Byte} (h : d.length = e.length) (c : Half) :
    crcFold 0 refIn c d = crcFold 0 refIn c e := by
  induction d generalizing c e with
  | nil => rw [List.eq_nil_of_length_eq_zero h.symm]
  | cons a d ih =>
    cases e with
    | nil => simp at h
    | cons b e =>
      simp only [crcFold, List.foldl_cons, crcByte_zero]
      exact ih (Nat.succ.inj h) _

/-- Settles O19, by induction along the two sequences. -/
theorem crcWithoutPolynomialIgnoresTheData : Obligations.CrcWithoutPolynomialIgnoresTheData := by
  unfold Obligations.CrcWithoutPolynomialIgnoresTheData
  intro r d e hpoly hlen
  simp only [Regs.crc16, hpoly, crcFold_zero_congr r.refIn hlen]

/-! ## CRC16 as arithmetic of polynomials over GF(2) (R184)

The bits of the register are the coefficients of a polynomial, and a shift multiplies it by `X` modulo the generator
`X^16 + CRC_POLY`. One flipped bit of the data therefore leaves a power of `X` as the difference of the two registers,
and a generator with two or more terms divides no power of `X`. -/

section
open Polynomial

/-- The polynomial over GF(2) whose coefficients are the bits of the register. -/
noncomputable def bitPoly (c : Half) : (ZMod 2)[X] := Polynomial.ofFn 16 fun i => if c.getLsbD i then 1 else 0

theorem coeff_bitPoly (c : Half) (n : Nat) : (bitPoly c).coeff n = if c.getLsbD n then 1 else 0 := by
  by_cases hn : n < 16
  · exact Polynomial.ofFn_coeff_eq_val_of_lt _ hn
  · rw [bitPoly, Polynomial.ofFn_coeff_eq_zero_of_ge _ (by omega), BitVec.getLsbD_of_ge c n (by omega)]
    rfl

theorem degree_bitPoly_lt (c : Half) : (bitPoly c).degree < (16 : Nat) := Polynomial.ofFn_degree_lt _

theorem bitPoly_xor (c e : Half) : bitPoly (c ^^^ e) = bitPoly c + bitPoly e := by
  ext n
  simp only [coeff_bitPoly, coeff_add, BitVec.getLsbD_xor]
  cases c.getLsbD n <;> cases e.getLsbD n <;> decide

theorem bitPoly_bit {m : Nat} (hm : m < 16) : bitPoly ((1 : Half) <<< m) = X ^ m := by
  ext n
  rw [coeff_bitPoly, coeff_X_pow, show (1 : Half) <<< m = BitVec.twoPow 16 m from (BitVec.twoPow_eq 16 m).symm]
  simp [BitVec.getLsbD_twoPow, hm, eq_comm]

/-- A shift to the left multiplies by `X`, and drops the term that leaves the register. -/
theorem bitPoly_shiftLeft (c : Half) : bitPoly (c <<< 1) = X * bitPoly c + if c.msb then X ^ 16 else 0 := by
  have htop : ∀ n, (if c.msb then X ^ 16 else 0 : (ZMod 2)[X]).coeff n = if n = 16 ∧ c.msb then 1 else 0 := by
    intro n
    cases c.msb <;> simp [coeff_X_pow]
  ext n
  rw [coeff_add, htop, coeff_bitPoly, BitVec.getLsbD_shiftLeft]
  cases n with
  | zero => simp
  | succ n =>
    rw [coeff_X_mul, coeff_bitPoly]
    rcases lt_trichotomy n 15 with hn | rfl | hn
    · simp [hn.ne, show n + 1 < 16 by omega]
    · rw [BitVec.msb_eq_getLsbD_last]
      cases c.getLsbD 15 <;> decide
    · simp [hn.ne', show ¬n + 1 < 16 by omega, BitVec.getLsbD_of_ge c n hn]

/-- The generator of `CRC_POLY`, with the top term that the register leaves out. -/
noncomputable def crcGenerator (poly : Half) : (ZMod 2)[X] := X ^ 16 + bitPoly poly

theorem monic_crcGenerator (poly : Half) : (crcGenerator poly).Monic := monic_X_pow_add (degree_bitPoly_lt poly)

/-- The monic divisors of a power of `X` are the powers of `X`, and a generator with a term below `X^16` is none. -/
theorem not_crcGenerator_dvd_X_pow {poly : Half} (h : poly ≠ 0) (n : Nat) : ¬crcGenerator poly ∣ X ^ n := by
  intro hdvd
  obtain ⟨m, -, hassoc⟩ := (dvd_prime_pow prime_X n).1 hdvd
  have heq : crcGenerator poly = X ^ m := eq_of_monic_of_associated (monic_crcGenerator poly) (monic_X_pow m) hassoc
  have hcoeff : ∀ j, (crcGenerator poly).coeff j = if j = m then 1 else 0 := fun j => by rw [heq, coeff_X_pow]
  have htop : (crcGenerator poly).coeff 16 = 1 := by simp [crcGenerator, coeff_bitPoly]
  obtain rfl : 16 = m := by simpa [htop] using hcoeff 16
  refine h (BitVec.eq_of_getLsbD_eq fun j hj => ?_)
  simpa [crcGenerator, coeff_bitPoly, coeff_X_pow, hj.ne] using hcoeff j

/-- A register's polynomial modulo the generator. -/
noncomputable def crcResidue (poly c : Half) : AdjoinRoot (crcGenerator poly) := AdjoinRoot.mk _ (bitPoly c)

theorem crcResidue_xor (poly c e : Half) : crcResidue poly (c ^^^ e) = crcResidue poly c + crcResidue poly e := by
  simp only [crcResidue, bitPoly_xor, map_add]

theorem crcResidue_bit (poly : Half) {m : Nat} (hm : m < 16) :
    crcResidue poly ((1 : Half) <<< m) = AdjoinRoot.root (crcGenerator poly) ^ m := by
  rw [crcResidue, bitPoly_bit hm, map_pow, AdjoinRoot.mk_X]

theorem crcResidue_crcShift (poly c : Half) :
    crcResidue poly (crcShift poly c) = AdjoinRoot.root (crcGenerator poly) * crcResidue poly c := by
  cases hmsb : c.msb with
  | true =>
    have hpoly : bitPoly (crcShift poly c) = X * bitPoly c + crcGenerator poly := by
      simp [crcShift, hmsb, bitPoly_xor, bitPoly_shiftLeft, crcGenerator, add_assoc]
    simp [crcResidue, hpoly]
  | false => simp [crcResidue, crcShift, hmsb, bitPoly_shiftLeft]

/-- How a byte enters the register: at the top, reflected when `REFIN` = 1 (R184, R185). -/
def crcInput (refIn : Bool) (b : Byte) : Half := (if refIn then b.reverse else b).setWidth 16 <<< 8

theorem crcByte_eq (poly : Half) (refIn : Bool) (c : Half) (b : Byte) :
    crcByte poly refIn c b = Nat.repeat (crcShift poly) 8 (c ^^^ crcInput refIn b) := rfl

theorem crcResidue_crcByte (poly : Half) (refIn : Bool) (c : Half) (b : Byte) :
    crcResidue poly (crcByte poly refIn c b) =
      AdjoinRoot.root (crcGenerator poly) ^ 8 * (crcResidue poly c + crcResidue poly (crcInput refIn b)) := by
  simp only [crcByte_eq, Nat.repeat, crcResidue_crcShift, crcResidue_xor]
  ring

theorem crcFold_cons (poly : Half) (refIn : Bool) (c : Half) (b : Byte) (d : List Byte) :
    crcFold poly refIn c (b :: d) = crcFold poly refIn (crcByte poly refIn c b) d := rfl

/-- The same data keep two registers apart by their first difference, shifted on. -/
theorem crcResidue_crcFold_sub (poly : Half) (refIn : Bool) (d : List Byte) (c e : Half) :
    crcResidue poly (crcFold poly refIn c d) - crcResidue poly (crcFold poly refIn e d) =
      AdjoinRoot.root (crcGenerator poly) ^ (8 * d.length) * (crcResidue poly c - crcResidue poly e) := by
  induction d generalizing c e with
  | nil => simp [crcFold]
  | cons b d ih =>
    rw [crcFold_cons, crcFold_cons, ih, crcResidue_crcByte, crcResidue_crcByte, List.length_cons]
    ring

theorem crcRoot_pow_ne_zero {poly : Half} (h : poly ≠ 0) (n : Nat) : AdjoinRoot.root (crcGenerator poly) ^ n ≠ 0 := by
  rw [← AdjoinRoot.mk_X, ← map_pow, ne_eq, AdjoinRoot.mk_eq_zero]
  exact not_crcGenerator_dvd_X_pow h n

end

/-! ## CRC16 with a polynomial (R188(c)) -/

/-- Registers that differ in one bit differ after any data. -/
theorem crcFold_xor_bit_ne {poly : Half} (h : poly ≠ 0) (refIn : Bool) (d : List Byte) (c : Half) {m : Nat}
    (hm : m < 16) : crcFold poly refIn (c ^^^ ((1 : Half) <<< m)) d ≠ crcFold poly refIn c d := by
  intro heq
  have hsub := crcResidue_crcFold_sub poly refIn d (c ^^^ ((1 : Half) <<< m)) c
  rw [heq, sub_self, crcResidue_xor, add_sub_cancel_left, crcResidue_bit poly hm, ← pow_add] at hsub
  exact crcRoot_pow_ne_zero h _ hsub.symm

theorem reverse_xor {w : Nat} (x y : BitVec w) : (x ^^^ y).reverse = x.reverse ^^^ y.reverse := by
  refine BitVec.eq_of_getLsbD_eq fun i _ => ?_
  simp only [BitVec.getLsbD_reverse, BitVec.getMsbD_xor, BitVec.getLsbD_xor]

theorem reverse_injective {w : Nat} : Function.Injective (BitVec.reverse (w := w)) :=
  Function.LeftInverse.injective fun _ => BitVec.reverse_reverse_eq

theorem crcInput_xor (refIn : Bool) (b e : Byte) :
    crcInput refIn (b ^^^ e) = crcInput refIn b ^^^ crcInput refIn e := by
  cases refIn <;> simp [crcInput, reverse_xor, BitVec.setWidth_xor, BitVec.shiftLeft_xor_distrib]

theorem crcInput_bit (refIn : Bool) {k : Nat} (hk : k < 8) :
    ∃ m < 16, crcInput refIn ((1 : Byte) <<< k) = (1 : Half) <<< m := by
  have hplain : ∀ k < 8, crcInput false ((1 : Byte) <<< k) = (1 : Half) <<< (8 + k) := by decide
  have hreflected : ∀ k < 8, crcInput true ((1 : Byte) <<< k) = (1 : Half) <<< (15 - k) := by decide
  cases refIn with
  | false => exact ⟨8 + k, by omega, hplain k hk⟩
  | true => exact ⟨15 - k, by omega, hreflected k hk⟩

/-- A flipped bit of a byte acts as a flipped bit of the register before the byte. -/
theorem crcByte_flip (refIn : Bool) {k : Nat} (hk : k < 8) :
    ∃ m < 16, ∀ poly c b,
      crcByte poly refIn c (b ^^^ ((1 : Byte) <<< k)) = crcByte poly refIn (c ^^^ ((1 : Half) <<< m)) b := by
  obtain ⟨m, hm, hbit⟩ := crcInput_bit refIn hk
  refine ⟨m, hm, fun poly c b => ?_⟩
  rw [crcByte_eq, crcByte_eq, crcInput_xor, hbit, BitVec.xor_assoc, BitVec.xor_comm (crcInput refIn b)]

/-- Reflection of the output and the final XOR keep different registers different. -/
theorem Regs.crc16_eq_iff (r : Regs) (d e : List Byte) :
    r.crc16 d = r.crc16 e ↔ crcFold r.crcPoly r.refIn r.crcInit d = crcFold r.crcPoly r.refIn r.crcInit e := by
  rw [Regs.crc16, Regs.crc16, BitVec.xor_left_inj]
  cases r.refOut with
  | true => exact reverse_injective.eq_iff
  | false => rfl

/-- Settles O20: the flipped bit of the data is a flipped bit of the register, and the bytes from there on keep the two
registers apart. -/
theorem crcDetectsEverySingleBitError : Obligations.CrcDetectsEverySingleBitError := by
  unfold Obligations.CrcDetectsEverySingleBitError
  intro r d i k hpoly hi hk
  obtain ⟨l, b, m, rfl, hflip⟩ := exists_flipBit hi
  obtain ⟨j, hj, hbyte⟩ := crcByte_flip r.refIn hk
  rw [hflip, ne_eq, Regs.crc16_eq_iff]
  simp only [crcFold, List.foldl_append, List.foldl_cons, hbyte]
  exact crcFold_xor_bit_ne hpoly r.refIn (b :: m) _ hj

/-! ## What a frame's checksum depends on (R180, R189) -/

section
variable {v w : Word} (h : v &&& ~~~(0x00000400 : Word) = w &&& ~~~(0x00000400 : Word))
include h

/-- ESC_HDR is bit 10 of PROFILE (10_state.md R30): profiles that agree outside it agree in every other bit. -/
theorem getLsbD_eq_of_escHdr_masked {i : Nat} (hi : i < 32) (hne : i ≠ 10) : v.getLsbD i = w.getLsbD i := by
  have hmask : ∀ j < 32, j ≠ 10 → (~~~(0x00000400 : Word)).getLsbD j = true := by decide
  have hbit := congrArg (·.getLsbD i) h
  simpa only [BitVec.getLsbD_and, hmask i hi hne, Bool.and_true] using hbit

theorem extractLsb'_eq_of_escHdr_masked {k n : Nat} (hk : k + n ≤ 10) : v.extractLsb' k n = w.extractLsb' k n := by
  refine BitVec.eq_of_getLsbD_eq fun i hi => ?_
  simp only [BitVec.getLsbD_extractLsb', getLsbD_eq_of_escHdr_masked h (i := k + i) (by omega) (by omega)]

end

/-- Every field of PROFILE that a frame's checksum reads lies below bit 10, and no part of it reads RSV. -/
theorem Regs.frameCk_eq_of_escHdr_masked {r q : Regs} (hq : q = { r with profile := q.profile, rsv := q.rsv })
    (hprofile : q.profile &&& ~~~(0x00000400 : Word) = r.profile &&& ~~~(0x00000400 : Word)) :
    q.frameCk = r.frameCk := by
  have hbit : ∀ {i}, i < 10 → q.profile.getLsbD i = r.profile.getLsbD i := fun hi =>
    getLsbD_eq_of_escHdr_masked hprofile (by omega) (by omega)
  have hck : q.ck = r.ck := by
    have halg : q.ckAlg = r.ckAlg := extractLsb'_eq_of_escHdr_masked hprofile (by decide)
    funext d
    rw [Regs.ck, Regs.ck, halg, hq]
    rfl
  have hlogical : q.logical = r.logical := by
    have hstart : q.incStart = r.incStart := hbit (by decide)
    have haddr : q.incAddr = r.incAddr := hbit (by decide)
    have hctrl : q.incCtrl = r.incCtrl := hbit (by decide)
    have hend : q.incEnd = r.incEnd := hbit (by decide)
    funext ab cb p
    rw [Regs.logical, Regs.logical, hstart, haddr, hctrl, hend, hq]
    rfl
  have haddrBytes : q.addrBytes = r.addrBytes := by
    have hlen : q.addrLen = r.addrLen := hbit (by decide)
    funext a
    rw [Regs.addrBytes, Regs.addrBytes, hlen]
  have hctrlBytes : q.ctrlBytes = r.ctrlBytes := by
    have hmode : q.hdrMode = r.hdrMode := extractLsb'_eq_of_escHdr_masked hprofile (by decide)
    funext c p
    rw [Regs.ctrlBytes, Regs.ctrlBytes, hmode]
  funext a c p
  rw [Regs.frameCk, Regs.frameCk, hck, hlogical, haddrBytes, hctrlBytes]

theorem Regs.logical_of_no_inc {r : Regs} (hstart : r.incStart = false) (haddr : r.incAddr = false)
    (hctrl : r.incCtrl = false) (hend : r.incEnd = false) (ab cb p : List Byte) : r.logical ab cb p = p := by
  simp [Regs.logical, hstart, haddr, hctrl, hend]

/-- Settles O22: the fields that the checksum reads agree, and without INC bits the logical bytes are the payload. -/
theorem checksumDependsOnLogicalBytesAlone : Obligations.ChecksumDependsOnLogicalBytesAlone := by
  unfold Obligations.ChecksumDependsOnLogicalBytesAlone
  refine ⟨fun r q a c p hq hprofile => ?_, fun r a c p hstart haddr hctrl hend => ?_⟩
  · rw [Regs.frameCk_eq_of_escHdr_masked hq hprofile]
  · rw [Regs.frameCk, Regs.logical_of_no_inc hstart haddr hctrl hend]

/-! ## The check value of the reset parameters (R184) -/

/-- The register after each of the nine bytes of the check sequence. -/
theorem crcFold_checkSequence :
    crcFold 0x8005 true 0x0000 [0x31, 0x32, 0x33, 0x34, 0x35, 0x36, 0x37, 0x38, 0x39] = 0xBCDD := by
  rw [crcFold_cons, show crcByte 0x8005 true 0x0000 0x31 = 0x832B by decide,
    crcFold_cons, show crcByte 0x8005 true 0x832B 0x32 = 0x29A2 by decide,
    crcFold_cons, show crcByte 0x8005 true 0x29A2 0x33 = 0x205D by decide,
    crcFold_cons, show crcByte 0x8005 true 0x205D 0x34 = 0x5D28 by decide,
    crcFold_cons, show crcByte 0x8005 true 0x5D28 0x35 = 0xAA25 by decide,
    crcFold_cons, show crcByte 0x8005 true 0xAA25 0x36 = 0x2794 by decide,
    crcFold_cons, show crcByte 0x8005 true 0x2794 0x37 = 0x16B9 by decide,
    crcFold_cons, show crcByte 0x8005 true 0x16B9 0x38 = 0xB93C by decide,
    crcFold_cons, show crcByte 0x8005 true 0xB93C 0x39 = 0xBCDD by decide]
  rfl

/-- `crc16` with the reset parameters: reflected in and out, no final XOR. -/
theorem Regs.crc16_reset (d : List Byte) : Regs.reset.crc16 d = (crcFold 0x8005 true 0x0000 d).reverse ^^^ 0x0000 := rfl

/-- Settles O21: the reflected register after the check sequence. -/
theorem crcCheckValue : Obligations.CrcCheckValue := by
  unfold Obligations.CrcCheckValue
  rw [Regs.crc16_reset, Regs.crc16_reset, crcFold_checkSequence]
  decide

/-! ## CKSUM (R191) and CKVERIFY (R192) -/

/-- The Exec step of a command that writes no DST region and builds no frame runs its pseudocode, wherever DST is. -/
theorem State.command_of_srcInside {s : State} {opc : Opc} (hagent : s.agent = .exec) (hopc : opc.toNat < 9)
    (huse : usesDst opc = false) (hbuilds : buildsFrame opc = false) (hconfig : LegalConfig s.regs)
    (hsrc : SrcInside s) (p : State → Host.Outcome State Fault Refusal) : s.command opc p = p s := by
  have hcheck : s.execCheck opc = none :=
    (s.execCheck_eq_none_iff opc).2 ⟨hopc, not_reservedConfig_of_legal hconfig, Nat.not_lt_of_le hsrc,
      fun h => absurd h (by simp [huse]), fun h => absurd h (by simp [hbuilds])⟩
  exact (State.command_of_exec hagent opc p).trans (State.execStep_of_none hcheck p)

/-- The width of a checksum under a legal profile: two bytes for CRC16 and one otherwise. -/
theorem Regs.ckw_of_legal {r : Regs} (h : LegalConfig r) : r.ckw = if r.ckAlg = 2 then 2 else 1 := by
  obtain ⟨halg, -⟩ := h
  have hvals : ∀ x : BitVec 2, x ≠ 3 → (if x = 0 ∨ x = 1 then 1 else 2) = if x = 2 then 2 else 1 := by decide
  exact hvals r.ckAlg halg

theorem Regs.ckMatches_of_legal {r : Regs} (h : LegalConfig r) (v : Half) :
    r.ckMatches v = if r.ckAlg = 2 then v == r.ckRefVal
      else v.extractLsb' 0 8 == r.ckRefVal.extractLsb' 0 8 := by
  rw [Regs.ckMatches, Regs.ckw_of_legal h]
  by_cases halg : r.ckAlg = 2 <;> simp [halg, BitVec.setWidth_eq_extractLsb']

/-- Settles O23: the checks pass wherever DST is, and the width is that of a legal `CK_ALG`. -/
theorem cksumCompletes : Obligations.CksumCompletes := by
  unfold Obligations.CksumCompletes
  intro s hagent hconfig hsrc
  have hwidth : BitVec.ofNat 16 s.regs.ckw = if s.regs.ckAlg = 2 then 2 else 1 := by
    rw [Regs.ckw_of_legal hconfig]
    split <;> rfl
  rw [exec_cksum, State.command_of_srcInside hagent (by decide) (by decide) (by decide) hconfig hsrc, State.runCksum,
    hwidth]
  rfl

/-- Settles O24: the checks pass wherever DST is, and VOK is the comparison of the legal width. -/
theorem ckverifyCompletes : Obligations.CkverifyCompletes := by
  unfold Obligations.CkverifyCompletes
  intro s hagent hconfig hsrc
  rw [exec_ckverify, State.command_of_srcInside hagent (by decide) (by decide) (by decide) hconfig hsrc,
    State.runCkverify, ← Regs.ckMatches_of_legal hconfig]
  rfl

end Sys2Proof.Machine

/-! SUPPORT. The frame codec (spec/43_frame_codec.md): what the receive parser makes of each part of an input, that
parsing inverts building (R221), what a result says of the checksum (R216, R220), and the Exec steps of BUILD and PARSE
(R222-R224). -/

namespace Sys2Proof.Machine
open Sys2Proof.Claims

/-! ## One byte, by the parser's phase (R207-R213) -/

section
variable {r : Regs} {x : Rx} {b : Byte}

theorem Regs.rxStep_noise (hph : x.ph = .hunt) (hb : b ≠ r.startMk) : r.rxStep x b = (x, .cont) := by
  simp [Regs.rxStep, hph, hb]

theorem Regs.rxStep_startMk (hph : x.ph = .hunt) :
    r.rxStep x r.startMk = ({ ph := if r.escHdr then .body else .hdr, hdr := [], body := [], ck := [] }, .cont) := by
  simp [Regs.rxStep, hph]

theorem Regs.rxStep_hdr (hph : x.ph = .hdr) (b : Byte) :
    r.rxStep x b =
      ({ x with hdr := x.hdr ++ [b], ph := if x.hdr.length + 1 = r.hlen then .body else .hdr }, .cont) := by
  simp [Regs.rxStep, hph]

theorem Regs.rxStep_escMk (hph : x.ph = .body) : r.rxStep x r.escMk = ({ x with ph := .escp }, .cont) := by
  simp [Regs.rxStep, hph]

theorem Regs.rxStep_endMk (hph : x.ph = .body) (hmarks : r.endMk ≠ r.escMk) :
    r.rxStep x r.endMk = ({ x with ph := .ck }, .cont) := by
  simp [Regs.rxStep, hph, hmarks]

/-- A byte outside `E` is no marker. -/
theorem Regs.rxStep_plain (hph : x.ph = .body) (hb : r.reserved b = false) : r.rxStep x b = r.rxAppend x b := by
  simp only [Regs.reserved, Bool.or_eq_false_iff, beq_eq_false_iff_ne] at hb
  obtain ⟨⟨⟨-, hstart⟩, hend⟩, hesc⟩ := hb
  simp [Regs.rxStep, hph, hstart, hend, hesc]

theorem Regs.rxStep_escp (hph : x.ph = .escp) (b : Byte) : r.rxStep x b = r.rxAppend x b := by
  simp [Regs.rxStep, hph]

theorem Regs.rxStep_ck (hph : x.ph = .ck) (b : Byte) :
    r.rxStep x b = ({ x with ck := x.ck ++ [b] },
      if x.ck.length + 1 = r.ckw then r.validate { x with ck := x.ck ++ [b] } else .cont) := by
  simp [Regs.rxStep, hph]

/-- A byte that joins the body within the capacity (R214). -/
theorem Regs.rxAppend_of_lt (h : x.body.length < r.cap) (b : Byte) :
    r.rxAppend x b = ({ x with ph := .body, body := x.body ++ [b] }, .cont) := by
  rcases r.rxAppend_cases x b with ⟨-, ha⟩ | ⟨hgt, -⟩
  · exact ha
  · simp only [List.length_append, List.length_singleton] at hgt
    omega

end

/-! ## Inputs after which the parser goes on -/

/-- The parser takes every byte of `d`, from `x` to `y`, and goes on. -/
def Regs.Takes (r : Regs) (x : Rx) (d : List Byte) (y : Rx) : Prop := r.rxFeed x d = (y, d.length, .cont)

section
variable {r : Regs} {x y z : Rx} {b : Byte} {d e : List Byte}

theorem Regs.Takes.nil (r : Regs) (x : Rx) : r.Takes x [] x := rfl

theorem Regs.Takes.rxFeed_append (h : r.Takes x d y) (e : List Byte) :
    r.rxFeed x (d ++ e) = ((r.rxFeed y e).1, d.length + (r.rxFeed y e).2.1, (r.rxFeed y e).2.2) :=
  Regs.rxFeed_append_cont d e h

theorem Regs.Takes.append (hd : r.Takes x d y) (he : r.Takes y e z) : r.Takes x (d ++ e) z := by
  rw [Regs.Takes, hd.rxFeed_append, he, List.length_append]

theorem Regs.Takes.byte (h : r.rxStep x b = (y, .cont)) : r.Takes x [b] y := Regs.rxFeed_cons_cont h []

theorem Regs.Takes.cons (hb : r.rxStep x b = (y, .cont)) (hd : r.Takes y d z) : r.Takes x (b :: d) z :=
  (Regs.Takes.byte hb).append hd

end

/-! ## Leading noise (R208, R209) -/

theorem Regs.takes_noise {r : Regs} {z : List Byte} (h : r.startMk ∉ z) : r.Takes Rx.reset z Rx.reset := by
  induction z with
  | nil => exact .nil r _
  | cons b z ih =>
    obtain ⟨hb, hz⟩ := List.ne_and_not_mem_of_not_mem_cons h
    exact .cons (Regs.rxStep_noise rfl hb.symm) (ih hz)

/-- Settles O29: after the noise the parser is as it was, and goes on. -/
theorem leadingNoiseIsSkipped : Obligations.LeadingNoiseIsSkipped := by
  unfold Obligations.LeadingNoiseIsSkipped
  exact fun r z d h => (Regs.takes_noise h).rxFeed_append d

/-! ## The parts of a frame (R207, R210-R214) -/

/-- A raw header is taken byte by byte, whatever its bytes are (R211). -/
theorem Regs.takes_rawHeader {r : Regs} {x : Rx} {d : List Byte} (hph : x.ph = .hdr) (hne : d ≠ [])
    (hlen : x.hdr.length + d.length = r.hlen) : r.Takes x d { x with ph := .body, hdr := x.hdr ++ d } := by
  induction d generalizing x with
  | nil => exact absurd rfl hne
  | cons b d ih =>
    have hstep := Regs.rxStep_hdr (r := r) hph b
    cases d with
    | nil =>
      rw [if_pos (by simpa using hlen)] at hstep
      exact .byte hstep
    | cons c d =>
      simp only [List.length_cons] at hlen
      rw [if_neg (by omega)] at hstep
      have htail := ih (x := { x with ph := .hdr, hdr := x.hdr ++ [b] }) rfl (by simp) (by simp; omega)
      simpa using Regs.Takes.cons hstep htail

theorem Regs.escape_append (r : Regs) (d e : List Byte) : r.escape (d ++ e) = r.escape d ++ r.escape e := by
  induction d with
  | nil => rfl
  | cons b d ih =>
    cases hb : r.reserved b with
    | true => simp [Regs.escape_cons_of_reserved hb, ih]
    | false => simp [Regs.escape_cons_of_not_reserved hb, ih]

/-- One escaped byte adds itself to the body: a byte of `E` stands in a pair, any other is no marker (R210, R212). -/
theorem Regs.takes_escaped_byte {r : Regs} {x : Rx} (hph : x.ph = .body) (hcap : x.body.length < r.cap) (b : Byte) :
    r.Takes x (r.escape [b]) { x with ph := .body, body := x.body ++ [b] } := by
  cases hb : r.reserved b with
  | true =>
    rw [Regs.escape_cons_of_reserved hb]
    exact .cons (Regs.rxStep_escMk hph) (.byte ((Regs.rxStep_escp rfl b).trans (Regs.rxAppend_of_lt hcap b)))
  | false =>
    rw [Regs.escape_cons_of_not_reserved hb]
    exact .byte ((Regs.rxStep_plain hph hb).trans (Regs.rxAppend_of_lt hcap b))

/-- An escaped sequence adds the bytes that were escaped to the body, as long as the capacity holds them. -/
theorem Regs.takes_escape {r : Regs} {x : Rx} {p : List Byte} (hph : x.ph = .body)
    (hcap : x.body.length + p.length ≤ r.cap) :
    r.Takes x (r.escape p) { x with ph := .body, body := x.body ++ p } := by
  induction p generalizing x with
  | nil => simpa [← hph] using Regs.Takes.nil r x
  | cons b p ih =>
    rw [List.length_cons] at hcap
    have hbyte := Regs.takes_escaped_byte hph (show x.body.length < r.cap by omega) b
    have htail := ih (x := { x with ph := .body, body := x.body ++ [b] }) rfl
      (by rw [List.length_append, List.length_singleton]; omega)
    rw [← List.singleton_append, Regs.escape_append]
    simpa using hbyte.append htail

/-- The last bytes of the checksum field, taken raw, end the parse with the checks of the frame (R213). -/
theorem Regs.rxFeed_ck {r : Regs} {x : Rx} {k : List Byte} (hph : x.ph = .ck) (hne : k ≠ [])
    (hlen : x.ck.length + k.length = r.ckw) :
    r.rxFeed x k = ({ x with ck := x.ck ++ k }, k.length, r.validate { x with ck := x.ck ++ k }) := by
  induction k generalizing x with
  | nil => exact absurd rfl hne
  | cons b k ih =>
    have hstep := Regs.rxStep_ck (r := r) hph b
    cases k with
    | nil =>
      rw [if_pos (by simpa using hlen)] at hstep
      exact Regs.rxFeed_cons_done hstep (r.validate_ne_cont _) []
    | cons c k =>
      simp only [List.length_cons] at hlen
      rw [if_neg (by omega)] at hstep
      have htail := ih (x := { x with ck := x.ck ++ [b] }) hph (by simp) (by simp; omega)
      rw [Regs.rxFeed_cons_cont hstep, htail]
      simp

/-! ## The parser over a whole frame -/

/-- The parser that has received a frame's header `hdr` and payload `p`, unescaped, and the bytes `k` of its checksum
field; an escaped header is the front of the body (R206). -/
def Regs.received (r : Regs) (ph : RxPhase) (hdr p k : List Byte) : Rx :=
  if r.escHdr then { ph := ph, hdr := [], body := hdr ++ p, ck := k } else { ph := ph, hdr := hdr, body := p, ck := k }

section
variable {r : Regs} {hdr p : List Byte}

theorem Regs.received_with_ph (r : Regs) (ph ph' : RxPhase) (hdr p k : List Byte) :
    { r.received ph hdr p k with ph := ph' } = r.received ph' hdr p k := by
  unfold Regs.received
  split <;> rfl

theorem Regs.received_with_ck (r : Regs) (ph : RxPhase) (hdr p k k' : List Byte) :
    { r.received ph hdr p k with ck := k' } = r.received ph hdr p k' := by
  unfold Regs.received
  split <;> rfl

@[simp] theorem Regs.received_ph (r : Regs) (ph : RxPhase) (hdr p k : List Byte) : (r.received ph hdr p k).ph = ph := by
  unfold Regs.received
  split <;> rfl

@[simp] theorem Regs.received_ck (r : Regs) (ph : RxPhase) (hdr p k : List Byte) : (r.received ph hdr p k).ck = k := by
  unfold Regs.received
  split <;> rfl

/-- The split of R215 finds the header and the payload that were received. -/
theorem Regs.validate_received (hlen : hdr.length = r.hlen) (ph : RxPhase) (p k : List Byte) :
    r.validate (r.received ph hdr p k) = r.checkFrame hdr p k := by
  cases hesc : r.escHdr <;> simp [Regs.validate, Regs.received, hesc, ← hlen]

/-- The parser up to the end marker: the header comes raw into RXH, or escaped in front of the payload. -/
theorem Regs.takes_to_endMk (a : Half) (c : Byte) (hcap : p.length ≤ r.dstCap) :
    r.Takes Rx.reset ([r.startMk] ++ r.wireHdr a c p ++ r.escape p) (r.received .body (hdrBytes r a c p) p []) := by
  have hlen : (hdrBytes r a c p).length = r.hlen := length_hdrBytes r a c p
  have hstart := Regs.Takes.byte (Regs.rxStep_startMk (r := r) (x := Rx.reset) rfl)
  rw [Regs.wireHdr_eq]
  cases hesc : r.escHdr with
  | false =>
    rw [hesc] at hstart
    have hhdr := hstart.append (Regs.takes_rawHeader (d := hdrBytes r a c p) rfl
      (List.ne_nil_of_length_pos (hlen ▸ r.hlen_pos)) (by simpa using hlen))
    have hbody := hhdr.append (Regs.takes_escape (p := p) rfl (by simpa [Regs.cap, hesc] using hcap))
    simpa [Regs.received, hesc] using hbody
  | true =>
    rw [hesc] at hstart
    have hbody := hstart.append (Regs.takes_escape (p := hdrBytes r a c p ++ p) rfl
      (by simp [Regs.cap, hesc, hlen]; omega))
    simpa [Regs.received, hesc, Regs.escape_append] using hbody

/-- Noise and a frame end, at the frame's last byte, in the checks of the frame's parts. -/
theorem Regs.rxFeed_noise_frame {z : List Byte} (a : Half) (c : Byte) (hmarks : r.endMk ≠ r.escMk)
    (hz : r.startMk ∉ z) (hcap : p.length ≤ r.dstCap) :
    r.rxFeed Rx.reset (z ++ r.frame a c p) =
      (r.received .ck (hdrBytes r a c p) p (r.ckBytes (r.frameCk a c p)), z.length + (r.frame a c p).length,
        r.checkFrame (hdrBytes r a c p) p (r.ckBytes (r.frameCk a c p))) := by
  have hend : r.Takes (r.received .body (hdrBytes r a c p) p []) [r.endMk]
      (r.received .ck (hdrBytes r a c p) p []) := by
    rw [← r.received_with_ph .body .ck]
    exact .byte (Regs.rxStep_endMk (r.received_ph ..) hmarks)
  have hck : (r.ckBytes (r.frameCk a c p)).length = r.ckw := r.length_ckBytes _
  have hfield := Regs.rxFeed_ck (r.received_ph .ck (hdrBytes r a c p) p [])
    (List.ne_nil_of_length_pos (hck ▸ r.ckw_pos)) (by simpa using hck)
  rw [r.received_with_ck, r.received_ck, List.nil_append, Regs.validate_received (length_hdrBytes r a c p)] at hfield
  rw [(Regs.takes_noise hz).rxFeed_append, Regs.frame, ((Regs.takes_to_endMk a c hcap).append hend).rxFeed_append,
    hfield]
  simp only [List.length_append]

end

/-! ## The header that comes back (R200, R201, R215) -/

section
variable {r : Regs} {p : List Byte}

theorem take_alen_hdrBytes (r : Regs) (a : Half) (c : Byte) (p : List Byte) :
    (hdrBytes r a c p).take r.alen = r.addrBytes a := by
  rw [hdrBytes, ← r.length_addrBytes a, List.take_left]

theorem drop_alen_hdrBytes (r : Regs) (a : Half) (c : Byte) (p : List Byte) :
    (hdrBytes r a c p).drop r.alen = r.ctrlBytes c p := by
  rw [hdrBytes, ← r.length_addrBytes a, List.drop_left]

theorem setWidth_lowByte (a : Half) : (a.extractLsb' 0 8).setWidth 16 = a &&& 0x00FF := by
  have hlow : a.toNat &&& (0x00FF : Half).toNat = a.toNat % 2 ^ 8 := Nat.and_two_pow_sub_one_eq_mod a.toNat 8
  refine BitVec.eq_of_toNat_eq ?_
  rw [BitVec.toNat_and, hlow, BitVec.toNat_setWidth, BitVec.extractLsb'_toNat, Nat.shiftRight_zero]
  omega

/-- The address value of address bytes is the low `8*alen` bits of the address they were made of. -/
theorem Regs.addrOf_addrBytes (r : Regs) (a : Half) : r.addrOf (r.addrBytes a) = r.addrLow a := by
  unfold Regs.addrOf Regs.addrBytes Regs.addrLow
  cases r.addrLen with
  | false => exact setWidth_lowByte a
  | true => exact (BitVec.extractLsb'_append_extractLsb'_eq_extractLsb' (by decide)).trans BitVec.extractLsb'_eq_self

theorem Regs.ctrlOf_ctrlBytes (hmode : r.hdrMode ≠ 3) (c : Byte) (p : List Byte) :
    r.ctrlOf (r.ctrlBytes c p) = ctrlValue r c p := by
  have hmodes : ∀ m : BitVec 2, m ≠ 3 → m = 0 ∨ m = 1 ∨ m = 2 := by decide
  unfold Regs.ctrlOf Regs.ctrlBytes Regs.cflen ctrlValue
  rcases hmodes r.hdrMode hmode with h | h | h <;> simp [h]

/-- A LEN byte holds the whole payload length that R138 admits. -/
theorem toNat_ctrlValue (hmode : r.hdrMode = 2) (c : Byte) (hlen : p.length ≤ 255) :
    (ctrlValue r c p).toNat = p.length := by
  have hvalue : ctrlValue r c p = BitVec.ofNat 8 p.length := by simp [ctrlValue, hmode]
  rw [hvalue, BitVec.toNat_ofNat, Nat.mod_eq_of_lt (by omega)]

/-- The checks of a built frame all pass when its length and address are those expected (R216-R219). -/
theorem Regs.checkFrame_built (a : Half) (c : Byte) (hmode : r.hdrMode ≠ 3) (hlen : r.hdrMode = 2 → p.length ≤ 255)
    (haddr : r.addrChk = false ∨ r.addrLow r.expAddr = r.addrLow a) (hexp : r.expLen = 0 ∨ r.expLen = p.length) :
    r.checkFrame (hdrBytes r a c p) p (r.ckBytes (r.frameCk a c p)) =
      .frame (r.addrLow a) (ctrlValue r c p) p := by
  have hcb : (r.ctrlBytes c p).take r.cflen = r.ctrlBytes c p :=
    List.take_of_length_le (r.length_ctrlBytes c p).le
  have hfield : ¬(r.hdrMode = 2 ∧ (ctrlValue r c p).toNat ≠ p.length) := fun ⟨hmode, hne⟩ =>
    hne (toNat_ctrlValue hmode c (hlen hmode))
  simp only [Regs.checkFrame, take_alen_hdrBytes, drop_alen_hdrBytes, hcb, Regs.addrOf_addrBytes,
    Regs.ctrlOf_ctrlBytes hmode]
  rw [if_neg (by simp [Regs.frameCk]), if_neg hfield, if_neg (by rcases haddr with h | h <;> simp [h]),
    if_neg (by rcases hexp with h | h <;> simp [h])]

end

/-- Settles O26: the frame's parts come back one after the other, and their checks pass. -/
theorem parsingInvertsBuilding : Obligations.ParsingInvertsBuilding := by
  unfold Obligations.ParsingInvertsBuilding
  intro r a c p z hmarks hmode hlen hz hcap haddr hexp
  exact ⟨_, by rw [Regs.rxFeed_noise_frame a c hmarks hz hcap, Regs.checkFrame_built a c hmode hlen haddr hexp]⟩

/-! ## How a parse ends (R207, R215-R220) -/

/-- A byte that ends the parse is a literal `START_MK` in the body, a byte beyond the capacity, or the last byte of the
checksum field. -/
theorem Regs.ParserOk.rxStep_ended {r : Regs} {x y : Rx} {b : Byte} {res : RxResult} (hok : r.ParserOk x)
    (h : r.rxStep x b = (y, res)) (hend : res ≠ .cont) :
    res = .bad none (.malformed .noEnd) ∨ res = .bad none (.malformed .overflow) ∨
      (y.hdr.length = (if r.escHdr then 0 else r.hlen) ∧ res = r.validate y) := by
  rcases r.rxStep_cases x b with ⟨-, -, hs⟩ | ⟨-, -, hs⟩ | ⟨-, hs⟩ | ⟨-, -, hs⟩ | ⟨-, -, -, hs⟩ | ⟨-, -, -, -, hs⟩ |
    ⟨-, hs⟩ | ⟨-, -, hs⟩ | ⟨hph, -, hs⟩ <;> rw [hs] at h
  -- In the other phases and at the other bytes the parser goes on.
  any_goals (cases h; exact absurd rfl hend)
  · cases h
    exact .inl rfl
  · rcases r.rxAppend_cases x b with ⟨-, ha⟩ | ⟨-, ha⟩ <;> rw [ha] at h <;> cases h
    · exact absurd rfl hend
    · exact .inr (.inl rfl)
  · cases h
    exact .inr (.inr ⟨hok.inFrame (by simp [hph]) (by simp [hph]), rfl⟩)

/-- A parse ends with a literal `START_MK`, with an overflow, or in the checks of a whole frame, whose header is in RXH
or still in the body. -/
theorem Regs.ParserOk.rxFeed_ended {r : Regs} {x y : Rx} {d : List Byte} {n : Nat} {res : RxResult}
    (hok : r.ParserOk x) (h : r.rxFeed x d = (y, n, res)) (hend : res ≠ .cont) :
    res = .bad none (.malformed .noEnd) ∨ res = .bad none (.malformed .overflow) ∨
      (y.hdr.length = (if r.escHdr then 0 else r.hlen) ∧ res = r.validate y) := by
  induction d generalizing x n with
  | nil =>
    cases h
    exact absurd rfl hend
  | cons b d ih =>
    rcases hs : r.rxStep x b with ⟨z, stepRes⟩
    by_cases hc : stepRes = .cont
    · subst hc
      rw [Regs.rxFeed_cons_cont hs] at h
      simp only [Prod.mk.injEq] at h
      obtain ⟨hy, -, hres⟩ := h
      exact ih (n := (r.rxFeed z d).2.1) (hok.rxStep hs) (by rw [← hy, ← hres])
    · rw [Regs.rxFeed_cons_done hs hc] at h
      cases h
      exact hok.rxStep_ended hs hend

/-- The checks of a whole frame are those of its header and payload, unless the body is too short for the header. -/
theorem Regs.validate_split {r : Regs} {x : Rx} (h : x.hdr.length = if r.escHdr then 0 else r.hlen) :
    r.validate x = .bad none (.malformed .shortHdr) ∨
      ∃ hdr p, hdr ++ p = (if r.escHdr then x.body else x.hdr ++ x.body) ∧ hdr.length = r.hlen ∧
        r.validate x = r.checkFrame hdr p x.ck := by
  rcases r.validate_cases x with ⟨-, -, hv⟩ | ⟨hesc, hlong, hv⟩ | ⟨hesc, hv⟩
  · exact .inl hv
  · exact .inr ⟨_, _, by simp [hesc], List.length_take_of_le hlong, hv⟩
  · exact .inr ⟨x.hdr, x.body, by simp [hesc], by simpa [hesc] using h, hv⟩

/-- A frame that does not fail its checksum carries the checksum of its logical bytes (R216). -/
theorem Regs.ck_of_checkFrame {r : Regs} {hdr p k : List Byte} (hlen : hdr.length = r.hlen)
    (hpass : ∀ head, r.checkFrame hdr p k ≠ .bad head .ckMismatch) :
    k = r.ckBytes (r.ck (r.logical (hdr.take r.alen) (hdr.drop r.alen) p)) := by
  have hcb : (hdr.drop r.alen).take r.cflen = hdr.drop r.alen :=
    List.take_of_length_le (by rw [List.length_drop, hlen, Regs.hlen]; omega)
  rcases r.checkFrame_cases hdr p k with ⟨-, hbad⟩ | ⟨hck, -⟩
  · exact absurd hbad (hpass _)
  · rwa [hcb] at hck

/-- Settles O31: the four results come from the checks of a whole frame, past the one of its checksum. -/
theorem onlyVerifiedFramesPassTheChecksum : Obligations.OnlyVerifiedFramesPassTheChecksum := by
  unfold Obligations.OnlyVerifiedFramesPassTheChecksum
  intro r d x n res hfeed hres
  have hpast : res ≠ .cont ∧ res ≠ .bad none (.malformed .noEnd) ∧ res ≠ .bad none (.malformed .overflow) ∧
      res ≠ .bad none (.malformed .shortHdr) ∧ ∀ head, res ≠ .bad head .ckMismatch := by
    rcases hres with ⟨a, c, p, rfl⟩ | ⟨h, rfl⟩ | ⟨h, rfl⟩ | ⟨h, rfl⟩ <;> simp
  obtain ⟨hcont, hnoEnd, hoverflow, hshort, hck⟩ := hpast
  rcases r.parserOk_reset.rxFeed_ended hfeed hcont with h | h | ⟨hhdr, rfl⟩
  · exact absurd h hnoEnd
  · exact absurd h hoverflow
  · rcases Regs.validate_split hhdr with h | ⟨hdr, p, hsplit, hlen, hv⟩
    · exact absurd h hshort
    · rw [hv] at hck
      exact ⟨hdr, p, hsplit, hlen, Regs.ck_of_checkFrame hlen hck,
        fun a c q hframe => Regs.payload_of_checkFrame (hv.symm.trans hframe)⟩

/-! ## BUILD (R222) -/

/-- A payload that fits one frame passes the check of R138. -/
theorem not_tooLarge_of_payloadFits {r : Regs} (h : PayloadFits r) : ¬r.tooLarge := by
  obtain ⟨hpl, hlen⟩ := h
  exact not_or.2 ⟨Nat.not_lt_of_le hpl, fun ⟨htwo, hlong⟩ => absurd (hlen htwo) (Nat.not_le_of_lt hlong)⟩

/-- The Exec step of a command whose regions lie in DBUF and whose payload fits one frame runs its pseudocode. -/
theorem State.command_of_fits {s : State} {opc : Opc} (hagent : s.agent = .exec) (hopc : opc.toNat < 9)
    (hconfig : LegalConfig s.regs) (hsrc : SrcInside s) (hdst : DstInside s) (hfits : PayloadFits s.regs)
    (p : State → Host.Outcome State Fault Refusal) : s.command opc p = p s := by
  have hcheck : s.execCheck opc = none :=
    (s.execCheck_eq_none_iff opc).2 ⟨hopc, not_reservedConfig_of_legal hconfig, Nat.not_lt_of_le hsrc,
      fun _ => Nat.not_lt_of_le hdst, fun _ => not_tooLarge_of_payloadFits hfits⟩
  exact (State.command_of_exec hagent opc p).trans (State.execStep_of_none hcheck p)

theorem State.runBuild_of_le {s : State} (h : (sendFrame s).length ≤ s.regs.dstCap) :
    s.runBuild = ({ s with
      results.ckRes := s.regs.frameCk s.regs.txAddr s.regs.txCtrl s.srcBytes }).finishWithOutput (sendFrame s) :=
  if_neg (Nat.not_lt_of_le h)

theorem State.runBuild_of_gt {s : State} (h : (sendFrame s).length > s.regs.dstCap) :
    s.runBuild = .next (failed s .bounds .none) := if_pos h

/-- Settles O27: the checks pass, and the capacity check decides. -/
theorem buildCompletes : Obligations.BuildCompletes := by
  unfold Obligations.BuildCompletes
  intro s hagent hconfig hsrc hdst hfits
  rw [exec_build, State.command_of_fits hagent (by decide) hconfig hsrc hdst hfits]
  refine ⟨fun hle => ?_, State.runBuild_of_gt⟩
  rw [State.runBuild_of_le hle]
  exact State.finishWithOutput_stores hdst hle

/-! ## PARSE (R223, R224) -/

section
variable {s : State} {x : Rx} {n : Nat} {a : Half} {c : Byte} {p : List Byte} {f : Failure}

theorem State.runParse_of_frame (h : s.regs.rxFeed Rx.reset s.srcBytes = (x, n, .frame a c p)) :
    s.runParse = ({ s with
      rx := x
      results := { s.results with
        consumed := BitVec.ofNat 16 n, rxAddr := a, rxCtrl := c } }).finishWithOutput p := by
  rw [State.runParse, h]
  rfl

theorem State.runParse_of_bad (h : s.regs.rxFeed Rx.reset s.srcBytes = (x, n, .bad none f)) :
    s.runParse = .next (failed { s with
      rx := x
      results := { s.results with consumed := BitVec.ofNat 16 n } } f.code f.sub) := by
  rw [State.runParse, h]
  rfl

theorem State.runParse_of_bad_header (h : s.regs.rxFeed Rx.reset s.srcBytes = (x, n, .bad (some (a, c)) f)) :
    s.runParse = .next (failed { s with
      rx := x
      results := { s.results with consumed := BitVec.ofNat 16 n, rxAddr := a, rxCtrl := c } } f.code f.sub) := by
  rw [State.runParse, h]
  rfl

/-- An input that ends first was read whole. -/
theorem State.runParse_of_cont (h : s.regs.rxFeed Rx.reset s.srcBytes = (x, n, .cont)) :
    s.runParse = .next (failed { s with
      rx := x
      results := { s.results with consumed := BitVec.ofNat 16 s.regs.srcLen } } .timeout .none) := by
  have hread : n = s.regs.srcLen := (Regs.rxFeed_cont_length h).trans s.srcBytes_length
  rw [State.runParse, h, hread]
  rfl

end

/-- Settles O28: the checks pass, and the parser's result decides; a payload it delivers fits DST_CAP. -/
theorem parseCompletes : Obligations.ParseCompletes := by
  unfold Obligations.ParseCompletes
  intro s x n hagent hconfig hsrc hdst
  rw [exec_parse, State.command_of_inside hagent (by decide) (by decide) hconfig hsrc hdst]
  refine ⟨fun a c p h => ?_, fun _ => State.runParse_of_bad, fun _ _ _ => State.runParse_of_bad_header,
    State.runParse_of_cont⟩
  rw [State.runParse_of_frame h]
  exact State.finishWithOutput_stores hdst (Regs.payload_le_of_rxFeed (Nat.zero_le _) h)

end Sys2Proof.Machine

/-! SUPPORT. The transaction engine, one operation and one event at a time (spec/44_transaction.md R245-R264): an
equation for each case of each operation, and what each event of a transaction does as a step. -/

namespace Sys2Proof.Machine
open Sys2Proof.Claims

/-! ## The phases of an attempt (R246-R249) -/

theorem State.setPin_false_eq_released (s : State) : s.setPin false = released s := by
  unfold State.setPin released
  cases s.regs.lcSel <;> rfl

/-- A deadline of 0 ends the wait for the response as it begins (R249). -/
theorem State.enterAwait_of_no_deadline {s : State} (h : s.regs.rxTmo = 0) :
    s.enterAwait = (awaiting s).attemptFailed .timeout := if_pos h

theorem State.endSettle_eq (s : State) : s.endSettle = (released s).enterAwait := by
  rw [State.endSettle, State.setPin_false_eq_released]

theorem State.endEmit_of_no_lineControl {s : State} (h : s.regs.lcEn = false) : s.endEmit = s.enterAwait := by
  simp [State.endEmit, h]

/-- The settle time has begun (R247). -/
abbrev State.settling (s : State) : State := { s with tx := { s.tx with ph := .settle }, wcnt := s.regs.settleT }

theorem State.endEmit_of_settle {s : State} (h : s.regs.lcEn = true) (hset : s.regs.settleT ≠ 0) :
    s.endEmit = s.settling := by
  rw [State.endEmit, if_pos h]
  exact if_neg hset

theorem State.endEmit_of_no_settle {s : State} (h : s.regs.lcEn = true) (hset : s.regs.settleT = 0) :
    s.endEmit = (released { s with tx := { s.tx with ph := .settle }, wcnt := 0 }).enterAwait := by
  simp [State.endEmit, h, hset, State.endSettle_eq]

/-! ## The retry policy (R260-R264) -/

theorem State.attemptFailed_of_terminal {s : State} {f : Failure} (h : s.regs.retryable f = false) :
    s.attemptFailed f = failed s f.code f.sub := by
  simp [State.attemptFailed, h, State.raise, failed]

theorem State.attemptFailed_of_retry {s : State} {f : Failure} (h : s.regs.retryable f = true)
    (hleft : s.results.retryCnt < s.regs.maxRetry) : s.attemptFailed f = s.retry := by
  simp [State.attemptFailed, h, hleft]

theorem State.attemptFailed_of_exhausted {s : State} {f : Failure} (h : s.regs.retryable f = true)
    (hnone : s.regs.maxRetry ≤ s.results.retryCnt) : s.attemptFailed f = s.exhausted f := by
  simp [State.attemptFailed, h, BitVec.not_lt.2 hnone]

/-- A retry has been counted and its backoff loaded (R262). -/
abbrev State.backingOff (s : State) : State :=
  { s with
    results := { s.results with retryCnt := s.results.retryCnt + 1 }
    status := { s.status with st := .retryWait }
    wcnt := s.regs.backoff }

/-- A backoff of 0 restarts at once (R262). -/
theorem State.retry_eq (s : State) :
    s.retry = if s.regs.backoff = 0 then started s.backingOff else s.backingOff := by
  rw [← State.startAttempt_eq_started]
  rfl

/-- The failures that R260 retries. -/
theorem Regs.retryable_iff (r : Regs) (f : Failure) :
    r.retryable f = true ↔
      f = .busyRsp ∨ (f = .timeout ∧ r.rtyTmo = true) ∨ ((∃ sub, f = .malformed sub) ∧ r.rtyMal = true) := by
  cases f <;> simp [Regs.retryable]

/-- Settles O36: a failure is terminal, has a retry left, or has none. -/
theorem retryPolicy : Obligations.RetryPolicy := by
  unfold Obligations.RetryPolicy
  intro s
  refine ⟨⟨State.attemptFailed_of_terminal rfl, State.attemptFailed_of_terminal rfl,
    State.attemptFailed_of_terminal rfl⟩, State.attemptFailed_of_terminal (f := .timeout),
    fun sub => State.attemptFailed_of_terminal (f := .malformed sub), fun f hf => ?_⟩
  have hretry : s.regs.retryable f = true := (s.regs.retryable_iff f).2 hf
  exact ⟨fun hleft => (State.attemptFailed_of_retry hretry hleft).trans s.retry_eq,
    State.attemptFailed_of_exhausted hretry⟩

/-! ## SEND (R245) -/

/-- A SEND that passes every check builds its frame and starts its first attempt. -/
theorem exec_send_of_fits {s : State} (hagent : s.agent = .exec) (hconfig : LegalConfig s.regs) (hsrc : SrcInside s)
    (hdst : DstInside s) (hfits : PayloadFits s.regs) :
    exec .send s = .next (started { s with
      tx := { s.tx with frame := sendFrame s }
      results := { s.results with retryCnt := 0 } }) := by
  rw [exec_send, State.command_of_fits hagent (by decide) hconfig hsrc hdst hfits, State.runSend,
    State.startAttempt_eq_started]
  rfl

/-- Settles O32. -/
theorem sendStartsItsFirstAttempt : Obligations.SendStartsItsFirstAttempt := by
  unfold Obligations.SendStartsItsFirstAttempt
  exact fun s => exec_send_of_fits

/-! ## TxTake (R250) -/

theorem step_of_txTake {s t : State} {rest : List Event} (h : s.events = .txTake :: rest)
    (ht : (after s .txLine rest).txTake = t) : step s = .next t := (step_event h).trans (congrArg _ ht)

theorem State.txTake_of_not_emit {s : State} (h : ¬(s.status.st = .sending ∧ s.tx.ph = .emit)) : s.txTake = s := by
  rw [State.txTake, State.offered, if_neg h]

/-- The TxLine has taken the byte `b`. -/
abbrev State.taken (s : State) (b : Byte) : State :=
  { s with wire := s.wire ++ [b], tx := { s.tx with idx := s.tx.idx + 1 } }

section
variable {s : State} {b : Byte}

theorem State.offered_of_emit (hst : s.status.st = .sending) (hph : s.tx.ph = .emit)
    (hb : s.tx.frame[s.tx.idx]? = some b) : s.offered = some b := by
  rw [State.offered, if_pos ⟨hst, hph⟩, hb]

theorem State.txTake_of_more (hst : s.status.st = .sending) (hph : s.tx.ph = .emit)
    (hb : s.tx.frame[s.tx.idx]? = some b) (hmore : s.tx.idx + 1 < s.tx.frame.length) :
    s.txTake = s.taken b := by
  rw [State.txTake, State.offered_of_emit hst hph hb]
  exact if_neg (Nat.ne_of_lt hmore)

theorem State.txTake_of_last (hst : s.status.st = .sending) (hph : s.tx.ph = .emit)
    (hb : s.tx.frame[s.tx.idx]? = some b) (hlast : s.tx.idx + 1 = s.tx.frame.length) :
    s.txTake = (s.taken b).endEmit := by
  rw [State.txTake, State.offered_of_emit hst hph hb]
  exact if_pos hlast

end

/-- Settles O33. -/
theorem txTakeTakesTheOfferedByte : Obligations.TxTakeTakesTheOfferedByte := by
  unfold Obligations.TxTakeTakesTheOfferedByte
  intro s rest hev
  exact ⟨fun h => step_of_txTake hev (State.txTake_of_not_emit h),
    fun b hst hph hb hmore => step_of_txTake hev (State.txTake_of_more hst hph hb hmore)⟩

/-- Settles O34: the last byte ends the emission, and line control, SETTLE_T and RX_TMO say what comes next. -/
theorem lastByteStartsSettleOrAwait : Obligations.LastByteStartsSettleOrAwait := by
  unfold Obligations.LastByteStartsSettleOrAwait
  intro s rest b hev hst hph hb hlast t
  have hend : ∀ {u : State}, t.endEmit = u → step s = .next u := fun hu =>
    step_of_txTake hev ((State.txTake_of_last (s := after s .txLine rest) hst hph hb hlast).trans hu)
  refine ⟨fun hlc htmo => hend ?_, fun hlc hset => hend ?_, fun hlc hset htmo => hend ?_, fun hlc htmo => hend ?_,
    fun hlc hset htmo => hend ?_, fun hlc htmo hterm => hend ?_⟩
  · exact Eq.trans (State.endEmit_of_no_lineControl hlc) (State.enterAwait_of_ne htmo)
  · exact State.endEmit_of_settle hlc hset
  · exact Eq.trans (State.endEmit_of_no_settle hlc hset) (State.enterAwait_of_ne htmo)
  · exact Eq.trans (State.endEmit_of_no_lineControl hlc) (State.enterAwait_of_no_deadline htmo)
  · exact Eq.trans (State.endEmit_of_no_settle hlc hset) (State.enterAwait_of_no_deadline htmo)
  · exact Eq.trans (State.endEmit_of_no_lineControl hlc) (Eq.trans (State.enterAwait_of_no_deadline htmo)
      (State.attemptFailed_of_terminal (f := .timeout) hterm))

/-! ## Tick (R251-R253) -/

theorem step_of_tick {s t : State} {rest : List Event} (h : s.events = .tick :: rest)
    (ht : (after s .timebase rest).tick = t) : step s = .next t := (step_event h).trans (congrArg _ ht)

/-- The states in which a Tick counts down: the settle time, the wait for the response, the backoff (R251). -/
abbrev State.Waits (s : State) : Prop :=
  (s.status.st = .sending ∧ s.tx.ph = .settle) ∨ s.status.st = .await ∨ s.status.st = .retryWait

theorem State.tick_of_not_waits {s : State}
    (h : s.status.st.inTransaction = false ∨ (s.status.st = .sending ∧ s.tx.ph = .emit)) : s.tick = s := by
  unfold State.tick
  rcases h with h | ⟨hst, hph⟩
  · cases hst : s.status.st <;> simp_all [SeqState.inTransaction]
  · simp only [hst, hph]

/-- A wait with more than one tick left. -/
theorem State.tick_of_more {s : State} (h : s.Waits) (hmore : s.wcnt ≠ 1) :
    s.tick = { s with wcnt := s.wcnt - 1 } := by
  have hleft : ¬s.wcnt - 1 = 0 := by bv_omega
  unfold State.tick
  rcases h with ⟨hst, hph⟩ | hst | hst
  · simp only [hst, hph, if_neg hleft]
  · simp only [hst, if_neg hleft]
  · simp only [hst, if_neg hleft]

section
variable {s : State}

theorem State.tick_ends_settle (hst : s.status.st = .sending) (hph : s.tx.ph = .settle) (hlast : s.wcnt = 1) :
    s.tick = (released { s with wcnt := 0 }).enterAwait := by
  simp [State.tick, hst, hph, hlast, State.endSettle_eq]

theorem State.tick_ends_await (hst : s.status.st = .await) (hlast : s.wcnt = 1) :
    s.tick = ({ s with wcnt := 0 }).attemptFailed .timeout := by
  simp [State.tick, hst, hlast]

theorem State.tick_ends_backoff (hst : s.status.st = .retryWait) (hlast : s.wcnt = 1) :
    s.tick = started { s with wcnt := 0 } := by
  simp [State.tick, hst, hlast, State.startAttempt_eq_started]

end

/-- Settles O35: the wait, and whether it is its last tick, say what a Tick does. -/
theorem tickCountsTheWaitDown : Obligations.TickCountsTheWaitDown := by
  unfold Obligations.TickCountsTheWaitDown
  intro s rest hev t
  have hzero : s.wcnt = 1 → { after s .timebase rest with wcnt := 0 } = t := fun hlast => by simp [t, hlast]
  refine ⟨fun h => step_of_tick hev ?_, fun h _ hmore => step_of_tick hev ?_,
    fun hst hph hlast htmo => step_of_tick hev ?_, fun hst hph hlast htmo => step_of_tick hev ?_,
    fun hst hlast => step_of_tick hev ?_, fun hst hlast => step_of_tick hev ?_⟩
  · exact State.tick_of_not_waits h
  · exact State.tick_of_more h hmore
  · rw [← hzero hlast]
    exact Eq.trans (State.tick_ends_settle hst hph hlast) (State.enterAwait_of_ne htmo)
  · rw [← hzero hlast]
    exact Eq.trans (State.tick_ends_settle hst hph hlast) (State.enterAwait_of_no_deadline htmo)
  · rw [← hzero hlast]
    exact State.tick_ends_backoff hst hlast
  · rw [← hzero hlast]
    exact State.tick_ends_await hst hlast

/-! ## RxByte (R255-R259, R263) -/

theorem step_rxByte {s : State} {b : Byte} {rest : List Event} (h : s.events = .rxByte b :: rest) :
    step s = (after s .rxLine rest).rxByte b := step_event h

theorem State.rxByte_of_not_await {s : State} (hst : s.status.st ≠ .await) (b : Byte) :
    s.rxByte b = .next s.dropByte := if_neg hst

/-- The count of dropped bytes saturates at 0xFFFF. -/
theorem saturated_succ_eq (n : Half) :
    (if n = 0xFFFF then 0xFFFF else n + 1) = BitVec.ofNat 16 (min (n.toNat + 1) 0xFFFF) := by
  by_cases h : n = 0xFFFF
  · subst h
    rfl
  · have hlt : n.toNat + 1 ≤ 0xFFFF := by bv_omega
    rw [if_neg h, Nat.min_eq_left hlt, BitVec.ofNat_add, BitVec.ofNat_toNat, BitVec.setWidth_eq]
    rfl

/-- Settles O38. -/
theorem byteOutsideAwaitIsDroppedAndCounted : Obligations.ByteOutsideAwaitIsDroppedAndCounted := by
  unfold Obligations.ByteOutsideAwaitIsDroppedAndCounted
  intro s b rest hev hst
  rw [step_rxByte hev, State.rxByte_of_not_await (s := after s .rxLine rest) hst, ← saturated_succ_eq]
  rfl

theorem State.rxByte_of_status {s : State} (hst : s.status.st = .await) (hmode : s.regs.rspMode = false) (b : Byte) :
    s.rxByte b = .next (s.rxStatus b) := by
  simp [State.rxByte, hst, hmode]

theorem State.rxByte_of_frame {s : State} (hst : s.status.st = .await) (hmode : s.regs.rspMode = true) (b : Byte) :
    s.rxByte b = s.rxFrame b := by
  simp [State.rxByte, hst, hmode]

/-- The codes in the order in which R256 compares them. -/
theorem State.rxStatus_eq (s : State) (b : Byte) :
    s.rxStatus b =
      if s.regs.ackEn = true ∧ b = s.regs.ackCode then { s with status := { s.status with st := .success } }
      else if s.regs.nackEn = true ∧ b = s.regs.nackCode then failed s .nack .none
      else if s.regs.busyEn = true ∧ b = s.regs.busyCode then s.attemptFailed .busyRsp
      else s.attemptFailed (.malformed .badStatus) := by
  rw [State.rxStatus, State.attemptFailed_of_terminal (f := .nack) rfl]
  rfl

/-- Settles O37: the codes are compared in R256's order. -/
theorem statusByteEndsTheAttempt : Obligations.StatusByteEndsTheAttempt := by
  unfold Obligations.StatusByteEndsTheAttempt
  intro s b rest hev hst hmode ack nack busy
  rw [step_rxByte hev, State.rxByte_of_status (s := after s .rxLine rest) hst hmode, State.rxStatus_eq]
  refine ⟨fun hack => ?_, fun hack hnack => ?_, fun hack hnack hbusy => ?_, fun hack hnack hbusy => ?_⟩
  · exact congrArg _ (if_pos hack)
  · exact congrArg _ ((if_neg hack).trans (if_pos hnack))
  · exact congrArg _ ((if_neg hack).trans ((if_neg hnack).trans (if_pos hbusy)))
  · exact congrArg _ ((if_neg hack).trans ((if_neg hnack).trans (if_neg hbusy)))

/-- In inter-byte mode every byte but leading noise reloads the deadline (R259). -/
theorem State.reloads_iff (s : State) (b : Byte) :
    s.reloads b = true ↔ s.regs.tmoMode = true ∧ ¬(s.rx.ph = .hunt ∧ b ≠ s.regs.startMk) := by
  simp [State.reloads, imp_iff_not_or]

/-- The parser took a reply byte and the deadline was reloaded or not (R257, R259). -/
abbrev State.replied (s : State) (b : Byte) (x : Rx) : State :=
  { s with rx := x, wcnt := if s.reloads b then s.regs.rxTmo else s.wcnt }

section
variable {s : State} {b : Byte} {x : Rx} {a : Half} {c : Byte} {p : List Byte} {f : Failure}

theorem State.rxFrame_of_cont (h : s.regs.rxStep s.rx b = (x, .cont)) : s.rxFrame b = .next (s.replied b x) := by
  rw [State.rxFrame, h]
  rfl

theorem State.rxFrame_of_frame (h : s.regs.rxStep s.rx b = (x, .frame a c p)) :
    s.rxFrame b = ({ s.replied b x with
      results := { s.results with rxAddr := a, rxCtrl := c } }).finishWithOutput p := by
  rw [State.rxFrame, h]
  rfl

theorem State.rxFrame_of_bad (h : s.regs.rxStep s.rx b = (x, .bad none f)) :
    s.rxFrame b = .next ((s.replied b x).attemptFailed f) := by
  rw [State.rxFrame, h]
  rfl

theorem State.rxFrame_of_bad_header (h : s.regs.rxStep s.rx b = (x, .bad (some (a, c)) f)) :
    s.rxFrame b = .next (({ s.replied b x with
      results := { s.results with rxAddr := a, rxCtrl := c } }).attemptFailed f) := by
  rw [State.rxFrame, h]
  rfl

end

/-- Settles O39: the parser's result decides; a payload that fits DST is stored. -/
theorem replyByteGoesToTheParser : Obligations.ReplyByteGoesToTheParser := by
  unfold Obligations.ReplyByteGoesToTheParser
  intro s b rest x hev hst hmode noise w
  have hw : w = if (after s .rxLine rest).reloads b then s.regs.rxTmo else s.wcnt :=
    if_congr (State.reloads_iff (after s .rxLine rest) b).symm rfl rfl
  rw [step_rxByte hev, State.rxByte_of_frame (s := after s .rxLine rest) hst hmode, hw]
  refine ⟨State.rxFrame_of_cont (s := after s .rxLine rest), fun a c p hx hfits hdst => ?_,
    fun f => State.rxFrame_of_bad (s := after s .rxLine rest),
    fun a c f => State.rxFrame_of_bad_header (s := after s .rxLine rest)⟩
  rw [State.rxFrame_of_frame (s := after s .rxLine rest) hx]
  exact State.finishWithOutput_stores hdst hfits

end Sys2Proof.Machine

/-! SUPPORT. The wire law (spec/44_transaction.md R268, R242): what the wire has carried in each state of a transaction,
and that every event but Reset keeps it and keeps TXF. -/

namespace Sys2Proof.Machine
open Sys2Proof.Claims

/-! ## What the law says in each state -/

theorem copies_succ (f : List Byte) (n : Nat) : copies f (n + 1) = copies f n ++ f := by
  simp [copies, List.replicate_succ']

/-- Since the wire carried `w`, the TxLine has taken `n` whole copies of TXF. -/
abbrev State.SentCopies (s : State) (w : List Byte) (n : Nat) : Prop := s.wire = w ++ copies s.tx.frame n

section
variable {s t : State} {w : List Byte}

theorem wireLaw_emit_iff (hst : s.status.st = .sending) (hph : s.tx.ph = .emit) :
    WireLaw w s ↔ s.wire = w ++ copies s.tx.frame s.results.retryCnt.toNat ++ s.tx.frame.take s.tx.idx := by
  simp only [WireLaw, hst, hph]

theorem wireLaw_retryWait_iff (hst : s.status.st = .retryWait) :
    WireLaw w s ↔ s.SentCopies w s.results.retryCnt.toNat := by
  simp only [WireLaw, hst]

/-- The states in which the running attempt, or the last one, has been transmitted whole. -/
abbrev State.Transmitted (s : State) : Prop :=
  (s.status.st = .sending ∧ s.tx.ph = .settle) ∨ s.status.st = .await ∨ s.status.st = .success ∨
    s.status.st = .failed

theorem wireLaw_transmitted_iff (h : s.Transmitted) :
    WireLaw w s ↔ s.SentCopies w (s.results.retryCnt.toNat + 1) := by
  rcases h with ⟨hst, hph⟩ | hst | hst | hst
  · simp only [WireLaw, hst, hph]
  · simp only [WireLaw, hst]
  · simp only [WireLaw, hst]
  · simp only [WireLaw, hst]

/-- What the law reads. -/
def State.linePart (s : State) := (s.status.st, s.tx, s.wire, s.results.retryCnt)

/-- The wire law and TXF kept from a state to the next. -/
def KeepsWireLaw (w : List Byte) (s t : State) : Prop := WireLaw w t ∧ t.tx.frame = s.tx.frame

theorem KeepsWireLaw.of_linePart (h : WireLaw w s) (e : t.linePart = s.linePart) : KeepsWireLaw w s t := by
  simp only [State.linePart, Prod.mk.injEq] at e
  obtain ⟨hst, htx, hwire, hretry⟩ := e
  simp only [KeepsWireLaw, WireLaw, hst, htx, hwire, hretry] at h ⊢
  exact ⟨h, trivial⟩

/-! ## The operations of an attempt -/

/-- An attempt starts with nothing of its own copy sent. -/
theorem State.startAttempt_wireLaw (h : s.SentCopies w s.results.retryCnt.toNat) : WireLaw w s.startAttempt := by
  rw [wireLaw_emit_iff s.startAttempt_status_st s.startAttempt_tx_ph]
  simpa using h

/-- A retry counts the copy that the failed attempt sent. -/
theorem State.retry_wireLaw (hleft : s.results.retryCnt < s.regs.maxRetry)
    (h : s.SentCopies w (s.results.retryCnt.toNat + 1)) : WireLaw w s.retry := by
  have hcount : (s.results.retryCnt + 1).toNat = s.results.retryCnt.toNat + 1 := by bv_omega
  have hsent : s.backingOff.SentCopies w s.backingOff.results.retryCnt.toNat := by
    simpa only [State.SentCopies, hcount] using h
  rw [State.retry_eq, ← State.startAttempt_eq_started]
  split
  · exact State.startAttempt_wireLaw hsent
  · exact Iff.mpr (wireLaw_retryWait_iff rfl) hsent

theorem State.attemptFailed_wireLaw (h : s.SentCopies w (s.results.retryCnt.toNat + 1)) (f : Failure) :
    WireLaw w (s.attemptFailed f) := by
  rcases s.attemptFailed_cases f with ⟨-, hleft, ha⟩ | ⟨-, -, ha⟩ | ⟨-, ha⟩ <;> rw [ha]
  · exact State.retry_wireLaw hleft h
  · exact Iff.mpr (wireLaw_transmitted_iff (.inr (.inr (.inr rfl)))) h
  · exact Iff.mpr (wireLaw_transmitted_iff (.inr (.inr (.inr rfl)))) h

theorem State.enterAwait_wireLaw (h : s.SentCopies w (s.results.retryCnt.toNat + 1)) : WireLaw w s.enterAwait := by
  by_cases htmo : s.regs.rxTmo = 0
  · rw [State.enterAwait_of_no_deadline htmo]
    exact State.attemptFailed_wireLaw (s := awaiting s) h _
  · rw [State.enterAwait_of_ne htmo]
    exact Iff.mpr (wireLaw_transmitted_iff (.inr (.inl rfl))) h

theorem State.endSettle_wireLaw (h : s.SentCopies w (s.results.retryCnt.toNat + 1)) : WireLaw w s.endSettle := by
  rw [State.endSettle_eq]
  exact State.enterAwait_wireLaw (s := released s) h

theorem State.endEmit_wireLaw (hst : s.status.st = .sending) (h : s.SentCopies w (s.results.retryCnt.toNat + 1)) :
    WireLaw w s.endEmit := by
  rcases s.endEmit_cases with ⟨-, he⟩ | ⟨-, -, he⟩ | ⟨-, -, he⟩ <;> rw [he]
  · exact State.enterAwait_wireLaw h
  · exact Iff.mpr (wireLaw_transmitted_iff (.inl ⟨hst, rfl⟩)) h
  · exact State.endSettle_wireLaw h

/-! ## The events of a transaction -/

/-- A TxTake lengthens the running copy by the byte it takes; the last one completes it. -/
theorem State.txTake_keepsWireLaw (h : WireLaw w s) : KeepsWireLaw w s s.txTake := by
  refine ⟨?_, s.txTake_tx_frame⟩
  rcases s.txTake_cases with ⟨-, ht⟩ | ⟨b, -, hst, hph, hb, ht⟩
  · rwa [ht]
  · have hsent : s.wire ++ [b] =
        w ++ copies s.tx.frame s.results.retryCnt.toNat ++ s.tx.frame.take (s.tx.idx + 1) := by
      rw [(wireLaw_emit_iff hst hph).1 h, List.take_add_one, hb, Option.toList_some, List.append_assoc _ _ [b]]
    rcases ht with ⟨-, ht⟩ | ⟨hlast, ht⟩ <;> rw [ht]
    · exact Iff.mpr (wireLaw_emit_iff hst hph) hsent
    · rw [hlast, List.take_length, List.append_assoc, ← copies_succ] at hsent
      exact State.endEmit_wireLaw hst hsent

theorem State.tick_keepsWireLaw (h : WireLaw w s) : KeepsWireLaw w s s.tick := by
  refine ⟨?_, s.tick_tx_frame⟩
  rcases s.tick_cases with ⟨-, ht⟩ | ⟨-, -, ht⟩ | ⟨hst, hph, -, ht⟩ | ⟨hst, -, ht⟩ | ⟨hst, -, ht⟩ <;> rw [ht]
  · exact h
  · exact h
  · exact State.endSettle_wireLaw ((wireLaw_transmitted_iff (.inl ⟨hst, hph⟩)).1 h)
  · exact State.attemptFailed_wireLaw (s := { s with wcnt := 0 }) ((wireLaw_transmitted_iff (.inr (.inl hst))).1 h) _
  · exact State.startAttempt_wireLaw ((wireLaw_retryWait_iff hst).1 h)

theorem State.rxStatus_keepsWireLaw (hst : s.status.st = .await) (h : WireLaw w s) (b : Byte) :
    KeepsWireLaw w s (s.rxStatus b) := by
  refine ⟨?_, s.rxStatus_tx_frame b⟩
  have hsent : s.SentCopies w (s.results.retryCnt.toNat + 1) := (wireLaw_transmitted_iff (.inr (.inl hst))).1 h
  rcases s.rxStatus_cases b with hx | hx | hx | hx <;> rw [hx]
  · exact Iff.mpr (wireLaw_transmitted_iff (.inr (.inr (.inl rfl)))) hsent
  · exact State.attemptFailed_wireLaw hsent _
  · exact State.attemptFailed_wireLaw hsent _
  · exact State.attemptFailed_wireLaw hsent _

theorem State.rxFrame_keepsWireLaw (hst : s.status.st = .await) (h : WireLaw w s) {b : Byte}
    (ht : s.rxFrame b = .next t) : KeepsWireLaw w s t := by
  have hsent : s.SentCopies w (s.results.retryCnt.toNat + 1) := (wireLaw_transmitted_iff (.inr (.inl hst))).1 h
  obtain ⟨x, res, -, u, hu, ht⟩ := State.rxFrame_cases ht
  have hframe : u.tx.frame = s.tx.frame := by simp [hu]
  have husent : u.SentCopies w (u.results.retryCnt.toNat + 1) := by
    simpa [State.SentCopies, hu] using hsent
  rcases ht with ⟨-, rfl⟩ | ⟨a, c, p, -, ht⟩ | ⟨hd, f, -, rfl⟩
  · exact .of_linePart h (by simp [hu, State.linePart])
  · obtain ⟨-, rfl⟩ := State.finishWithOutput_cases ht
    exact ⟨Iff.mpr (wireLaw_transmitted_iff (.inr (.inr (.inl rfl)))) husent, hframe⟩
  · exact ⟨State.attemptFailed_wireLaw husent f, (u.attemptFailed_tx_frame f).trans hframe⟩

theorem State.rxByte_keepsWireLaw (h : WireLaw w s) {b : Byte} (ht : s.rxByte b = .next t) : KeepsWireLaw w s t := by
  rcases s.rxByte_cases b with ⟨-, hb⟩ | ⟨hst, -, hb⟩ | ⟨hst, -, hb⟩ <;> rw [hb] at ht
  · cases ht
    exact .of_linePart h rfl
  · cases ht
    exact State.rxStatus_keepsWireLaw hst h b
  · exact State.rxFrame_keepsWireLaw hst h ht

/-! ## Host accesses while Busy (10_state.md R59, 40_command_control.md R131) -/

/-- A command written to CMD while Busy is rejected, or is NOP. -/
theorem exec_write_linePart {opc : Opc} (hagent : s.agent ≠ .exec) (hb : s.busy = true)
    (ht : exec (decodeOpc opc) s = .next t) : t.linePart = s.linePart := by
  rw [busyBlockRejectsEveryCommandButNop _ s (wellFormed_decodeOpc opc) hagent hb] at ht
  rw [← Host.Outcome.next.inj ht]
  split <;> rfl

theorem State.hostWrite_linePart {addr : Nat} {width : Width} {d : Word} (hagent : s.agent ≠ .exec)
    (hb : s.busy = true) (ht : s.hostWrite addr width d = .next t) : t.linePart = s.linePart := by
  rcases s.hostWrite_cases addr width d with hw | hw | ⟨-, hw⟩ | hw | ⟨reg, hw⟩ | hw | ⟨a, hw⟩ <;> rw [hw] at ht
  · cases ht
    rfl
  · cases ht
    rfl
  · exact exec_write_linePart (s := { s with bus := .written }) hagent hb ht
  · cases ht
    rfl
  · cases ht
    rw [State.opRegWrite_of_shut (s := { s with bus := .written }) (.inl hb)]
    rfl
  · cases ht
    rfl
  · cases ht
    rcases State.dbufWrite_cases { s with bus := .written } a width d with ⟨-, hd⟩ | ⟨-, -, hd⟩ | ⟨-, -, hd⟩ <;>
      rw [hd] <;> rfl

theorem State.hostRead_linePart (s : State) (addr : Nat) (width : Width) :
    (s.hostRead addr width).linePart = s.linePart := by
  obtain ⟨d, n, hr⟩ := s.hostRead_frame addr width
  rw [hr]
  rfl

/-! ## Every step but Reset -/

theorem SeqState.ne_exec_of_inTransaction {st : SeqState} (h : st.inTransaction = true) : st ≠ .exec := by
  rintro rfl
  cases h

theorem State.applyEvent_keepsWireLaw {e : Event} (hown : s.agent = e.agent) (he : e ≠ .reset)
    (hin : s.status.st.inTransaction = true) (h : WireLaw w s) (ht : s.applyEvent e = .next t) :
    KeepsWireLaw w s t := by
  cases e with
  | hostRead addr width =>
    cases ht
    exact .of_linePart h (s.hostRead_linePart addr width)
  | hostWrite addr width d =>
    have hagent : s.agent ≠ .exec := by simp [hown, Event.agent]
    exact .of_linePart h (State.hostWrite_linePart hagent (SeqState.busy_of_inTransaction hin) ht)
  | txTake =>
    cases ht
    exact State.txTake_keepsWireLaw h
  | rxByte b => exact State.rxByte_keepsWireLaw h ht
  | tick =>
    cases ht
    exact State.tick_keepsWireLaw h
  | exec =>
    have hidle : s.execEvent = .next s := State.execEvent_of_not_exec (SeqState.ne_exec_of_inTransaction hin)
    cases hidle.symm.trans ht
    exact ⟨h, rfl⟩
  | reset => exact absurd rfl he

/-- A step of a transaction, other than Reset, keeps the wire law and TXF. -/
theorem step_keepsWireLaw (hin : s.status.st.inTransaction = true) (hr : NoReset s) (h : WireLaw w s)
    (ht : step s = .next t) : KeepsWireLaw w s t := by
  rcases step_cases ht with ⟨-, -, rfl⟩ | ⟨-, hx, -⟩ | ⟨e, rest, hev, hx⟩
  · exact ⟨h, rfl⟩
  · exact absurd hx (SeqState.ne_exec_of_inTransaction hin)
  · have hne : e ≠ .reset := by
      rintro rfl
      exact hr (by rw [hev]; rfl)
    exact State.applyEvent_keepsWireLaw (s := s.begin e rest) rfl hne hin h hx

end

/-- The first attempt of a SEND starts with nothing sent. -/
theorem exec_send_wireLaw {s t : State} (hagent : s.agent = .exec) (hready : SendReady s)
    (ht : exec .send s = .next t) : WireLaw s.wire t := by
  obtain ⟨-, -, hconfig, hsrc, hdst, hfits⟩ := hready
  rw [exec_send_of_fits hagent hconfig hsrc hdst hfits, ← State.startAttempt_eq_started] at ht
  rw [← Host.Outcome.next.inj ht]
  exact State.startAttempt_wireLaw (by simp [copies])

/-- Settles O42: the first attempt establishes the law, and every event but Reset keeps it; it rests on no other part of
the invariant. -/
theorem wireCarriesOneFramePerAttempt : Obligations.WireCarriesOneFramePerAttempt := by
  unfold Obligations.WireCarriesOneFramePerAttempt
  exact ⟨fun s t => exec_send_wireLaw, fun w s t _ => step_keepsWireLaw⟩

end Sys2Proof.Machine

/-! SUPPORT. A SEND whose every attempt fails (spec/44_transaction.md R240-R265): the events of its schedule take it
through its attempts, one after the other, to EXHAUSTED. -/

namespace Sys2Proof.Machine
open Sys2Proof.Claims

/-! ## Runs of a transaction -/

/-- `k` events, none of them Reset, lead from `s` to `t`, and the transaction is running before each of them. -/
inductive Runs : State → Nat → State → Prop
  | refl (s : State) : Runs s 0 s
  | event {s t u : State} {k : Nat} {e : Event} {rest : List Event} (hin : s.status.st.inTransaction = true)
      (hev : s.events = e :: rest) (he : e ≠ .reset) (ht : step s = .next t) (h : Runs t k u) : Runs s (k + 1) u

theorem Runs.one {s t : State} {e : Event} {rest : List Event} (hin : s.status.st.inTransaction = true)
    (hev : s.events = e :: rest) (he : e ≠ .reset) (ht : step s = .next t) : Runs s 1 t :=
  .event hin hev he ht (.refl t)

theorem Runs.trans {s t u : State} {j k : Nat} (h : Runs s j t) (h' : Runs t k u) : Runs s (j + k) u := by
  induction h with
  | refl => rwa [Nat.zero_add]
  | event hin hev he ht _ ih =>
    rw [Nat.add_right_comm]
    exact .event hin hev he ht (ih h')

theorem Runs.run {s t : State} {k : Nat} (h : Runs s k t) : Sys2Proof.core.run k s = .next t := by
  induction h with
  | refl => rfl
  | event _ _ _ ht _ ih => rw [run_succ ht, ih]

theorem Runs.keepsWireLaw {s t : State} {k : Nat} {w : List Byte} (h : Runs s k t) (hw : WireLaw w s) :
    KeepsWireLaw w s t := by
  induction h with
  | refl => exact ⟨hw, rfl⟩
  | event hin hev he ht _ ih =>
    obtain ⟨hlaw, hframe⟩ := step_keepsWireLaw hin (by simpa [hev] using he) hw ht
    obtain ⟨hlaw', hframe'⟩ := ih hlaw
    exact ⟨hlaw', hframe'.trans hframe⟩

/-! ## The parts of an attempt (R247-R253) -/

theorem State.Waits.inTransaction {s : State} (h : s.Waits) : s.status.st.inTransaction = true := by
  rcases h with ⟨hst, -⟩ | hst | hst <;> rw [hst] <;> rfl

/-- A wait of `k + 1` ticks counts down to its last one. -/
theorem Runs.ticks {s : State} {k : Nat} {rest : List Event} (hwait : s.Waits) (hk : s.wcnt.toNat = k + 1)
    (hev : s.events = List.replicate (k + 1) .tick ++ rest) :
    Runs s (k + 1) ({ after s .timebase rest with wcnt := 1 }).tick := by
  induction k generalizing s with
  | zero =>
    have hlast : s.wcnt = 1 := by bv_omega
    exact .one hwait.inTransaction hev (by decide) (step_of_tick hev (by rw [← hlast]; rfl))
  | succ k ih =>
    have hmore : s.wcnt ≠ 1 := by bv_omega
    have hstep : step s = .next { after s .timebase (List.replicate (k + 1) .tick ++ rest) with
        wcnt := s.wcnt - 1 } := step_of_tick hev (State.tick_of_more hwait hmore)
    refine .event hwait.inTransaction hev (by decide) hstep (ih hwait ?_ rfl)
    show (s.wcnt - 1).toNat = k + 1
    bv_omega

/-- A whole wait, to what its last tick does. -/
theorem Runs.wait {s t : State} {rest : List Event} (hwait : s.Waits) (hpos : s.wcnt ≠ 0)
    (hev : s.events = List.replicate s.wcnt.toNat .tick ++ rest)
    (ht : ({ after s .timebase rest with wcnt := 1 }).tick = t) : Runs s s.wcnt.toNat t := by
  subst ht
  obtain ⟨k, hk⟩ : ∃ k, s.wcnt.toNat = k + 1 := Nat.exists_eq_add_one.2 (by bv_omega)
  rw [hk] at hev ⊢
  exact .ticks hwait hk hev

/-- The TxLine takes the bytes that are left of the frame. -/
theorem Runs.txTakes {s : State} {k : Nat} {rest : List Event} (hst : s.status.st = .sending) (hph : s.tx.ph = .emit)
    (hk : s.tx.idx + (k + 1) = s.tx.frame.length) (hev : s.events = List.replicate (k + 1) .txTake ++ rest) :
    ∃ v, Runs s (k + 1) ({ after s .txLine rest with
      wire := v, tx := { s.tx with idx := s.tx.frame.length } }).endEmit := by
  have hin : s.status.st.inTransaction = true := by rw [hst]; rfl
  have hb : s.tx.frame[s.tx.idx]? = some (s.tx.frame[s.tx.idx]) := List.getElem?_eq_getElem (by omega)
  generalize s.tx.frame[s.tx.idx] = b at hb
  induction k generalizing s b with
  | zero =>
    refine ⟨s.wire ++ [b], .one hin hev (by decide) (step_of_txTake hev ?_)⟩
    rw [← hk]
    exact State.txTake_of_last hst hph hb hk
  | succ k ih =>
    have hmore : s.tx.idx + 1 < s.tx.frame.length := by omega
    have hleft : s.tx.idx + 1 + (k + 1) = s.tx.frame.length := by omega
    have hstep : step s = .next ((after s .txLine (List.replicate (k + 1) .txTake ++ rest)).taken b) :=
      step_of_txTake hev (State.txTake_of_more hst hph hb hmore)
    obtain ⟨v, hrun⟩ := ih (s := (after s .txLine (List.replicate (k + 1) .txTake ++ rest)).taken b) hst hph hleft rfl
      hin _ (List.getElem?_eq_getElem hmore)
    exact ⟨v, .event hin hev (by decide) hstep hrun⟩

/-! ## One SEND, attempt by attempt (R242, R246, R262) -/

/-- In `s` the SEND of `s₀` goes on with `n` retries counted: its operands, DBUF and TXF are the ones it began with. -/
structure SendOf (s₀ : State) (n : Nat) (s : State) : Prop where
  regs : s.regs = s₀.regs
  dbuf : s.dbuf = s₀.dbuf
  frame : s.tx.frame = sendFrame s₀
  retryCnt : s.results.retryCnt.toNat = n

/-- What `SendOf` reads. -/
def State.carried (s : State) := (s.regs, s.dbuf, s.tx.frame, s.results.retryCnt)

/-- An attempt starts: the first byte of TXF is offered (R246). -/
structure State.Starts (s : State) : Prop where
  st : s.status.st = .sending
  ph : s.tx.ph = .emit
  idx : s.tx.idx = 0

theorem starts_started (s : State) : (started s).Starts := ⟨rfl, rfl, rfl⟩

section
variable {s₀ s t : State} {n : Nat} {rest ending : List Event} {f : Failure}

theorem SendOf.congr (h : SendOf s₀ n s) (e : t.carried = s.carried) : SendOf s₀ n t := by
  simp only [State.carried, Prod.mk.injEq] at e
  obtain ⟨hregs, hdbuf, hframe, hretry⟩ := e
  exact ⟨hregs.trans h.regs, hdbuf.trans h.dbuf, hframe.trans h.frame, hretry ▸ h.retryCnt⟩

/-- The whole frame is taken. -/
theorem Runs.emission (h : SendOf s₀ n s) (hs : s.Starts)
    (hev : s.events = List.replicate (sendFrame s₀).length .txTake ++ rest) :
    ∃ u, Runs s (sendFrame s₀).length u.endEmit ∧ SendOf s₀ n u ∧ u.status.st = .sending ∧ u.events = rest := by
  obtain ⟨k, hk⟩ : ∃ k, (sendFrame s₀).length = k + 1 := Nat.exists_eq_add_one.2 (Regs.frame_ne_nil ..)
  rw [hk] at hev ⊢
  obtain ⟨v, hrun⟩ := Runs.txTakes hs.st hs.ph (by rw [hs.idx, h.frame, hk, Nat.zero_add]) hev
  exact ⟨_, hrun, h.congr rfl, hs.st, rfl⟩

/-- After the emission the settle time passes, where there is one, and the response is awaited. -/
theorem Runs.settling (h : SendOf s₀ n s) (hst : s.status.st = .sending)
    (hev : s.events = List.replicate (settleTicks s₀) .tick ++ rest) :
    ∃ u, Runs s.endEmit (settleTicks s₀) u.enterAwait ∧ SendOf s₀ n u ∧ u.events = rest := by
  rw [settleTicks, ← h.regs] at hev ⊢
  cases hlc : s.regs.lcEn with
  | false =>
    rw [hlc] at hev
    rw [State.endEmit_of_no_lineControl hlc]
    exact ⟨s, .refl _, h, hev⟩
  | true =>
    rw [hlc, if_pos rfl] at hev
    rw [if_pos rfl]
    by_cases hset : s.regs.settleT = 0
    · rw [hset] at hev ⊢
      rw [State.endEmit_of_no_settle hlc hset]
      exact ⟨_, .refl _, h.congr rfl, hev⟩
    · rw [State.endEmit_of_settle hlc hset]
      exact ⟨_, .wait (s := s.settling) (.inl ⟨hst, rfl⟩) hset hev (State.tick_ends_settle hst rfl rfl),
        h.congr rfl, rfl⟩

/-- The events of an attempt transmit it whole. -/
theorem Runs.transmission (h : SendOf s₀ n s) (hs : s.Starts) (hev : s.events = attemptEvents s₀ ++ rest) :
    ∃ u, Runs s (attemptEvents s₀).length u.enterAwait ∧ SendOf s₀ n u ∧ u.events = rest := by
  rw [attemptEvents, List.append_assoc] at hev
  obtain ⟨u, hemit, hu, hst, hevu⟩ := Runs.emission h hs hev
  obtain ⟨v, hsettle, hv, hevv⟩ := Runs.settling hu hst hevu
  refine ⟨v, ?_, hv, hevv⟩
  simpa [attemptEvents] using hemit.trans hsettle

/-- Once an attempt of the SEND of `s₀` has been transmitted, the events `ending` end it with the failure `f`. -/
def EndsAttempt (s₀ : State) (ending : List Event) (f : Failure) : Prop :=
  ∀ (s : State) (n : Nat) (rest : List Event), SendOf s₀ n s → s.events = ending ++ rest →
    ∃ u, Runs s.enterAwait ending.length (u.attemptFailed f) ∧ SendOf s₀ n u ∧ u.events = rest

/-- An attempt that fails. -/
theorem Runs.attempt (hend : EndsAttempt s₀ ending f) (h : SendOf s₀ n s) (hs : s.Starts)
    (hev : s.events = attemptEvents s₀ ++ ending ++ rest) :
    ∃ u, Runs s (attemptEvents s₀ ++ ending).length (u.attemptFailed f) ∧ SendOf s₀ n u ∧ u.events = rest := by
  rw [List.append_assoc] at hev
  obtain ⟨u, hsent, hu, hevu⟩ := Runs.transmission h hs hev
  obtain ⟨v, hfail, hv, hevv⟩ := hend u n rest hu hevu
  rw [List.length_append]
  exact ⟨v, hsent.trans hfail, hv, hevv⟩

/-- A retry starts the next attempt after its backoff. -/
theorem Runs.backoff (h : SendOf s₀ n s) (hleft : n < s₀.regs.maxRetry.toNat)
    (hev : s.events = List.replicate s₀.regs.backoff.toNat .tick ++ rest) :
    ∃ t, Runs s.retry s₀.regs.backoff.toNat t ∧ SendOf s₀ (n + 1) t ∧ t.Starts ∧ t.events = rest := by
  have hsend : SendOf s₀ (n + 1) s.backingOff := ⟨h.regs, h.dbuf, h.frame, by
    have hn := h.retryCnt
    show (s.results.retryCnt + 1).toNat = n + 1
    bv_omega⟩
  rw [← h.regs] at hev ⊢
  rw [State.retry_eq]
  split
  next hzero =>
    rw [hzero] at hev ⊢
    exact ⟨_, .refl _, hsend.congr rfl, starts_started _, hev⟩
  next hwait =>
    exact ⟨_, .wait (s := s.backingOff) (.inr (.inr rfl)) hwait hev (State.tick_ends_backoff rfl rfl),
      hsend.congr rfl, starts_started _, rfl⟩

/-! ## The whole schedule (R265) -/

/-- The events of a SEND that has `m` retries left at the start of an attempt, every attempt ending with `ending`. -/
def attemptsLeft (s₀ : State) (ending : List Event) (m : Nat) : List Event :=
  (List.replicate m (attemptEvents s₀ ++ ending ++ List.replicate s₀.regs.backoff.toNat .tick)).flatten ++
    (attemptEvents s₀ ++ ending)

theorem schedule_eq_attemptsLeft (s₀ : State) (ending : List Event) :
    schedule s₀ ending = attemptsLeft s₀ ending s₀.regs.maxRetry.toNat := rfl

theorem attemptsLeft_zero (s₀ : State) (ending : List Event) :
    attemptsLeft s₀ ending 0 = attemptEvents s₀ ++ ending := rfl

theorem attemptsLeft_succ (s₀ : State) (ending : List Event) (m : Nat) :
    attemptsLeft s₀ ending (m + 1) = attemptEvents s₀ ++ ending ++
      (List.replicate s₀.regs.backoff.toNat .tick ++ attemptsLeft s₀ ending m) := by
  simp [attemptsLeft, List.replicate_succ]

/-- Failed attempts follow one another until no retry is left. -/
theorem Runs.allAttempts {m : Nat} (hend : EndsAttempt s₀ ending f) (hf : s₀.regs.retryable f = true)
    (h : SendOf s₀ n s) (hs : s.Starts) (hm : n + m = s₀.regs.maxRetry.toNat)
    (hev : s.events = attemptsLeft s₀ ending m) :
    ∃ u, Runs s (attemptsLeft s₀ ending m).length (u.exhausted f) ∧ SendOf s₀ s₀.regs.maxRetry.toNat u := by
  induction m generalizing s n with
  | zero =>
    rw [attemptsLeft_zero] at hev ⊢
    obtain ⟨u, hfail, hu, -⟩ := Runs.attempt (rest := []) hend h hs (by rw [hev, List.append_nil])
    have hlast : u.regs.maxRetry ≤ u.results.retryCnt := by
      rw [BitVec.le_def, hu.regs, hu.retryCnt]
      omega
    rw [State.attemptFailed_of_exhausted (hu.regs ▸ hf) hlast] at hfail
    exact ⟨u, hfail, hm ▸ hu⟩
  | succ m ih =>
    rw [attemptsLeft_succ] at hev ⊢
    obtain ⟨u, hfail, hu, hevu⟩ := Runs.attempt hend h hs hev
    have hleft : u.results.retryCnt < u.regs.maxRetry := by
      rw [BitVec.lt_def, hu.regs, hu.retryCnt]
      omega
    rw [State.attemptFailed_of_retry (hu.regs ▸ hf) hleft] at hfail
    obtain ⟨t, hwait, ht, hts, hevt⟩ := Runs.backoff hu (by omega) hevu
    obtain ⟨v, hrun, hv⟩ := ih ht hts (by omega) hevt
    refine ⟨v, ?_, hv⟩
    simpa [Nat.add_assoc] using hfail.trans (hwait.trans hrun)

/-- The Exec step of a ready SEND starts its first attempt. -/
theorem sendReady_step (h : SendReady s) (hev : s.events = .exec :: rest) :
    ∃ t, step s = .next t ∧ SendOf s 0 t ∧ t.Starts ∧ t.events = rest ∧ WireLaw s.wire t := by
  have ⟨hst, hpend, hconfig, hsrc, hdst, hfits⟩ := h
  have hexec : step s = exec .send (after s .exec rest) := by
    rw [step_exec hev, State.execEvent_of_exec (s := after s .exec rest) hst]
    exact congrArg (fun opc => exec (decodeOpc opc) (after s .exec rest)) hpend
  have hsend := exec_send_of_fits (s := after s .exec rest) rfl hconfig hsrc hdst hfits
  have hframe : sendFrame (after s .exec rest) = sendFrame s :=
    congrArg (s.regs.frame s.regs.txAddr s.regs.txCtrl) (State.srcBytes_congr rfl rfl rfl rfl)
  exact ⟨_, hexec.trans hsend, ⟨rfl, rfl, hframe, rfl⟩, starts_started _, rfl,
    exec_send_wireLaw (s := after s .exec rest) rfl h hsend⟩

/-- A ready SEND whose every attempt ends with the same retryable failure makes all its attempts and is exhausted; the
wire has carried its frame once per attempt. -/
theorem sendReady_exhausts (h : SendReady s) (hend : EndsAttempt s ending f) (hf : s.regs.retryable f = true)
    (hev : s.events = .exec :: schedule s ending) :
    ∃ t u, step s = .next t ∧ Runs t (schedule s ending).length (u.exhausted f) ∧
      SendOf s s.regs.maxRetry.toNat u ∧ u.wire = s.wire ++ copies (sendFrame s) (s.regs.maxRetry.toNat + 1) := by
  rw [schedule_eq_attemptsLeft] at hev ⊢
  obtain ⟨t, hstep, ht, hts, hevt, hlaw⟩ := sendReady_step h hev
  obtain ⟨u, hrun, hu⟩ := Runs.allAttempts hend hf ht hts (Nat.zero_add _) hevt
  have hsent : u.wire = s.wire ++ copies u.tx.frame (u.results.retryCnt.toNat + 1) :=
    (wireLaw_transmitted_iff (s := u.exhausted f) (.inr (.inr (.inr rfl)))).1 (hrun.keepsWireLaw hlaw).1
  rw [hu.frame, hu.retryCnt] at hsent
  exact ⟨t, u, hstep, hrun, hu, hsent⟩

/-! ## A responder that answers every attempt with BUSY (R256, R265(b)) -/

/-- A BUSY code that is no enabled ACK or NACK code ends the attempt. -/
theorem endsAttempt_busy (hmode : s₀.regs.rspMode = false) (htmo : s₀.regs.rxTmo ≠ 0) (hbusy : s₀.regs.busyEn = true)
    (hack : ¬(s₀.regs.ackEn = true ∧ s₀.regs.busyCode = s₀.regs.ackCode))
    (hnack : ¬(s₀.regs.nackEn = true ∧ s₀.regs.busyCode = s₀.regs.nackCode)) :
    EndsAttempt s₀ [.rxByte s₀.regs.busyCode] .busyRsp := by
  intro s n rest h hev
  rw [← h.regs] at hmode htmo hbusy hack hnack hev ⊢
  let u : State := after (awaiting s) .rxLine rest
  have hclass : u.rxByte s.regs.busyCode = .next (u.attemptFailed .busyRsp) := by
    rw [State.rxByte_of_status (s := u) rfl hmode, State.rxStatus_eq]
    exact congrArg _ (Eq.trans (if_neg hack) (Eq.trans (if_neg hnack) (if_pos ⟨hbusy, rfl⟩)))
  rw [State.enterAwait_of_ne htmo]
  exact ⟨u, .one rfl hev (by simp) ((step_rxByte (s := awaiting s) hev).trans hclass), h.congr rfl, rfl⟩

end

/-- Settles O40: every attempt ends as BUSY_RSP, which is always retryable. -/
theorem busyResponderExhaustsTheRetries : Obligations.BusyResponderExhaustsTheRetries := by
  unfold Obligations.BusyResponderExhaustsTheRetries
  intro s hready hmode htmo hbusy hack hnack hev
  obtain ⟨t, u, hstep, hrun, hu, hwire⟩ :=
    sendReady_exhausts hready (endsAttempt_busy hmode htmo hbusy hack hnack) rfl hev
  refine ⟨u.exhausted .busyRsp, ?_, rfl, rfl, rfl, rfl, BitVec.eq_of_toNat_eq hu.retryCnt, hwire, hu.dbuf⟩
  rw [hev, List.length_cons, run_succ hstep, hrun.run]

end Sys2Proof.Machine

/-! SUPPORT. Reset (spec/70_reset_and_hazards.md R330-R332): the Reset event, the reset values, and the invariant at
reset. -/

namespace Sys2Proof.Machine
open Sys2Proof.Claims

theorem step_reset {s : State} {rest : List Event} (h : s.events = .reset :: rest) :
    step s = .next (after s .reset rest).resetEvent := step_event h

/-- Settles O55: the Reset event reads nothing of the block's state. -/
theorem resetEventRestoresTheResetState : Obligations.ResetEventRestoresTheResetState := by
  unfold Obligations.ResetEventRestoresTheResetState
  exact fun _ _ => step_reset

theorem rsvWord_zero (k : Nat) : rsvWord 0 k = 0 := by simp [rsvWord]

theorem OpReg.ofOffset_rsv (k : Fin 8) : OpReg.ofOffset (0x060 + 4 * k.val) = some (.rsv k) := by
  revert k
  decide

/-- No byte stands in the reserved set at reset (10_state.md R45). -/
theorem State.regWord_reset_rsv {k : Nat} (hk : k < 8) : State.reset.regWord (0x060 + 4 * k) = 0 :=
  (State.regWord_of_ofOffset _ (OpReg.ofOffset_rsv ⟨k, hk⟩)).trans (rsvWord_zero k)

/-- Settles O56: the eight RSV registers are one bitmap, and each other clause is a value to evaluate. -/
theorem resetValues : Obligations.ResetValues := by
  unfold Obligations.ResetValues
  exact ⟨rfl, rfl, rfl, rfl, rfl, rfl, rfl, rfl, rfl, rfl, rfl, rfl, rfl, rfl, rfl, rfl, rfl, rfl, rfl, rfl, rfl,
    fun _ => State.regWord_reset_rsv, rfl, rfl, rfl, rfl, rfl, rfl⟩

/-- Settles O57: the reset state is at rest, with legal parameters, an empty DBUF and no error recorded. -/
theorem resetSatisfiesTheInvariant : Obligations.ResetSatisfiesTheInvariant := by
  unfold Obligations.ResetSatisfiesTheInvariant
  exact State.inv_of_not_busy rfl ⟨by decide, rfl, fun _ hc => absurd hc List.not_mem_nil, Regs.get_reset_and_not_mask⟩
    (Status.Clean.consistent ⟨rfl, rfl, rfl, rfl⟩ (by decide)) ⟨rfl, rfl⟩

end Sys2Proof.Machine

/-! SUPPORT. A profile whose END_MK is its ESC_MK (spec/70_reset_and_hazards.md R340(a)): the parser takes every such
byte of the body as an escape marker, so that no frame ever ends. -/

namespace Sys2Proof.Machine
open Sys2Proof.Claims

/-- The results of a parser that reaches no checksum field: it goes on, or meets a literal `START_MK`, or overflows. -/
def RxResult.BeforeCk (res : RxResult) : Prop :=
  res = .cont ∨ res = .bad none (.malformed .noEnd) ∨ res = .bad none (.malformed .overflow)

section
variable {r : Regs} {x y : Rx} {b : Byte} {res : RxResult}

theorem Regs.rxAppend_beforeCk (h : r.rxAppend x b = (y, res)) : y.ph ≠ .ck ∧ res.BeforeCk := by
  rcases r.rxAppend_cases x b with ⟨-, ha⟩ | ⟨-, ha⟩ <;> rw [ha] at h <;> cases h
  · exact ⟨by simp, .inl rfl⟩
  · exact ⟨by simp, .inr (.inr rfl)⟩

/-- Outside the checksum phase only an `END_MK` that is no `ESC_MK` leads into it (R207, R210). -/
theorem Regs.rxStep_beforeCk (hmarks : r.endMk = r.escMk) (hph : x.ph ≠ .ck) (h : r.rxStep x b = (y, res)) :
    y.ph ≠ .ck ∧ res.BeforeCk := by
  rcases r.rxStep_cases x b with ⟨-, -, hs⟩ | ⟨-, -, hs⟩ | ⟨-, hs⟩ | ⟨-, -, hs⟩ | ⟨-, hesc, hend, -⟩ |
    ⟨-, -, -, -, hs⟩ | ⟨-, hs⟩ | ⟨hck, -⟩ | ⟨hck, -⟩
  · cases hs.symm.trans h
    exact ⟨hph, .inl rfl⟩
  · cases hs.symm.trans h
    exact ⟨by dsimp only; split <;> decide, .inl rfl⟩
  · cases hs.symm.trans h
    exact ⟨by dsimp only; split <;> decide, .inl rfl⟩
  · cases hs.symm.trans h
    exact ⟨by simp, .inl rfl⟩
  · exact absurd (hend.trans hmarks) hesc
  · cases hs.symm.trans h
    exact ⟨hph, .inr (.inl rfl)⟩
  · exact Regs.rxAppend_beforeCk (hs.symm.trans h)
  · exact absurd hck hph
  · exact absurd hck hph

theorem Regs.rxFeed_beforeCk {d : List Byte} {n : Nat} (hmarks : r.endMk = r.escMk) (hph : x.ph ≠ .ck)
    (h : r.rxFeed x d = (y, n, res)) : y.ph ≠ .ck ∧ res.BeforeCk := by
  induction d generalizing x n with
  | nil =>
    cases h
    exact ⟨hph, .inl rfl⟩
  | cons b d ih =>
    rcases hs : r.rxStep x b with ⟨z, stepRes⟩
    obtain ⟨hz, hres⟩ := Regs.rxStep_beforeCk hmarks hph hs
    by_cases hc : stepRes = .cont
    · subst hc
      rw [Regs.rxFeed_cons_cont hs] at h
      cases h
      exact ih hz rfl
    · rw [Regs.rxFeed_cons_done hs hc] at h
      cases h
      exact ⟨hz, hres⟩

end

/-- Settles O30: the parse ends before the checksum field, by the input's end, a literal `START_MK` or an overflow. -/
theorem equalEndAndEscapeMarkersNeverReceive : Obligations.EqualEndAndEscapeMarkersNeverReceive := by
  unfold Obligations.EqualEndAndEscapeMarkersNeverReceive
  intro s hagent hconfig hsrc hdst hmarks
  rw [exec_parse, State.command_of_inside hagent (by decide) (by decide) hconfig hsrc hdst]
  rcases hfeed : s.regs.rxFeed Rx.reset s.srcBytes with ⟨x, n, res⟩
  obtain ⟨hph, rfl | rfl | rfl⟩ := Regs.rxFeed_beforeCk hmarks (by decide) hfeed
  · exact ⟨_, State.runParse_of_cont hfeed, rfl, hph, .inl ⟨rfl, rfl⟩⟩
  · exact ⟨_, State.runParse_of_bad hfeed, rfl, hph, .inr ⟨rfl, .inl rfl⟩⟩
  · exact ⟨_, State.runParse_of_bad hfeed, rfl, hph, .inr ⟨rfl, .inr rfl⟩⟩

end Sys2Proof.Machine

/-! SUPPORT. A SEND whose every attempt times out (spec/70_reset_and_hazards.md R346, spec/44_transaction.md R267): the
events it takes, and that it is Busy before each of them. -/

namespace Sys2Proof.Machine
open Sys2Proof.Claims

/-- The block is Busy before each event of a transaction. -/
theorem Runs.busy {s t : State} {j k : Nat} (h : Runs s k t) (hj : j < k) :
    ∃ u, Sys2Proof.core.run j s = .next u ∧ u.busy = true := by
  induction h generalizing j with
  | refl => exact absurd hj (Nat.not_lt_zero j)
  | event hin _ _ ht _ ih =>
    cases j with
    | zero => exact ⟨_, rfl, SeqState.busy_of_inTransaction hin⟩
    | succ j =>
      obtain ⟨u, hrun, hb⟩ := ih (Nat.lt_of_succ_lt_succ hj)
      exact ⟨u, (run_succ ht j).trans hrun, hb⟩

/-- The deadline passes without a response; a deadline of 0 passes as the wait begins (R249, R251). -/
theorem endsAttempt_timeout (s₀ : State) :
    EndsAttempt s₀ (List.replicate s₀.regs.rxTmo.toNat .tick) .timeout := by
  intro s n rest h hev
  rw [List.length_replicate]
  rw [← h.regs] at hev ⊢
  by_cases hzero : s.regs.rxTmo = 0
  · rw [hzero] at hev ⊢
    rw [State.enterAwait_of_no_deadline hzero]
    exact ⟨awaiting s, .refl _, h.congr rfl, hev⟩
  · rw [State.enterAwait_of_ne hzero]
    exact ⟨_, .wait (s := awaiting s) (.inr (.inl rfl)) hzero hev (State.tick_ends_await rfl rfl), h.congr rfl, rfl⟩

/-- One attempt's events for each attempt, one backoff for each retry (R262). -/
theorem countP_schedule (s : State) (ending : List Event) (p : Event → Bool) :
    (schedule s ending).countP p =
      (s.regs.maxRetry.toNat + 1) * (attemptEvents s ++ ending).countP p +
        s.regs.maxRetry.toNat * (List.replicate s.regs.backoff.toNat .tick).countP p := by
  simp only [schedule, List.countP_append, List.countP_flatten, List.map_replicate, List.sum_replicate, smul_eq_mul]
  ring

/-- Settles O41: the schedule is counted part by part, and its events run the SEND to its end. -/
theorem timedOutSendTakesExactlyTheseEvents : Obligations.TimedOutSendTakesExactlyTheseEvents := by
  unfold Obligations.TimedOutSendTakesExactlyTheseEvents
  intro s hready hretry _ hev
  have hexec : s.busy = true := congrArg SeqState.busy hready.1
  obtain ⟨t, u, hstep, hrun, hu, -⟩ := sendReady_exhausts hready (endsAttempt_timeout s) hretry hev
  rw [hev, List.length_cons]
  refine ⟨?_, ?_, fun k hk => ?_, u.exhausted .timeout, (run_succ hstep _).trans hrun.run, rfl, rfl, rfl,
    BitVec.eq_of_toNat_eq hu.retryCnt⟩
  · simp [countP_schedule, attemptEvents, List.countP_replicate]
  · simp [countP_schedule, attemptEvents, List.countP_replicate]
  · cases k with
    | zero => exact ⟨s, rfl, hexec⟩
    | succ k =>
      obtain ⟨v, hv, hb⟩ := hrun.busy (Nat.lt_of_succ_lt_succ hk)
      exact ⟨v, (run_succ hstep k).trans hv, hb⟩

end Sys2Proof.Machine
